-- ==== Sys2Proof/Word.lean ====
section
/-!
DEFINITION. The two carriers of the codec: instruction words and strings (00_scope.md rule R7).
-/

namespace Sys2Proof

/-- An instruction word: an unsigned integer (R7). Its width `WORD_BITS` is a parameter of the
configuration (R4), so the type does not fix one; `0 ≤ W < 2 ^ WORD_BITS` is a fact about a word. -/
abbrev Word := Nat

/-- A string is a finite sequence of characters (R7). -/
abbrev Text := List Char

/-- A symbol table: an ordered finite list of `(key, value)` pairs (10_state.md rule R11). -/
abbrev Table := List (Text × Nat)

/-- The keys of a table, in table order. -/
abbrev Table.keys (T : Table) : List Text := List.map Prod.fst T

/-- The values of a table, in table order. -/
abbrev Table.values (T : Table) : List Nat := List.map Prod.snd T

end Sys2Proof
end

