-- ==== Sys2Proof/Config.lean ====
section
/-!
DEFINITION. The configuration object of the codec (00_scope.md rules R2, R4): for each of the two
instruction sets the word width, the symbol tables, the classification constants, the field layouts
and the overflow policy. The default contents are in Sys2Proof/Decode.lean.
-/

namespace Sys2Proof

/-- The two instruction sets (R2): `m` is the MIPS-like ISA `M`, `s` the simple ISA `S`. -/
inductive Isa
  | m
  | s
deriving DecidableEq, Repr

/-- The parameter `OVERFLOW` (42_field_codec.md rule R91). -/
inductive Overflow
  | reject
  | truncate
deriving DecidableEq, Repr

/-- The six error kinds, in the order of 60_exceptions.md rule R190. An error carries its kind and
nothing else. -/
inductive ErrorKind
  | unknownMnemonic
  | unknownRegister
  | unknownEncoding
  | invalidOperandSyntax
  | malformedInstruction
  | fieldOverflow
deriving DecidableEq, Repr

/-- The field names of the layouts of 30_encoding.md rules R43 to R45 (`M`) and R47 (`S`). -/
inductive FieldName
  | opcode
  | rs
  | rt
  | rd
  | shamt
  | funct
  | imm
  | target
  | pad
  | mode
  | dst
  | operand
deriving DecidableEq, Repr

/-- A field of a layout: name, bit width, bit offset (30_encoding.md rule R42). -/
structure Field where
  name : FieldName
  width : Nat
  offset : Nat
deriving DecidableEq, Repr

/-- A field layout: an ordered list of fields, most significant first (R42). -/
abbrev Layout := List Field

/-- The configuration of the MIPS-like ISA, `CFG_M` (R4). -/
structure ConfigM where
  /-- `WORD_BITS` (30_encoding.md rule R40). -/
  wordBits : Nat
  /-- `HEX_DIGITS` (R40). -/
  hexDigits : Nat
  /-- `OPC_M`, mnemonic to opcode (10_state.md rule R12). -/
  opc : Table
  /-- `FN_M`, mnemonic to function code (R13). -/
  fn : Table
  /-- `REG_M`, register name to register number (R14). -/
  reg : Table
  /-- `JUMP_CODES_M` (R15). -/
  jumpCodes : List Nat
  /-- `SHIFT_LIST_M` (R15). -/
  shiftList : List Text
  /-- `MEM_LIST_M` (R15). -/
  memList : List Text
  /-- Layout `R` (30_encoding.md rule R43). -/
  layoutR : Layout
  /-- Layout `I` (R44). -/
  layoutI : Layout
  /-- Layout `J` (R45). -/
  layoutJ : Layout
  /-- `OVERFLOW` (42_field_codec.md rule R91). -/
  overflow : Overflow
deriving DecidableEq, Repr

/-- The configuration of the simple ISA, `CFG_S` (R4). -/
structure ConfigS where
  /-- `WORD_BITS` (30_encoding.md rule R40). -/
  wordBits : Nat
  /-- `HEX_DIGITS` (R40). -/
  hexDigits : Nat
  /-- `OPC_S` (10_state.md rule R16). -/
  opc : Table
  /-- `FN_S`, the empty table by default (R18). No rule of `S` reads it. -/
  fn : Table
  /-- `REG_S` (R17). -/
  reg : Table
  /-- `JUMP_CODES_S` (R18). -/
  jumpCodes : List Nat
  /-- `HALT_OPCODE_S` (R18). -/
  haltOpcode : Nat
  /-- Layout `SW`, one tiling for all five formats (30_encoding.md rule R47). -/
  layoutSW : Layout
  /-- `OVERFLOW` (42_field_codec.md rule R91). -/
  overflow : Overflow
deriving DecidableEq, Repr

/-- One core with two configurations (R2, R4). -/
structure Config where
  m : ConfigM
  s : ConfigS
deriving DecidableEq, Repr

end Sys2Proof
end

