-- ==== Sys2Proof/Syntax.lean ====
section
/-!
DEFINITION. The abstract syntax of what the codec translates: the closed enumeration of formats
(30_encoding.md rule R41), the abstract instruction over any configuration (10_state.md rule R28) and
the instruction set of the default tables, one constructor for each row of spec/opcode_table.json.
-/

namespace Sys2Proof

/-- The four formats of `M` (R41). -/
inductive FormatM
  | r3
  | rShift
  | iType
  | jType
deriving DecidableEq, Repr

/-- The five formats of `S` (R41). -/
inductive FormatS
  | noOperand
  | singleTarget
  | regReg
  | immReg
  | loadStore
deriving DecidableEq, Repr

/-- The abstract instruction of R28: a mnemonic, a format (the constructor) and the operand values. A
register operand is its code; a numeric operand is the integer its numeral denotes, unbounded until it
is fitted to its field (42_field_codec.md rule R99 point 6). `iType` carries `(rt, rs, imm)` whichever
of its two text forms it is written in. -/
inductive AbstractInstr
  | r3 (m : Text) (rd rs rt : Nat)
  | rShift (m : Text) (rd rt : Nat) (shamt : Int)
  | iType (m : Text) (rt rs : Nat) (imm : Int)
  | jType (m : Text) (target : Int)
  | noOperand (m : Text)
  | singleTarget (m : Text) (target : Int)
  | regReg (m : Text) (src dst : Nat)
  | immReg (m : Text) (imm : Int) (dst : Nat)
  | loadStore (m : Text) (base dst : Nat)
deriving DecidableEq, Repr

/-- The instructions of the default tables: one constructor for each row of spec/opcode_table.json,
with the operand values of R28 in the row's operand order. -/
inductive Instr
  /-- `add rd, rs, rt`, format `R3`: rule R130. -/
  | add (rd rs rt : Nat)
  /-- `addu rd, rs, rt`, format `R3`: rule R131. -/
  | addu (rd rs rt : Nat)
  /-- `sub rd, rs, rt`, format `R3`: rule R132. -/
  | sub (rd rs rt : Nat)
  /-- `subu rd, rs, rt`, format `R3`: rule R133. -/
  | subu (rd rs rt : Nat)
  /-- `and rd, rs, rt`, format `R3`: rule R134. -/
  | and (rd rs rt : Nat)
  /-- `or rd, rs, rt`, format `R3`: rule R135. -/
  | or (rd rs rt : Nat)
  /-- `xor rd, rs, rt`, format `R3`: rule R136. -/
  | xor (rd rs rt : Nat)
  /-- `nor rd, rs, rt`, format `R3`: rule R137. -/
  | nor (rd rs rt : Nat)
  /-- `slt rd, rs, rt`, format `R3`: rule R138. -/
  | slt (rd rs rt : Nat)
  /-- `sltu rd, rs, rt`, format `R3`: rule R139. -/
  | sltu (rd rs rt : Nat)
  /-- `sll rd, rt, shamt`, format `RShift`: rule R140. -/
  | sll (rd rt : Nat) (shamt : Int)
  /-- `srl rd, rt, shamt`, format `RShift`: rule R141. -/
  | srl (rd rt : Nat) (shamt : Int)
  /-- `sra rd, rt, shamt`, format `RShift`: rule R142. -/
  | sra (rd rt : Nat) (shamt : Int)
  /-- `addi rt, rs, imm`, format `IType`: rule R150. -/
  | addi (rt rs : Nat) (imm : Int)
  /-- `addiu rt, rs, imm`, format `IType`: rule R151. -/
  | addiu (rt rs : Nat) (imm : Int)
  /-- `slti rt, rs, imm`, format `IType`: rule R152. -/
  | slti (rt rs : Nat) (imm : Int)
  /-- `sltiu rt, rs, imm`, format `IType`: rule R153. -/
  | sltiu (rt rs : Nat) (imm : Int)
  /-- `andi rt, rs, imm`, format `IType`: rule R154. -/
  | andi (rt rs : Nat) (imm : Int)
  /-- `ori rt, rs, imm`, format `IType`: rule R155. -/
  | ori (rt rs : Nat) (imm : Int)
  /-- `xori rt, rs, imm`, format `IType`: rule R156. -/
  | xori (rt rs : Nat) (imm : Int)
  /-- `lb rt, imm(rs)`, format `IType`: rule R157. -/
  | lb (rt rs : Nat) (imm : Int)
  /-- `lh rt, imm(rs)`, format `IType`: rule R158. -/
  | lh (rt rs : Nat) (imm : Int)
  /-- `lw rt, imm(rs)`, format `IType`: rule R159. -/
  | lw (rt rs : Nat) (imm : Int)
  /-- `lbu rt, imm(rs)`, format `IType`: rule R160. -/
  | lbu (rt rs : Nat) (imm : Int)
  /-- `lhu rt, imm(rs)`, format `IType`: rule R161. -/
  | lhu (rt rs : Nat) (imm : Int)
  /-- `sb rt, imm(rs)`, format `IType`: rule R162. -/
  | sb (rt rs : Nat) (imm : Int)
  /-- `sh rt, imm(rs)`, format `IType`: rule R163. -/
  | sh (rt rs : Nat) (imm : Int)
  /-- `sw rt, imm(rs)`, format `IType`: rule R164. -/
  | sw (rt rs : Nat) (imm : Int)
  /-- `j target`, format `JType`: rule R170. -/
  | j (target : Int)
  /-- `jal target`, format `JType`: rule R171. -/
  | jal (target : Int)
  /-- `HLT`, format `NoOperand`: rule R175. -/
  | hlt
  /-- `JMP target`, format `SingleTarget`: rule R176. -/
  | jmp (target : Int)
  /-- `MOV Rs, Rd`, format `RegReg`: rule R177. -/
  | movRR (src dst : Nat)
  /-- `MOV #imm, Rd`, format `ImmReg`: rule R177. -/
  | movIR (imm : Int) (dst : Nat)
  /-- `MOV [Rs], Rd`, format `LoadStore`: rule R177. -/
  | movLS (base dst : Nat)
  /-- `ADD Rs, Rd`, format `RegReg`: rule R178. -/
  | addRR (src dst : Nat)
  /-- `ADD #imm, Rd`, format `ImmReg`: rule R178. -/
  | addIR (imm : Int) (dst : Nat)
  /-- `ADD [Rs], Rd`, format `LoadStore`: rule R178. -/
  | addLS (base dst : Nat)
  /-- `SUB Rs, Rd`, format `RegReg`: rule R179. -/
  | subRR (src dst : Nat)
  /-- `SUB #imm, Rd`, format `ImmReg`: rule R179. -/
  | subIR (imm : Int) (dst : Nat)
  /-- `SUB [Rs], Rd`, format `LoadStore`: rule R179. -/
  | subLS (base dst : Nat)
deriving DecidableEq, Repr

end Sys2Proof
end

