-- ==== Sys2Proof/WellFormed.lean ====
section
/-!
DEFINITION. What a well-formed instruction and a well-formed configuration are. An instruction is well
formed when its operand values are those the default configuration's fields and register tables admit
(10_state.md rules R14, R17; 30_encoding.md rules R43 to R47; 42_field_codec.md rule R91). A
configuration is well formed under 10_state.md rule R19 and the layout rules 30_encoding.md R40, R42.
-/

namespace Sys2Proof

/-- `c` is a code of the default `REG_M`: one name per 5-bit code (R14). -/
def regM (c : Nat) : Bool := decide (c < 32)

/-- `c` is a code of the default `REG_S`: `R0` to `R7` (R17). -/
def regS (c : Nat) : Bool := decide (c < 8)

/-- The integer `v` fits an unsigned field of `w` bits (R91). -/
def inField (v : Int) (w : Nat) : Bool := decide (0 ≤ v) && decide (v < 2 ^ w)

/-- The operand values of `i` are those its fields admit in the default configuration. -/
def Instr.wellFormed : Instr → Bool
  | .add rd rs rt => regM rd && regM rs && regM rt
  | .addu rd rs rt => regM rd && regM rs && regM rt
  | .sub rd rs rt => regM rd && regM rs && regM rt
  | .subu rd rs rt => regM rd && regM rs && regM rt
  | .and rd rs rt => regM rd && regM rs && regM rt
  | .or rd rs rt => regM rd && regM rs && regM rt
  | .xor rd rs rt => regM rd && regM rs && regM rt
  | .nor rd rs rt => regM rd && regM rs && regM rt
  | .slt rd rs rt => regM rd && regM rs && regM rt
  | .sltu rd rs rt => regM rd && regM rs && regM rt
  | .sll rd rt shamt => regM rd && regM rt && inField shamt 5
  | .srl rd rt shamt => regM rd && regM rt && inField shamt 5
  | .sra rd rt shamt => regM rd && regM rt && inField shamt 5
  | .addi rt rs imm => regM rt && regM rs && inField imm 16
  | .addiu rt rs imm => regM rt && regM rs && inField imm 16
  | .slti rt rs imm => regM rt && regM rs && inField imm 16
  | .sltiu rt rs imm => regM rt && regM rs && inField imm 16
  | .andi rt rs imm => regM rt && regM rs && inField imm 16
  | .ori rt rs imm => regM rt && regM rs && inField imm 16
  | .xori rt rs imm => regM rt && regM rs && inField imm 16
  | .lb rt rs imm => regM rt && regM rs && inField imm 16
  | .lh rt rs imm => regM rt && regM rs && inField imm 16
  | .lw rt rs imm => regM rt && regM rs && inField imm 16
  | .lbu rt rs imm => regM rt && regM rs && inField imm 16
  | .lhu rt rs imm => regM rt && regM rs && inField imm 16
  | .sb rt rs imm => regM rt && regM rs && inField imm 16
  | .sh rt rs imm => regM rt && regM rs && inField imm 16
  | .sw rt rs imm => regM rt && regM rs && inField imm 16
  | .j tg => inField tg 26
  | .jal tg => inField tg 26
  | .hlt => true
  | .jmp tg => inField tg 8
  | .movRR src dst => regS src && regS dst
  | .movIR imm dst => inField imm 8 && regS dst
  | .movLS base dst => regS base && regS dst
  | .addRR src dst => regS src && regS dst
  | .addIR imm dst => inField imm 8 && regS dst
  | .addLS base dst => regS base && regS dst
  | .subRR src dst => regS src && regS dst
  | .subIR imm dst => inField imm 8 && regS dst
  | .subLS base dst => regS base && regS dst

/-! ## Well-formed configurations -/

/-- The fields of `l` tile the bits below `top`, most significant first, without gap or overlap
(30_encoding.md rule R42). -/
def Layout.tiles : Layout → Nat → Bool
  | [], top => decide (top = 0)
  | f :: fs, top => decide (f.offset + f.width = top) && Layout.tiles fs f.offset

/-- The field names of a layout, in its order. -/
abbrev Layout.names (l : Layout) : List FieldName := List.map Field.name l

/-- The width of the field named `n`; 0 where the layout has none. -/
def Layout.width : Layout → FieldName → Nat
  | [], _ => 0
  | f :: fs, n => if f.name = n then f.width else Layout.width fs n

/-- R40, R42 and the field names of R43 to R45 for `M`. That the `opcode` field lies at one place in all
three layouts is what the decoder of R82 needs to read it before it knows the layout (DEDUCED, log
entry 4). -/
abbrev ConfigM.LayoutsOk (c : ConfigM) : Prop :=
  c.wordBits = 4 * c.hexDigits ∧
  (c.layoutR.names = [.opcode, .rs, .rt, .rd, .shamt, .funct] ∧ c.layoutR.tiles c.wordBits = true) ∧
  (c.layoutI.names = [.opcode, .rs, .rt, .imm] ∧ c.layoutI.tiles c.wordBits = true) ∧
  (c.layoutJ.names = [.opcode, .target] ∧ c.layoutJ.tiles c.wordBits = true) ∧
  c.layoutI.width .opcode = c.layoutR.width .opcode ∧
  c.layoutJ.width .opcode = c.layoutR.width .opcode

/-- R19 point 1: no key occurs twice in one table. -/
abbrev ConfigM.KeysDistinct (c : ConfigM) : Prop :=
  c.opc.keys.Nodup ∧ c.fn.keys.Nodup ∧ c.reg.keys.Nodup

/-- R19 point 2, its bound on `FN`, the same for both instruction sets: every function code is below
`2^6`, whatever the layout. -/
abbrev Table.FunctionCodes (fn : Table) : Prop := ∀ v ∈ fn.values, v < 2 ^ 6

/-- R19 point 2: an opcode or register code is below 2 to the width of the narrowest field it is packed
into, a function code below `2^6`. That a function code also fits a `funct` field of another width than the
6 bits of R43 is what `pack` asks of its values (42_field_codec.md rule R90; DEDUCED, log entry 4). -/
abbrev ConfigM.CodesFit (c : ConfigM) : Prop :=
  (∀ v ∈ c.opc.values, v < 2 ^ c.layoutR.width .opcode) ∧
  Table.FunctionCodes c.fn ∧
  (∀ v ∈ c.fn.values, v < 2 ^ c.layoutR.width .funct) ∧
  (∀ v ∈ c.reg.values,
    v < 2 ^ c.layoutR.width .rs ∧ v < 2 ^ c.layoutR.width .rt ∧ v < 2 ^ c.layoutR.width .rd ∧
    v < 2 ^ c.layoutI.width .rs ∧ v < 2 ^ c.layoutI.width .rt)

/-- R19 point 3: no two names have one code. -/
abbrev ConfigM.RegInjective (c : ConfigM) : Prop := c.reg.values.Nodup

/-- R19 point 4. -/
abbrev ConfigM.ClassesOk (c : ConfigM) : Prop :=
  (∀ k ∈ c.fn.keys, (k, 0) ∈ c.opc) ∧
  (∀ p ∈ c.opc, p.2 = 0 → p.1 ∈ c.fn.keys) ∧
  c.fn.values.Nodup ∧
  (c.opc.values.filter (fun v => decide (v ≠ 0))).Nodup ∧
  (∀ k ∈ c.shiftList, k ∈ c.fn.keys) ∧
  (∀ k ∈ c.memList, ∃ p ∈ c.opc, p.1 = k ∧ p.2 ≠ 0 ∧ p.2 ∉ c.jumpCodes) ∧
  0 ∉ c.jumpCodes

/-- A well-formed configuration of `M` (R19 and R40, R42). -/
abbrev ConfigM.WellFormed (c : ConfigM) : Prop :=
  c.KeysDistinct ∧ c.CodesFit ∧ c.RegInjective ∧ c.ClassesOk ∧ c.LayoutsOk

/-- R40, R42 and the field names of R47 for `S`. That `mode` is wide enough for the three codes of R47
is DEDUCED (log entry 4). -/
abbrev ConfigS.LayoutsOk (c : ConfigS) : Prop :=
  c.wordBits = 4 * c.hexDigits ∧
  c.layoutSW.names = [.pad, .mode, .dst, .opcode, .operand] ∧
  c.layoutSW.tiles c.wordBits = true ∧
  2 ≤ c.layoutSW.width .mode

/-- R19 points 1 to 3 for `S`. -/
abbrev ConfigS.TablesOk (c : ConfigS) : Prop :=
  c.opc.keys.Nodup ∧ c.fn.keys.Nodup ∧ c.reg.keys.Nodup ∧
  (∀ v ∈ c.opc.values, v < 2 ^ c.layoutSW.width .opcode) ∧
  Table.FunctionCodes c.fn ∧
  (∀ v ∈ c.reg.values, v < 2 ^ c.layoutSW.width .dst ∧ v < 2 ^ c.layoutSW.width .operand) ∧
  c.reg.values.Nodup

/-- R19 point 5. -/
abbrev ConfigS.ClassesOk (c : ConfigS) : Prop :=
  c.opc.values.Nodup ∧ c.haltOpcode ∈ c.opc.values ∧ c.haltOpcode ∉ c.jumpCodes

/-- A well-formed configuration of `S` (R19 and R40, R42). -/
abbrev ConfigS.WellFormed (c : ConfigS) : Prop :=
  c.TablesOk ∧ c.ClassesOk ∧ c.LayoutsOk

/-- A well-formed configuration: both instruction sets. -/
abbrev Config.WellFormed (c : Config) : Prop := c.m.WellFormed ∧ c.s.WellFormed

end Sys2Proof
end

