-- ==== Sys2Proof/Decode.lean ====
section
/-!
DEFINITION. The default configuration (10_state.md rules R12 to R18, 30_encoding.md rules R43 to R47),
the symbol-table lookups (40_symbol_tables.md), the field codec (42_field_codec.md), the decode side of
the classifier (41_classifier.md) and the word-level decoder and encoder of both instruction sets.
-/

namespace Sys2Proof

/-! ## Default tables, lists and layouts -/

/-- `OPC_M`, in table order (R12). -/
def opcM : Table :=
  [(['a', 'd', 'd'], 0x00),
   (['a', 'd', 'd', 'u'], 0x00),
   (['s', 'u', 'b'], 0x00),
   (['s', 'u', 'b', 'u'], 0x00),
   (['a', 'n', 'd'], 0x00),
   (['o', 'r'], 0x00),
   (['x', 'o', 'r'], 0x00),
   (['n', 'o', 'r'], 0x00),
   (['s', 'l', 't'], 0x00),
   (['s', 'l', 't', 'u'], 0x00),
   (['s', 'l', 'l'], 0x00),
   (['s', 'r', 'l'], 0x00),
   (['s', 'r', 'a'], 0x00),
   (['a', 'd', 'd', 'i'], 0x08),
   (['a', 'd', 'd', 'i', 'u'], 0x09),
   (['s', 'l', 't', 'i'], 0x0a),
   (['s', 'l', 't', 'i', 'u'], 0x0b),
   (['a', 'n', 'd', 'i'], 0x0c),
   (['o', 'r', 'i'], 0x0d),
   (['x', 'o', 'r', 'i'], 0x0e),
   (['l', 'b'], 0x20),
   (['l', 'h'], 0x21),
   (['l', 'w'], 0x23),
   (['l', 'b', 'u'], 0x24),
   (['l', 'h', 'u'], 0x25),
   (['s', 'b'], 0x28),
   (['s', 'h'], 0x29),
   (['s', 'w'], 0x2b),
   (['j'], 0x02),
   (['j', 'a', 'l'], 0x03)]

/-- `FN_M`, in table order (R13). -/
def fnM : Table :=
  [(['a', 'd', 'd'], 0x20),
   (['a', 'd', 'd', 'u'], 0x21),
   (['s', 'u', 'b'], 0x22),
   (['s', 'u', 'b', 'u'], 0x23),
   (['a', 'n', 'd'], 0x24),
   (['o', 'r'], 0x25),
   (['x', 'o', 'r'], 0x26),
   (['n', 'o', 'r'], 0x27),
   (['s', 'l', 't'], 0x2a),
   (['s', 'l', 't', 'u'], 0x2b),
   (['s', 'l', 'l'], 0x00),
   (['s', 'r', 'l'], 0x02),
   (['s', 'r', 'a'], 0x03)]

/-- `REG_M`, in table order (R14). -/
def regTableM : Table :=
  [(['$', 'z', 'e', 'r', 'o'], 0),
   (['$', 'a', 't'], 1),
   (['$', 'v', '0'], 2),
   (['$', 'v', '1'], 3),
   (['$', 'a', '0'], 4),
   (['$', 'a', '1'], 5),
   (['$', 'a', '2'], 6),
   (['$', 'a', '3'], 7),
   (['$', 't', '0'], 8),
   (['$', 't', '1'], 9),
   (['$', 't', '2'], 10),
   (['$', 't', '3'], 11),
   (['$', 't', '4'], 12),
   (['$', 't', '5'], 13),
   (['$', 't', '6'], 14),
   (['$', 't', '7'], 15),
   (['$', 's', '0'], 16),
   (['$', 's', '1'], 17),
   (['$', 's', '2'], 18),
   (['$', 's', '3'], 19),
   (['$', 's', '4'], 20),
   (['$', 's', '5'], 21),
   (['$', 's', '6'], 22),
   (['$', 's', '7'], 23),
   (['$', 't', '8'], 24),
   (['$', 't', '9'], 25),
   (['$', 'k', '0'], 26),
   (['$', 'k', '1'], 27),
   (['$', 'g', 'p'], 28),
   (['$', 's', 'p'], 29),
   (['$', 'f', 'p'], 30),
   (['$', 'r', 'a'], 31)]

/-- `JUMP_CODES_M` (R15). -/
def jumpCodesM : List Nat := [0x02, 0x03]

/-- `SHIFT_LIST_M` (R15). -/
def shiftListM : List Text :=
  [['s', 'l', 'l'],
   ['s', 'r', 'l'],
   ['s', 'r', 'a']]

/-- `MEM_LIST_M` (R15). -/
def memListM : List Text :=
  [['l', 'b'],
   ['l', 'h'],
   ['l', 'w'],
   ['l', 'b', 'u'],
   ['l', 'h', 'u'],
   ['s', 'b'],
   ['s', 'h'],
   ['s', 'w']]

/-- `OPC_S`, in table order (R16). -/
def opcS : Table :=
  [(['M', 'O', 'V'], 1),
   (['A', 'D', 'D'], 2),
   (['S', 'U', 'B'], 3),
   (['J', 'M', 'P'], 4),
   (['H', 'L', 'T'], 8)]

/-- `REG_S`, in table order (R17). -/
def regTableS : Table :=
  [(['R', '0'], 0),
   (['R', '1'], 1),
   (['R', '2'], 2),
   (['R', '3'], 3),
   (['R', '4'], 4),
   (['R', '5'], 5),
   (['R', '6'], 6),
   (['R', '7'], 7)]

/-- `JUMP_CODES_S` (R18). -/
def jumpCodesS : List Nat := [4]

/-- `HALT_OPCODE_S` (R18). -/
def haltOpcodeS : Nat := 8

/-- Layout `R` (R43). -/
def layoutR : Layout :=
  [⟨.opcode, 6, 26⟩, ⟨.rs, 5, 21⟩, ⟨.rt, 5, 16⟩, ⟨.rd, 5, 11⟩, ⟨.shamt, 5, 6⟩, ⟨.funct, 6, 0⟩]

/-- Layout `I` (R44). -/
def layoutI : Layout :=
  [⟨.opcode, 6, 26⟩, ⟨.rs, 5, 21⟩, ⟨.rt, 5, 16⟩, ⟨.imm, 16, 0⟩]

/-- Layout `J` (R45). -/
def layoutJ : Layout :=
  [⟨.opcode, 6, 26⟩, ⟨.target, 26, 0⟩]

/-- Layout `SW` of `S` (R47). -/
def layoutSW : Layout :=
  [⟨.pad, 14, 18⟩, ⟨.mode, 2, 16⟩, ⟨.dst, 4, 12⟩, ⟨.opcode, 4, 8⟩, ⟨.operand, 8, 0⟩]

/-- `CFG_M` with the given overflow policy (R4). -/
def configM (p : Overflow) : ConfigM where
  wordBits := 32
  hexDigits := 8
  opc := opcM
  fn := fnM
  reg := regTableM
  jumpCodes := jumpCodesM
  shiftList := shiftListM
  memList := memListM
  layoutR := layoutR
  layoutI := layoutI
  layoutJ := layoutJ
  overflow := p

/-- `CFG_S` with the given overflow policy (R4). -/
def configS (p : Overflow) : ConfigS where
  wordBits := 32
  hexDigits := 8
  opc := opcS
  fn := []
  reg := regTableS
  jumpCodes := jumpCodesS
  haltOpcode := haltOpcodeS
  layoutSW := layoutSW
  overflow := p

/-- Both default configurations under one overflow policy; `reject` is the default policy (R91). -/
def defaultConfig (p : Overflow) : Config where
  m := configM p
  s := configS p

/-! ## Symbol-table lookups (40_symbol_tables.md) -/

/-- The forward scan of rules R70 to R72: the value paired with the key equal to `k`, or the error `e`. -/
def lookup (e : ErrorKind) (k : Text) : Table → Except ErrorKind Nat
  | [] => .error e
  | (k', v) :: T => if k' = k then .ok v else lookup e k T

/-- The reverse scan of rules R73 to R75: the key of the first pair whose value equals `c`, or
`UnknownEncoding`. -/
def reverseLookup (c : Nat) : Table → Except ErrorKind Text
  | [] => .error .unknownEncoding
  | (k, v) :: T => if v = c then .ok k else reverseLookup c T

/-- R70, over the table `OPC` of a configuration. -/
def lookupOpcode (opc : Table) (m : Text) : Except ErrorKind Nat := lookup .unknownMnemonic m opc

/-- R71, over the table `FN`. -/
def lookupFunction (fn : Table) (m : Text) : Except ErrorKind Nat := lookup .unknownMnemonic m fn

/-- R72, over the table `REG`. -/
def lookupRegisterCode (reg : Table) (name : Text) : Except ErrorKind Nat :=
  lookup .unknownRegister name reg

/-- R73, over the table `OPC`. -/
def opcodeToMnemonic (opc : Table) (c : Nat) : Except ErrorKind Text := reverseLookup c opc

/-- R74, over the table `FN`. -/
def functionToMnemonic (fn : Table) (f : Nat) : Except ErrorKind Text := reverseLookup f fn

/-- R75, over the table `REG`. -/
def codeToRegisterName (reg : Table) (c : Nat) : Except ErrorKind Text := reverseLookup c reg

/-! ## Field codec (42_field_codec.md) -/

/-- `W[hi:lo]`, bits `hi` down to `lo` of `W` as an unsigned integer (R7). -/
def slice (W : Word) (hi lo : Nat) : Nat := (W >>> lo) % 2 ^ (hi + 1 - lo)

/-- R90: the OR of every field's value shifted left to the field's offset. -/
def pack : Layout → (FieldName → Nat) → Word
  | [], _ => 0
  | f :: fs, v => (v f.name <<< f.offset) ||| pack fs v

/-- R92: the field named `n` of the word `W`, by right shift and mask; 0 where the layout has no such
field, which no rule asks for. -/
def extract : Layout → FieldName → Word → Nat
  | [], _, _ => 0
  | f :: fs, n, W => if f.name = n then (W >>> f.offset) % 2 ^ f.width else extract fs n W

/-- R91: the overflow policy applied to the value `v` of a numeral and a field of `w` bits. -/
def fit (p : Overflow) (v : Int) (w : Nat) : Except ErrorKind Nat :=
  match p with
  | .reject => if v < 0 ∨ 2 ^ w ≤ v then .error .fieldOverflow else .ok v.toNat
  | .truncate => .ok (v % 2 ^ w).toNat

/-- The lower-case hexadecimal digit of `d < 16` (R93). -/
def hexDigit (d : Nat) : Char :=
  if d < 10 then Char.ofNat (48 + d) else Char.ofNat (87 + d)

/-- `n` hexadecimal digits of `v`, most significant first: character `i` is the digit of
`v[4(n-1-i)+3 : 4(n-1-i)]`. -/
def hexChars (n v : Nat) : Text :=
  (List.range n).map fun i => hexDigit (slice v (4 * (n - 1 - i) + 3) (4 * (n - 1 - i)))

/-- R93, R31: `render_hex` for a word of `HEX_DIGITS = digits` digits. -/
def renderHex (digits : Nat) (W : Word) : Text := hexChars digits W

/-- The value of a hexadecimal digit of either case, where the character is one (R94, R107). -/
def hexValue? (c : Char) : Option Nat :=
  let n := c.toNat
  if 48 ≤ n ∧ n ≤ 57 then some (n - 48)
  else if 97 ≤ n ∧ n ≤ 102 then some (n - 87)
  else if 65 ≤ n ∧ n ≤ 70 then some (n - 55)
  else none

/-- The value of a decimal digit, where the character is one (R107). -/
def decValue? (c : Char) : Option Nat :=
  let n := c.toNat
  if 48 ≤ n ∧ n ≤ 57 then some (n - 48) else none

/-- The loop of rules R94 and R107: digits are read most significant first onto the value `acc`; a
character that is not a digit is `MalformedInstruction`. -/
def readDigits (digit? : Char → Option Nat) (base acc : Nat) : Text → Except ErrorKind Nat
  | [] => .ok acc
  | c :: cs =>
    match digit? c with
    | none => .error .malformedInstruction
    | some d => readDigits digit? base (acc * base + d) cs

/-- R94: `parse_hex`; the length is tested first. -/
def parseHex (digits : Nat) (h : Text) : Except ErrorKind Word :=
  if h.length = digits then readDigits hexValue? 16 0 h else .error .malformedInstruction

/-! ## Decode side (41_classifier.md rules R82, R83; 42_field_codec.md rules R96, R98) -/

/-- R82. -/
def classifyDecodeM (c : ConfigM) (W : Word) : Except ErrorKind (Text × FormatM) :=
  if extract c.layoutR .opcode W = 0 then do
    let m ← functionToMnemonic c.fn (extract c.layoutR .funct W)
    .ok (m, if m ∈ c.shiftList then .rShift else .r3)
  else if extract c.layoutR .opcode W ∈ c.jumpCodes then do
    let m ← opcodeToMnemonic c.opc (extract c.layoutR .opcode W)
    .ok (m, .jType)
  else do
    let m ← opcodeToMnemonic c.opc (extract c.layoutR .opcode W)
    .ok (m, .iType)

/-- R96. The fields a format's text does not show are not looked at (30_encoding.md rule R54). -/
def decodeM (c : ConfigM) (W : Word) : Except ErrorKind AbstractInstr := do
  let mf ← classifyDecodeM c W
  match mf.2 with
  | .r3 => .ok (.r3 mf.1 (extract c.layoutR .rd W) (extract c.layoutR .rs W) (extract c.layoutR .rt W))
  | .rShift =>
    .ok (.rShift mf.1 (extract c.layoutR .rd W) (extract c.layoutR .rt W) (extract c.layoutR .shamt W))
  | .iType =>
    .ok (.iType mf.1 (extract c.layoutI .rt W) (extract c.layoutI .rs W) (extract c.layoutI .imm W))
  | .jType => .ok (.jType mf.1 (extract c.layoutJ .target W))

/-- The format the `mode` field selects (30_encoding.md rule R47); 3 has no entry (R83). -/
def modeFormat : Nat → Except ErrorKind FormatS
  | 0 => .ok .regReg
  | 1 => .ok .immReg
  | 2 => .ok .loadStore
  | _ => .error .unknownEncoding

/-- R83. -/
def classifyDecodeS (c : ConfigS) (W : Word) : Except ErrorKind (Text × FormatS) := do
  let m ← opcodeToMnemonic c.opc (extract c.layoutSW .opcode W)
  if extract c.layoutSW .opcode W = c.haltOpcode then .ok (m, .noOperand)
  else if extract c.layoutSW .opcode W ∈ c.jumpCodes then .ok (m, .singleTarget)
  else do
    let f ← modeFormat (extract c.layoutSW .mode W)
    .ok (m, f)

/-- R98. -/
def decodeS (c : ConfigS) (W : Word) : Except ErrorKind AbstractInstr := do
  let mf ← classifyDecodeS c W
  match mf.2 with
  | .noOperand => .ok (.noOperand mf.1)
  | .singleTarget => .ok (.singleTarget mf.1 (extract c.layoutSW .operand W))
  | .regReg => .ok (.regReg mf.1 (extract c.layoutSW .operand W) (extract c.layoutSW .dst W))
  | .immReg => .ok (.immReg mf.1 (extract c.layoutSW .operand W) (extract c.layoutSW .dst W))
  | .loadStore => .ok (.loadStore mf.1 (extract c.layoutSW .operand W) (extract c.layoutSW .dst W))

/-- `HEX_DIGITS` of an instruction set. -/
def Config.hexDigits (c : Config) : Isa → Nat
  | .m => c.m.hexDigits
  | .s => c.s.hexDigits

/-- The word-level decoder of either instruction set. Which one is not in the word: it is the request's
(30_encoding.md rule R56). -/
def decodeWord (c : Config) (isa : Isa) (W : Word) : Except ErrorKind AbstractInstr :=
  match isa with
  | .m => decodeM c.m W
  | .s => decodeS c.s W

/-- The decoder over the codec's only serial form of a word, its hex string (20_memory.md rules R31,
R32): total on every string, rejecting by error kind. -/
def decode (c : Config) (isa : Isa) (h : Text) : Except ErrorKind AbstractInstr := do
  let W ← parseHex (c.hexDigits isa) h
  decodeWord c isa W

/-! ## Rows of the opcode table -/

/-- The row whose mnemonic is `m`. -/
def findRow {α : Type} (m : Text) : List (Text × α) → Option α
  | [] => none
  | (k, a) :: rows => if k = m then some a else findRow m rows

/-- The rows of format `R3`. -/
def r3Rows : List (Text × (Nat → Nat → Nat → Instr)) :=
  [(['a', 'd', 'd'], .add),
   (['a', 'd', 'd', 'u'], .addu),
   (['s', 'u', 'b'], .sub),
   (['s', 'u', 'b', 'u'], .subu),
   (['a', 'n', 'd'], .and),
   (['o', 'r'], .or),
   (['x', 'o', 'r'], .xor),
   (['n', 'o', 'r'], .nor),
   (['s', 'l', 't'], .slt),
   (['s', 'l', 't', 'u'], .sltu)]

/-- The rows of format `RShift`. -/
def rShiftRows : List (Text × (Nat → Nat → Int → Instr)) :=
  [(['s', 'l', 'l'], .sll),
   (['s', 'r', 'l'], .srl),
   (['s', 'r', 'a'], .sra)]

/-- The rows of format `IType`. -/
def iTypeRows : List (Text × (Nat → Nat → Int → Instr)) :=
  [(['a', 'd', 'd', 'i'], .addi),
   (['a', 'd', 'd', 'i', 'u'], .addiu),
   (['s', 'l', 't', 'i'], .slti),
   (['s', 'l', 't', 'i', 'u'], .sltiu),
   (['a', 'n', 'd', 'i'], .andi),
   (['o', 'r', 'i'], .ori),
   (['x', 'o', 'r', 'i'], .xori),
   (['l', 'b'], .lb),
   (['l', 'h'], .lh),
   (['l', 'w'], .lw),
   (['l', 'b', 'u'], .lbu),
   (['l', 'h', 'u'], .lhu),
   (['s', 'b'], .sb),
   (['s', 'h'], .sh),
   (['s', 'w'], .sw)]

/-- The rows of format `JType`. -/
def jTypeRows : List (Text × (Int → Instr)) :=
  [(['j'], .j),
   (['j', 'a', 'l'], .jal)]

/-- The rows of format `NoOperand`. -/
def noOperandRows : List (Text × (Instr)) :=
  [(['H', 'L', 'T'], .hlt)]

/-- The rows of format `SingleTarget`. -/
def singleTargetRows : List (Text × (Int → Instr)) :=
  [(['J', 'M', 'P'], .jmp)]

/-- The rows of format `RegReg`. -/
def regRegRows : List (Text × (Nat → Nat → Instr)) :=
  [(['M', 'O', 'V'], .movRR),
   (['A', 'D', 'D'], .addRR),
   (['S', 'U', 'B'], .subRR)]

/-- The rows of format `ImmReg`. -/
def immRegRows : List (Text × (Int → Nat → Instr)) :=
  [(['M', 'O', 'V'], .movIR),
   (['A', 'D', 'D'], .addIR),
   (['S', 'U', 'B'], .subIR)]

/-- The rows of format `LoadStore`. -/
def loadStoreRows : List (Text × (Nat → Nat → Instr)) :=
  [(['M', 'O', 'V'], .movLS),
   (['A', 'D', 'D'], .addLS),
   (['S', 'U', 'B'], .subLS)]

/-- The row of the opcode table an abstract instruction is, where it is one: with replaced tables a
configuration may have mnemonics the opcode table does not list. -/
def AbstractInstr.toInstr : AbstractInstr → Option Instr
  | .r3 m rd rs rt => (findRow m r3Rows).map fun r => r rd rs rt
  | .rShift m rd rt sh => (findRow m rShiftRows).map fun r => r rd rt sh
  | .iType m rt rs imm => (findRow m iTypeRows).map fun r => r rt rs imm
  | .jType m tg => (findRow m jTypeRows).map fun r => r tg
  | .noOperand m => findRow m noOperandRows
  | .singleTarget m tg => (findRow m singleTargetRows).map fun r => r tg
  | .regReg m src dst => (findRow m regRegRows).map fun r => r src dst
  | .immReg m imm dst => (findRow m immRegRows).map fun r => r imm dst
  | .loadStore m base dst => (findRow m loadStoreRows).map fun r => r base dst

/-- The abstract instruction a row stands for: its mnemonic, its format, its operand values (R28). -/
def Instr.toAbstract : Instr → AbstractInstr
  | .add rd rs rt => .r3 ['a', 'd', 'd'] rd rs rt
  | .addu rd rs rt => .r3 ['a', 'd', 'd', 'u'] rd rs rt
  | .sub rd rs rt => .r3 ['s', 'u', 'b'] rd rs rt
  | .subu rd rs rt => .r3 ['s', 'u', 'b', 'u'] rd rs rt
  | .and rd rs rt => .r3 ['a', 'n', 'd'] rd rs rt
  | .or rd rs rt => .r3 ['o', 'r'] rd rs rt
  | .xor rd rs rt => .r3 ['x', 'o', 'r'] rd rs rt
  | .nor rd rs rt => .r3 ['n', 'o', 'r'] rd rs rt
  | .slt rd rs rt => .r3 ['s', 'l', 't'] rd rs rt
  | .sltu rd rs rt => .r3 ['s', 'l', 't', 'u'] rd rs rt
  | .sll rd rt shamt => .rShift ['s', 'l', 'l'] rd rt shamt
  | .srl rd rt shamt => .rShift ['s', 'r', 'l'] rd rt shamt
  | .sra rd rt shamt => .rShift ['s', 'r', 'a'] rd rt shamt
  | .addi rt rs imm => .iType ['a', 'd', 'd', 'i'] rt rs imm
  | .addiu rt rs imm => .iType ['a', 'd', 'd', 'i', 'u'] rt rs imm
  | .slti rt rs imm => .iType ['s', 'l', 't', 'i'] rt rs imm
  | .sltiu rt rs imm => .iType ['s', 'l', 't', 'i', 'u'] rt rs imm
  | .andi rt rs imm => .iType ['a', 'n', 'd', 'i'] rt rs imm
  | .ori rt rs imm => .iType ['o', 'r', 'i'] rt rs imm
  | .xori rt rs imm => .iType ['x', 'o', 'r', 'i'] rt rs imm
  | .lb rt rs imm => .iType ['l', 'b'] rt rs imm
  | .lh rt rs imm => .iType ['l', 'h'] rt rs imm
  | .lw rt rs imm => .iType ['l', 'w'] rt rs imm
  | .lbu rt rs imm => .iType ['l', 'b', 'u'] rt rs imm
  | .lhu rt rs imm => .iType ['l', 'h', 'u'] rt rs imm
  | .sb rt rs imm => .iType ['s', 'b'] rt rs imm
  | .sh rt rs imm => .iType ['s', 'h'] rt rs imm
  | .sw rt rs imm => .iType ['s', 'w'] rt rs imm
  | .j tg => .jType ['j'] tg
  | .jal tg => .jType ['j', 'a', 'l'] tg
  | .hlt => .noOperand ['H', 'L', 'T']
  | .jmp tg => .singleTarget ['J', 'M', 'P'] tg
  | .movRR src dst => .regReg ['M', 'O', 'V'] src dst
  | .movIR imm dst => .immReg ['M', 'O', 'V'] imm dst
  | .movLS base dst => .loadStore ['M', 'O', 'V'] base dst
  | .addRR src dst => .regReg ['A', 'D', 'D'] src dst
  | .addIR imm dst => .immReg ['A', 'D', 'D'] imm dst
  | .addLS base dst => .loadStore ['A', 'D', 'D'] base dst
  | .subRR src dst => .regReg ['S', 'U', 'B'] src dst
  | .subIR imm dst => .immReg ['S', 'U', 'B'] imm dst
  | .subLS base dst => .loadStore ['S', 'U', 'B'] base dst

/-! ## Encode side (42_field_codec.md rules R95, R97) -/

/-- The code of the `mode` field for each two-operand format (30_encoding.md rule R47). -/
def modeRegReg : Nat := 0
@[inherit_doc modeRegReg] def modeImmReg : Nat := 1
@[inherit_doc modeRegReg] def modeLoadStore : Nat := 2

/-- R95 and R97: the word of an abstract instruction. The opcode and function code are those the
classifier finds, by the same lookups; a numeric operand passes through `fit`. Fields the format does
not show are written 0 (30_encoding.md rules R46, R47, R54). -/
def encode (c : Config) : AbstractInstr → Except ErrorKind Word
  | .r3 m rd rs rt => do
    let fn ← lookupFunction c.m.fn m
    .ok (pack c.m.layoutR fun
      | .rs => rs | .rt => rt | .rd => rd | .funct => fn | _ => 0)
  | .rShift m rd rt sh => do
    let fn ← lookupFunction c.m.fn m
    let shamt ← fit c.m.overflow sh (c.m.layoutR.width .shamt)
    .ok (pack c.m.layoutR fun
      | .rt => rt | .rd => rd | .shamt => shamt | .funct => fn | _ => 0)
  | .iType m rt rs imm => do
    let op ← lookupOpcode c.m.opc m
    let v ← fit c.m.overflow imm (c.m.layoutI.width .imm)
    .ok (pack c.m.layoutI fun
      | .opcode => op | .rs => rs | .rt => rt | .imm => v | _ => 0)
  | .jType m tg => do
    let op ← lookupOpcode c.m.opc m
    let v ← fit c.m.overflow tg (c.m.layoutJ.width .target)
    .ok (pack c.m.layoutJ fun
      | .opcode => op | .target => v | _ => 0)
  | .noOperand m => do
    let op ← lookupOpcode c.s.opc m
    .ok (pack c.s.layoutSW fun
      | .opcode => op | _ => 0)
  | .singleTarget m tg => do
    let op ← lookupOpcode c.s.opc m
    let v ← fit c.s.overflow tg (c.s.layoutSW.width .operand)
    .ok (pack c.s.layoutSW fun
      | .opcode => op | .operand => v | _ => 0)
  | .regReg m src dst => do
    let op ← lookupOpcode c.s.opc m
    .ok (pack c.s.layoutSW fun
      | .mode => modeRegReg | .dst => dst | .opcode => op | .operand => src | _ => 0)
  | .immReg m imm dst => do
    let op ← lookupOpcode c.s.opc m
    let v ← fit c.s.overflow imm (c.s.layoutSW.width .operand)
    .ok (pack c.s.layoutSW fun
      | .mode => modeImmReg | .dst => dst | .opcode => op | .operand => v | _ => 0)
  | .loadStore m base dst => do
    let op ← lookupOpcode c.s.opc m
    .ok (pack c.s.layoutSW fun
      | .mode => modeLoadStore | .dst => dst | .opcode => op | .operand => base | _ => 0)

/-- The instruction set of an abstract instruction: its format's (30_encoding.md rule R41). -/
def AbstractInstr.isa : AbstractInstr → Isa
  | .r3 .. | .rShift .. | .iType .. | .jType .. => .m
  | .noOperand .. | .singleTarget .. | .regReg .. | .immReg .. | .loadStore .. => .s

/-! ## The host's question about a table row -/

/-- The instruction set a row's word is asked about. A word does not say which it belongs to (R56), so
this is a choice, made for the host's question only (DESIGN CHOICE, log entry 5): the rows whose fixed
bits end below bit 31 are those of `S`; of full-width words, one that is exactly what the encoder of
`S` writes is read as `S`; any other as `M` where `M` has an instruction for it, else as `S`. -/
def rowIsa (nbits w : Nat) : Isa :=
  if nbits < 32 then .s
  else
    match decodeWord (defaultConfig .reject) .s w with
    | .ok a =>
      if encode (defaultConfig .reject) a = .ok w then .s
      else
        match decodeWord (defaultConfig .reject) .m w with
        | .ok _ => .m
        | .error _ => .s
    | .error _ => .m

/-- The instruction the decoder reads from a row's word, given to it as the hex string of the word under
the default configuration. -/
def decodeTableWord (nbits w : Nat) : Option Instr :=
  match decode (defaultConfig .reject) (rowIsa nbits w) (renderHex 8 w) with
  | .ok a => a.toInstr
  | .error _ => none

end Sys2Proof
end

