-- ==== Sys2Proof/Machine/State.lean ====
section
/-!
DEFINITION. The state of the codec as its host sees it: the configuration object, which is the only
state the codec has (10_state.md rule R10), and the host's side of the interface (rule R27), the
requests it has yet to make and the exchanges it holds. Plain data throughout.
-/

namespace Sys2Proof.Machine

/-- A request (10_state.md rule R27). The instruction set is the request's (30_encoding.md rule R56). -/
inductive Request
  /-- `assemble(cfg, text)`. -/
  | assemble (isa : Isa) (text : Text)
  /-- `disassemble(cfg, hex_string)`. -/
  | disassemble (isa : Isa) (hex : Text)
deriving DecidableEq, Repr

/-- A response (R27): one string or one error kind, and nothing else (60_exceptions.md rules R190, R198). -/
inductive Response
  | ok (out : Text)
  | err (kind : ErrorKind)
deriving DecidableEq, Repr

/-- Nothing stops the codec: a failed request is answered with its error kind and the codec is ready for
the next (60_exceptions.md rules R198, R199; 70_reset_and_hazards.md rule R214). So no fault exists and
nobody raises one; this is safe and unsafe of nothing. -/
inductive Fault
deriving DecidableEq, Repr

/-- The refusals of the host's interface. -/
inductive Refusal
  /-- An instruction without a meaning, by the table's mnemonic. No arm of `exec` and no meaning raises
  it: every row of the opcode table is modelled. It would be safe. -/
  | notModelled (mnemonic : String)
deriving DecidableEq, Repr

/-- The whole state. No field is a function. -/
structure State where
  /-- The configuration object: symbol tables, classification constants, layouts, widths and overflow
  policy of both instruction sets (R4, R10, R11, R26). A ROM: nothing writes it. -/
  cfg : Config
  /-- The requests the host has yet to make, in order (R124; log entry 1). The codec has no queue. -/
  requests : List Request
  /-- What the host holds: each request served, with its response, oldest first (R124; log entry 1). -/
  exchanges : List (Request × Response)
deriving DecidableEq, Repr

/-- Reset (10_state.md rule R26, 70_reset_and_hazards.md rule R210): the tables hold their contents,
`OVERFLOW` is `reject`, no request is in progress and none has been served. -/
def State.reset : State where
  cfg := defaultConfig .reject
  requests := []
  exchanges := []

end Sys2Proof.Machine
end

