-- ==== Sys2Proof/Machine/Operands.lean ====
section
/-!
DEFINITION. The text side on the way in (43_facade_text.md rules R105 to R117): tokeniser, numerals,
every operand form of both instruction sets, operand counts, and the encode side of the classifier
(41_classifier.md rules R80, R81, R86), up to the abstract instruction.
-/

namespace Sys2Proof.Machine

/-! ## Characters and tokens -/

/-- R105: space, tab, line feed, vertical tab, form feed, carriage return. -/
def isSpace (c : Char) : Bool :=
  c.toNat == 32 || c.toNat == 9 || c.toNat == 10 || c.toNat == 11 || c.toNat == 12 || c.toNat == 13

/-- A finished run of non-whitespace characters is a token when it is not empty. -/
def flush (run : Text) : List Text := if run = [] then [] else [run]

/-- The maximal non-empty runs of non-whitespace characters, `run` being the run under way. -/
def splitRuns (run : Text) : Text → List Text
  | [] => flush run
  | c :: cs => if isSpace c then flush run ++ splitRuns [] cs else splitRuns (run ++ [c]) cs

/-- R106: every comma is deleted, then the text is split on whitespace. -/
def tokenize (text : Text) : List Text := splitRuns [] (text.filter fun c => decide (c ≠ ','))

/-! ## Numerals -/

/-- The unsigned part of R107: `0x` or `0X` and one or more hex digits, or one or more decimal digits. -/
def parseMagnitude : Text → Except ErrorKind Nat
  | [] => .error .malformedInstruction
  | '0' :: 'x' :: d => if d = [] then .error .malformedInstruction else readDigits hexValue? 16 0 d
  | '0' :: 'X' :: d => if d = [] then .error .malformedInstruction else readDigits hexValue? 16 0 d
  | u => readDigits decValue? 10 0 u

/-- R107: `parse_numeral`, an unbounded integer. -/
def parseNumeral : Text → Except ErrorKind Int
  | '-' :: u => do
    let v ← parseMagnitude u
    .ok (-(v : Int))
  | u => do
    let v ← parseMagnitude u
    .ok (v : Int)

/-! ## Operands of `M` -/

/-- R109: a register operand of `M`. -/
def parseRegM (c : ConfigM) (t : Text) : Except ErrorKind Nat :=
  match t with
  | '$' :: _ => lookupRegisterCode c.reg t
  | _ => .error .invalidOperandSyntax

/-- R110: the memory operand of `M`, giving offset and register. The numeral is what stands before the
first `(`, the register what stands between it and the final `)`. -/
def parseMemM (c : ConfigM) (t : Text) : Except ErrorKind (Int × Nat) :=
  if '(' ∈ t ∧ t.getLast? = some ')' then do
    let imm ← parseNumeral (t.takeWhile fun ch => decide (ch ≠ '('))
    let rs ← parseRegM c ((t.dropWhile fun ch => decide (ch ≠ '(')).tail.dropLast)
    .ok (imm, rs)
  else .error .invalidOperandSyntax

/-! ## Operands of `S` -/

/-- The shapes of R111. -/
inductive Shape
  | register
  | immediate
  | indirect
  | none
deriving DecidableEq, Repr

/-- R111: the shape is read off the first character alone. -/
def shape : Text → Shape
  | 'R' :: _ => .register
  | '#' :: _ => .immediate
  | '[' :: _ => .indirect
  | _ => .none

/-- R112: a register operand of `S`. -/
def parseRegS (c : ConfigS) (t : Text) : Except ErrorKind Nat :=
  match t with
  | 'R' :: _ => lookupRegisterCode c.reg t
  | _ => .error .invalidOperandSyntax

/-- R113: an immediate operand of `S`, the token without its `#`. -/
def parseImmS (t : Text) : Except ErrorKind Int := parseNumeral t.tail

/-- R114: an indirect operand of `S`, the register between the leading `[` and the final `]`. -/
def parseIndS (c : ConfigS) (t : Text) : Except ErrorKind Nat :=
  if t.getLast? = some ']' then parseRegS c t.tail.dropLast else .error .invalidOperandSyntax

/-! ## Classifier, encode side -/

/-- R115 for `M`: the number of operand tokens after the mnemonic. -/
def operandCountM (c : ConfigM) (fmt : FormatM) (m : Text) : Nat :=
  match fmt with
  | .r3 => 3
  | .rShift => 3
  | .iType => if m ∈ c.memList then 2 else 3
  | .jType => 1

/-- R80: the format of a mnemonic of `M`, before the operand count is checked. -/
def formatM (c : ConfigM) (m : Text) : Except ErrorKind FormatM := do
  let op ← lookupOpcode c.opc m
  if op = 0 then do
    let _ ← lookupFunction c.fn m
    .ok (if m ∈ c.shiftList then .rShift else .r3)
  else .ok (if op ∈ c.jumpCodes then .jType else .iType)

/-- R80: `classify_encode` for `M`. The operand tokens play no part but by their count. -/
def classifyEncodeM (c : ConfigM) (m : Text) (ops : List Text) : Except ErrorKind FormatM := do
  let fmt ← formatM c m
  if ops.length = operandCountM c fmt m then .ok fmt else .error .malformedInstruction

/-- The pairs of shapes of R81 that have a format. -/
def shapesFormat : Shape → Shape → Except ErrorKind FormatS
  | .register, .register => .ok .regReg
  | .immediate, .register => .ok .immReg
  | .indirect, .register => .ok .loadStore
  | _, _ => .error .invalidOperandSyntax

/-- R81: `classify_encode` for `S`: the opcode class, then the count, then the shapes. -/
def classifyEncodeS (c : ConfigS) (m : Text) (ops : List Text) : Except ErrorKind FormatS := do
  let op ← lookupOpcode c.opc m
  if op = c.haltOpcode then
    if ops.length = 0 then .ok .noOperand else .error .malformedInstruction
  else if op ∈ c.jumpCodes then
    if ops.length = 1 then .ok .singleTarget else .error .malformedInstruction
  else
    match ops with
    | [a, b] => shapesFormat (shape a) (shape b)
    | _ => .error .malformedInstruction

/-! ## From the text to the abstract instruction -/

/-- The operands of R116, parsed left to right, each completely before the next. The last arm is the
count check once more; the classifier has made it already. -/
def parseOperandsM (c : ConfigM) (m : Text) (fmt : FormatM) (ops : List Text) :
    Except ErrorKind AbstractInstr :=
  match fmt, ops with
  | .r3, [a, b, d] => do
    let rd ← parseRegM c a
    let rs ← parseRegM c b
    let rt ← parseRegM c d
    .ok (.r3 m rd rs rt)
  | .rShift, [a, b, d] => do
    let rd ← parseRegM c a
    let rt ← parseRegM c b
    let sh ← parseNumeral d
    .ok (.rShift m rd rt sh)
  | .iType, [a, b, d] => do
    let rt ← parseRegM c a
    let rs ← parseRegM c b
    let imm ← parseNumeral d
    .ok (.iType m rt rs imm)
  | .iType, [a, b] => do
    let rt ← parseRegM c a
    let p ← parseMemM c b
    .ok (.iType m rt p.2 p.1)
  | .jType, [a] => do
    let tg ← parseNumeral a
    .ok (.jType m tg)
  | _, _ => .error .malformedInstruction

/-- R116 up to the word: an assembly text of `M` as an abstract instruction. -/
def parseM (c : ConfigM) (text : Text) : Except ErrorKind AbstractInstr :=
  match tokenize text with
  | [] => .error .malformedInstruction
  | m :: ops => do
    let fmt ← classifyEncodeM c m ops
    parseOperandsM c m fmt ops

/-- The operands of R117, parsed left to right. The last arm is the count check once more. -/
def parseOperandsS (c : ConfigS) (m : Text) (fmt : FormatS) (ops : List Text) :
    Except ErrorKind AbstractInstr :=
  match fmt, ops with
  | .noOperand, [] => .ok (.noOperand m)
  | .singleTarget, [a] => do
    let tg ← parseNumeral a
    .ok (.singleTarget m tg)
  | .regReg, [a, b] => do
    let src ← parseRegS c a
    let dst ← parseRegS c b
    .ok (.regReg m src dst)
  | .immReg, [a, b] => do
    let imm ← parseImmS a
    let dst ← parseRegS c b
    .ok (.immReg m imm dst)
  | .loadStore, [a, b] => do
    let base ← parseIndS c a
    let dst ← parseRegS c b
    .ok (.loadStore m base dst)
  | _, _ => .error .malformedInstruction

/-- R117 up to the word: an assembly text of `S` as an abstract instruction. -/
def parseS (c : ConfigS) (text : Text) : Except ErrorKind AbstractInstr :=
  match tokenize text with
  | [] => .error .malformedInstruction
  | m :: ops => do
    let fmt ← classifyEncodeS c m ops
    parseOperandsS c m fmt ops

/-- The text side of `assemble` for either instruction set. -/
def parse (c : Config) (isa : Isa) (text : Text) : Except ErrorKind AbstractInstr :=
  match isa with
  | .m => parseM c.m text
  | .s => parseS c.s text

end Sys2Proof.Machine
end

