-- ==== Sys2Proof/Machine/Render.lean ====
section
/-!
DEFINITION. The text side on the way out (43_facade_text.md rules R108, R120, R121).
-/

namespace Sys2Proof.Machine

/-- The number of hexadecimal digits of `v` without leading zeros; one for 0. -/
def hexLength (v : Nat) : Nat := Nat.log2 v / 4 + 1

/-- R108: `render_numeral` for an unsigned integer. -/
def renderUnsigned (v : Nat) : Text := '0' :: 'x' :: hexChars (hexLength v) v

/-- R108, extended to every integer an instruction can carry: a negative one gets the minus sign that
R107 reads. No decoded value is negative, so no request reaches that arm (DESIGN CHOICE, log entry 3). -/
def renderNumeral (v : Int) : Text :=
  if v < 0 then '-' :: renderUnsigned v.natAbs else renderUnsigned v.natAbs

/-- Comma and one space between operands (R120). -/
def sep : Text := [',', ' ']

/-- R120 and R121: the output text. Register codes are looked up left to right in the order they appear
in the output; a code without a name is `UnknownEncoding`. -/
def renderText (c : Config) : AbstractInstr → Except ErrorKind Text
  | .r3 m rd rs rt => do
    let d ← codeToRegisterName c.m.reg rd
    let a ← codeToRegisterName c.m.reg rs
    let b ← codeToRegisterName c.m.reg rt
    .ok (m ++ [' '] ++ d ++ sep ++ a ++ sep ++ b)
  | .rShift m rd rt sh => do
    let d ← codeToRegisterName c.m.reg rd
    let a ← codeToRegisterName c.m.reg rt
    .ok (m ++ [' '] ++ d ++ sep ++ a ++ sep ++ renderNumeral sh)
  | .iType m rt rs imm => do
    let d ← codeToRegisterName c.m.reg rt
    let a ← codeToRegisterName c.m.reg rs
    if m ∈ c.m.memList then .ok (m ++ [' '] ++ d ++ sep ++ renderNumeral imm ++ ['('] ++ a ++ [')'])
    else .ok (m ++ [' '] ++ d ++ sep ++ a ++ sep ++ renderNumeral imm)
  | .jType m tg => .ok (m ++ [' '] ++ renderNumeral tg)
  | .noOperand m => .ok m
  | .singleTarget m tg => .ok (m ++ [' '] ++ renderNumeral tg)
  | .regReg m src dst => do
    let a ← codeToRegisterName c.s.reg src
    let d ← codeToRegisterName c.s.reg dst
    .ok (m ++ [' '] ++ a ++ sep ++ d)
  | .immReg m imm dst => do
    let d ← codeToRegisterName c.s.reg dst
    .ok (m ++ [' ', '#'] ++ renderNumeral imm ++ sep ++ d)
  | .loadStore m base dst => do
    let a ← codeToRegisterName c.s.reg base
    let d ← codeToRegisterName c.s.reg dst
    .ok (m ++ [' ', '['] ++ a ++ [']'] ++ sep ++ d)

end Sys2Proof.Machine
end

