-- ==== Sys2Proof/Machine/Ops.lean ====
section
/-!
DEFINITION. The named operations over the state: issuing a request, ending one with its response, taking
an error (the codec's only exception), and `translate`, the shared operation of every instruction's
meaning. Also the two operations of the interface as pure functions (43_facade_text.md rules R116 to
R119). There is no return from an error and nothing to restore (60_exceptions.md rule R199).
-/

namespace Sys2Proof.Machine

/-- The host adds a request after those it has yet to make (R124). -/
def State.issue (s : State) (r : Request) : State := { s with requests := s.requests ++ [r] }

/-- The request `r` ends with the response `a` (70_reset_and_hazards.md rule R214): it leaves the list of
requests and the host holds the exchange. Nothing else changes (10_state.md rule R10). -/
def State.answer (s : State) (r : Request) (a : Response) : State :=
  { s with requests := s.requests.tail, exchanges := s.exchanges ++ [(r, a)] }

/-- Taking an error (60_exceptions.md rule R198): the request ends, the response is `err(kind)` and
nothing else; no state is saved and none is changed. -/
def State.raise (s : State) (r : Request) (e : ErrorKind) : State := s.answer r (.err e)

/-- The response a translation that came to `res` is answered with: the string or the error kind. -/
def responseOf : Except ErrorKind Text → Response
  | .ok out => .ok out
  | .error e => .err e

/-- The end of a request whose translation came to `res`. -/
def State.finish (s : State) (r : Request) (res : Except ErrorKind Text) : State :=
  match res with
  | .ok out => s.answer r (.ok out)
  | .error e => s.raise r e

/-- The input side of a request, up to the abstract instruction: for `assemble` the text side of R116 and
R117, for `disassemble` the hexadecimal parse and the decoder of R118 and R119. -/
def parseRequest (c : Config) : Request → Except ErrorKind AbstractInstr
  | .assemble isa text => parse c isa text
  | .disassemble isa hex => decode c isa hex

/-- The output side of a request for the abstract instruction `a`: for `assemble` the word and its hex
string, for `disassemble` the text. -/
def outputOf (c : Config) (a : AbstractInstr) : Request → Except ErrorKind Text
  | .assemble _ _ => do
    let W ← encode c a
    .ok (renderHex (c.hexDigits a.isa) W)
  | .disassemble _ _ => renderText c a

/-- The response to a request is a function of the request and the configuration only (10_state.md rule
R27, 20_memory.md rule R36). -/
def respond (c : Config) (r : Request) : Response :=
  match parseRequest c r with
  | .error e => .err e
  | .ok a => responseOf (outputOf c a r)

/-- R116, R117: `assemble(cfg, text)`. -/
def assemble (c : Config) (isa : Isa) (text : Text) : Response := respond c (.assemble isa text)

/-- R118, R119: `disassemble(cfg, hex_string)`. -/
def disassemble (c : Config) (isa : Isa) (hex : Text) : Response := respond c (.disassemble isa hex)

/-- The shared operation of every meaning: the request in progress, the first of the host's list, has been
read as the abstract instruction `a`; it is translated in the request's direction and the request ends.
With no request in progress there is nothing to translate and nothing changes (log entry 2). -/
def translate (a : AbstractInstr) (s : State) : Host.Outcome State Fault Refusal :=
  match s.requests with
  | [] => .next s
  | r :: _ => .next (s.finish r (outputOf s.cfg a r))

end Sys2Proof.Machine
end

