-- ==== Sys2Proof/Machine/IType.lean ====
section
/-!
DEFINITION. The immediate-type instructions of `M` (45_mips_itype.md rules R150 to R164): each
is translated in the direction of the request in progress. The docstrings give the word and the text
under the default configuration.
-/

namespace Sys2Proof.Machine

/-- R150: word `(0x08 << 26) | (rs << 21) | (rt << 16) | fit(imm, 16)`; text `addi rt, rs, imm`. -/
def execAddi (rt rs : Nat) (imm : Int) (s : State) : Host.Outcome State Fault Refusal :=
  translate (.iType ['a', 'd', 'd', 'i'] rt rs imm) s

/-- R151: word `(0x09 << 26) | (rs << 21) | (rt << 16) | fit(imm, 16)`; text `addiu rt, rs, imm`. -/
def execAddiu (rt rs : Nat) (imm : Int) (s : State) : Host.Outcome State Fault Refusal :=
  translate (.iType ['a', 'd', 'd', 'i', 'u'] rt rs imm) s

/-- R152: word `(0x0a << 26) | (rs << 21) | (rt << 16) | fit(imm, 16)`; text `slti rt, rs, imm`. -/
def execSlti (rt rs : Nat) (imm : Int) (s : State) : Host.Outcome State Fault Refusal :=
  translate (.iType ['s', 'l', 't', 'i'] rt rs imm) s

/-- R153: word `(0x0b << 26) | (rs << 21) | (rt << 16) | fit(imm, 16)`; text `sltiu rt, rs, imm`. -/
def execSltiu (rt rs : Nat) (imm : Int) (s : State) : Host.Outcome State Fault Refusal :=
  translate (.iType ['s', 'l', 't', 'i', 'u'] rt rs imm) s

/-- R154: word `(0x0c << 26) | (rs << 21) | (rt << 16) | fit(imm, 16)`; text `andi rt, rs, imm`. -/
def execAndi (rt rs : Nat) (imm : Int) (s : State) : Host.Outcome State Fault Refusal :=
  translate (.iType ['a', 'n', 'd', 'i'] rt rs imm) s

/-- R155: word `(0x0d << 26) | (rs << 21) | (rt << 16) | fit(imm, 16)`; text `ori rt, rs, imm`. -/
def execOri (rt rs : Nat) (imm : Int) (s : State) : Host.Outcome State Fault Refusal :=
  translate (.iType ['o', 'r', 'i'] rt rs imm) s

/-- R156: word `(0x0e << 26) | (rs << 21) | (rt << 16) | fit(imm, 16)`; text `xori rt, rs, imm`. -/
def execXori (rt rs : Nat) (imm : Int) (s : State) : Host.Outcome State Fault Refusal :=
  translate (.iType ['x', 'o', 'r', 'i'] rt rs imm) s

/-- R157: word `(0x20 << 26) | (rs << 21) | (rt << 16) | fit(imm, 16)`; text `lb rt, imm(rs)`. -/
def execLb (rt rs : Nat) (imm : Int) (s : State) : Host.Outcome State Fault Refusal :=
  translate (.iType ['l', 'b'] rt rs imm) s

/-- R158: word `(0x21 << 26) | (rs << 21) | (rt << 16) | fit(imm, 16)`; text `lh rt, imm(rs)`. -/
def execLh (rt rs : Nat) (imm : Int) (s : State) : Host.Outcome State Fault Refusal :=
  translate (.iType ['l', 'h'] rt rs imm) s

/-- R159: word `(0x23 << 26) | (rs << 21) | (rt << 16) | fit(imm, 16)`; text `lw rt, imm(rs)`. -/
def execLw (rt rs : Nat) (imm : Int) (s : State) : Host.Outcome State Fault Refusal :=
  translate (.iType ['l', 'w'] rt rs imm) s

/-- R160: word `(0x24 << 26) | (rs << 21) | (rt << 16) | fit(imm, 16)`; text `lbu rt, imm(rs)`. -/
def execLbu (rt rs : Nat) (imm : Int) (s : State) : Host.Outcome State Fault Refusal :=
  translate (.iType ['l', 'b', 'u'] rt rs imm) s

/-- R161: word `(0x25 << 26) | (rs << 21) | (rt << 16) | fit(imm, 16)`; text `lhu rt, imm(rs)`. -/
def execLhu (rt rs : Nat) (imm : Int) (s : State) : Host.Outcome State Fault Refusal :=
  translate (.iType ['l', 'h', 'u'] rt rs imm) s

/-- R162: word `(0x28 << 26) | (rs << 21) | (rt << 16) | fit(imm, 16)`; text `sb rt, imm(rs)`. -/
def execSb (rt rs : Nat) (imm : Int) (s : State) : Host.Outcome State Fault Refusal :=
  translate (.iType ['s', 'b'] rt rs imm) s

/-- R163: word `(0x29 << 26) | (rs << 21) | (rt << 16) | fit(imm, 16)`; text `sh rt, imm(rs)`. -/
def execSh (rt rs : Nat) (imm : Int) (s : State) : Host.Outcome State Fault Refusal :=
  translate (.iType ['s', 'h'] rt rs imm) s

/-- R164: word `(0x2b << 26) | (rs << 21) | (rt << 16) | fit(imm, 16)`; text `sw rt, imm(rs)`. -/
def execSw (rt rs : Nat) (imm : Int) (s : State) : Host.Outcome State Fault Refusal :=
  translate (.iType ['s', 'w'] rt rs imm) s

end Sys2Proof.Machine
end

