-- ==== Sys2Proof/Machine/JType.lean ====
section
/-!
DEFINITION. The jump-type instructions of `M` (46_mips_jtype.md rules R170, R171): each
is translated in the direction of the request in progress. The docstrings give the word and the text
under the default configuration.
-/

namespace Sys2Proof.Machine

/-- R170: word `(0x02 << 26) | fit(target, 26)`; text `j target`. -/
def execJ (target : Int) (s : State) : Host.Outcome State Fault Refusal :=
  translate (.jType ['j'] target) s

/-- R171: word `(0x03 << 26) | fit(target, 26)`; text `jal target`. -/
def execJal (target : Int) (s : State) : Host.Outcome State Fault Refusal :=
  translate (.jType ['j', 'a', 'l'] target) s

end Sys2Proof.Machine
end

