-- ==== Sys2Proof/Machine/RType.lean ====
section
/-!
DEFINITION. The register-type instructions of `M` (44_mips_rtype.md rules R130 to R142): each
is translated in the direction of the request in progress. The docstrings give the word and the text
under the default configuration.
-/

namespace Sys2Proof.Machine

/-- R130: word `(rs << 21) | (rt << 16) | (rd << 11) | 0x20`; text `add rd, rs, rt`. -/
def execAdd (rd rs rt : Nat) (s : State) : Host.Outcome State Fault Refusal :=
  translate (.r3 ['a', 'd', 'd'] rd rs rt) s

/-- R131: word `(rs << 21) | (rt << 16) | (rd << 11) | 0x21`; text `addu rd, rs, rt`. -/
def execAddu (rd rs rt : Nat) (s : State) : Host.Outcome State Fault Refusal :=
  translate (.r3 ['a', 'd', 'd', 'u'] rd rs rt) s

/-- R132: word `(rs << 21) | (rt << 16) | (rd << 11) | 0x22`; text `sub rd, rs, rt`. -/
def execSub (rd rs rt : Nat) (s : State) : Host.Outcome State Fault Refusal :=
  translate (.r3 ['s', 'u', 'b'] rd rs rt) s

/-- R133: word `(rs << 21) | (rt << 16) | (rd << 11) | 0x23`; text `subu rd, rs, rt`. -/
def execSubu (rd rs rt : Nat) (s : State) : Host.Outcome State Fault Refusal :=
  translate (.r3 ['s', 'u', 'b', 'u'] rd rs rt) s

/-- R134: word `(rs << 21) | (rt << 16) | (rd << 11) | 0x24`; text `and rd, rs, rt`. -/
def execAnd (rd rs rt : Nat) (s : State) : Host.Outcome State Fault Refusal :=
  translate (.r3 ['a', 'n', 'd'] rd rs rt) s

/-- R135: word `(rs << 21) | (rt << 16) | (rd << 11) | 0x25`; text `or rd, rs, rt`. -/
def execOr (rd rs rt : Nat) (s : State) : Host.Outcome State Fault Refusal :=
  translate (.r3 ['o', 'r'] rd rs rt) s

/-- R136: word `(rs << 21) | (rt << 16) | (rd << 11) | 0x26`; text `xor rd, rs, rt`. -/
def execXor (rd rs rt : Nat) (s : State) : Host.Outcome State Fault Refusal :=
  translate (.r3 ['x', 'o', 'r'] rd rs rt) s

/-- R137: word `(rs << 21) | (rt << 16) | (rd << 11) | 0x27`; text `nor rd, rs, rt`. -/
def execNor (rd rs rt : Nat) (s : State) : Host.Outcome State Fault Refusal :=
  translate (.r3 ['n', 'o', 'r'] rd rs rt) s

/-- R138: word `(rs << 21) | (rt << 16) | (rd << 11) | 0x2a`; text `slt rd, rs, rt`. -/
def execSlt (rd rs rt : Nat) (s : State) : Host.Outcome State Fault Refusal :=
  translate (.r3 ['s', 'l', 't'] rd rs rt) s

/-- R139: word `(rs << 21) | (rt << 16) | (rd << 11) | 0x2b`; text `sltu rd, rs, rt`. -/
def execSltu (rd rs rt : Nat) (s : State) : Host.Outcome State Fault Refusal :=
  translate (.r3 ['s', 'l', 't', 'u'] rd rs rt) s

/-- R140: word `(rt << 16) | (rd << 11) | (fit(shamt, 5) << 6) | 0x00`; text `sll rd, rt, shamt`. -/
def execSll (rd rt : Nat) (shamt : Int) (s : State) : Host.Outcome State Fault Refusal :=
  translate (.rShift ['s', 'l', 'l'] rd rt shamt) s

/-- R141: word `(rt << 16) | (rd << 11) | (fit(shamt, 5) << 6) | 0x02`; text `srl rd, rt, shamt`. -/
def execSrl (rd rt : Nat) (shamt : Int) (s : State) : Host.Outcome State Fault Refusal :=
  translate (.rShift ['s', 'r', 'l'] rd rt shamt) s

/-- R142: word `(rt << 16) | (rd << 11) | (fit(shamt, 5) << 6) | 0x03`; text `sra rd, rt, shamt`. -/
def execSra (rd rt : Nat) (shamt : Int) (s : State) : Host.Outcome State Fault Refusal :=
  translate (.rShift ['s', 'r', 'a'] rd rt shamt) s

end Sys2Proof.Machine
end

