-- ==== Sys2Proof/Machine/Simple.lean ====
section
/-!
DEFINITION. The instructions of `S` (47_simple_isa.md rules R175 to R179): each
is translated in the direction of the request in progress. The docstrings give the word and the text
under the default configuration.
-/

namespace Sys2Proof.Machine

/-- R175: word `0x00000800`; text `HLT`. The codec does not stop (R214). -/
def execHlt (s : State) : Host.Outcome State Fault Refusal :=
  translate (.noOperand ['H', 'L', 'T']) s

/-- R176: word `(4 << 8) | fit(target, 8)`; text `JMP target`. -/
def execJmp (target : Int) (s : State) : Host.Outcome State Fault Refusal :=
  translate (.singleTarget ['J', 'M', 'P'] target) s

/-- R177: word `(dst << 12) | (1 << 8) | src`; text `MOV src, dst`. -/
def execMovRR (src dst : Nat) (s : State) : Host.Outcome State Fault Refusal :=
  translate (.regReg ['M', 'O', 'V'] src dst) s

/-- R177: word `(1 << 16) | (dst << 12) | (1 << 8) | fit(imm, 8)`; text `MOV #imm, dst`. -/
def execMovIR (imm : Int) (dst : Nat) (s : State) : Host.Outcome State Fault Refusal :=
  translate (.immReg ['M', 'O', 'V'] imm dst) s

/-- R177: word `(2 << 16) | (dst << 12) | (1 << 8) | base`; text `MOV [base], dst`. -/
def execMovLS (base dst : Nat) (s : State) : Host.Outcome State Fault Refusal :=
  translate (.loadStore ['M', 'O', 'V'] base dst) s

/-- R178: word `(dst << 12) | (2 << 8) | src`; text `ADD src, dst`. -/
def execAddRR (src dst : Nat) (s : State) : Host.Outcome State Fault Refusal :=
  translate (.regReg ['A', 'D', 'D'] src dst) s

/-- R178: word `(1 << 16) | (dst << 12) | (2 << 8) | fit(imm, 8)`; text `ADD #imm, dst`. -/
def execAddIR (imm : Int) (dst : Nat) (s : State) : Host.Outcome State Fault Refusal :=
  translate (.immReg ['A', 'D', 'D'] imm dst) s

/-- R178: word `(2 << 16) | (dst << 12) | (2 << 8) | base`; text `ADD [base], dst`. -/
def execAddLS (base dst : Nat) (s : State) : Host.Outcome State Fault Refusal :=
  translate (.loadStore ['A', 'D', 'D'] base dst) s

/-- R179: word `(dst << 12) | (3 << 8) | src`; text `SUB src, dst`. -/
def execSubRR (src dst : Nat) (s : State) : Host.Outcome State Fault Refusal :=
  translate (.regReg ['S', 'U', 'B'] src dst) s

/-- R179: word `(1 << 16) | (dst << 12) | (3 << 8) | fit(imm, 8)`; text `SUB #imm, dst`. -/
def execSubIR (imm : Int) (dst : Nat) (s : State) : Host.Outcome State Fault Refusal :=
  translate (.immReg ['S', 'U', 'B'] imm dst) s

/-- R179: word `(2 << 16) | (dst << 12) | (3 << 8) | base`; text `SUB [base], dst`. -/
def execSubLS (base dst : Nat) (s : State) : Host.Outcome State Fault Refusal :=
  translate (.loadStore ['S', 'U', 'B'] base dst) s

end Sys2Proof.Machine
end

