-- ==== Sys2Proof/Machine/Step.lean ====
section
/-!
DEFINITION. One step of the codec: it serves one request (00_scope.md rule R3).
-/

namespace Sys2Proof.Machine

/-- Serve the first of the host's requests. An error on the input side ends it (60_exceptions.md rules
R197, R198); otherwise the instruction it names is executed, that is, translated. A mnemonic that only a
replaced table has is translated like any other row of its format (R201). With no request the codec
stays as it is, ready for any next one (70_reset_and_hazards.md rule R214; log entry 2). -/
def step (s : State) : Host.Outcome State Fault Refusal :=
  match s.requests with
  | [] => .next s
  | r :: _ =>
    match parseRequest s.cfg r with
    | .error e => .next (s.raise r e)
    | .ok a =>
      match a.toInstr with
      | some i => exec i s
      | none => translate a s

/-- The host's next request is to disassemble the hex string of the table row's word `w`, in the
instruction set `rowIsa` chooses for it (log entries 5, 14). -/
def State.withFetchWord (s : State) (nbits w : Nat) : State :=
  { s with
    requests := .disassemble (rowIsa nbits w) (renderHex (s.cfg.hexDigits (rowIsa nbits w)) w) :: s.requests }

end Sys2Proof.Machine
end

