-- ==== Sys2Proof/Machine/Flags.lean ====
section
/-!
DEFINITION. The codec has no flags and no condition codes (10_state.md rule R22). What stands here is
the one classification a response carries, the numeric code of its error kind, and the rules saying
which operation may raise which kind (60_exceptions.md rule R190).
-/

namespace Sys2Proof.Machine

/-- The numeric code of an error kind (R190). -/
def errorCode : ErrorKind → Nat
  | .unknownMnemonic => 1
  | .unknownRegister => 2
  | .unknownEncoding => 3
  | .invalidOperandSyntax => 4
  | .malformedInstruction => 5
  | .fieldOverflow => 6

/-- The column "raised by" of R190. -/
def mayRaise : Request → ErrorKind → Bool
  | .assemble _ _, e => decide (e ≠ .unknownEncoding)
  | .disassemble _ _, e => decide (e = .unknownEncoding) || decide (e = .malformedInstruction)

end Sys2Proof.Machine
end

