-- ==== Sys2Proof/Safety.lean ====
section
/-!
DEFINITION. The terms the claims are stated in: what a served request leaves behind, what a consistent
state is, the textual grammar of digits and numerals, register names and operand faults under the
default tables, and the fields and operands of an abstract instruction. Each is written from the rule it
cites and not from the function of the model it is compared with.
-/

namespace Sys2Proof

/-- The overflow policy of an instruction set. -/
def Config.overflow (c : Config) : Isa → Overflow
  | .m => c.m.overflow
  | .s => c.s.overflow

/-- The word width of an instruction set. -/
def Config.wordBits (c : Config) : Isa → Nat
  | .m => c.m.wordBits
  | .s => c.s.wordBits

end Sys2Proof

namespace Sys2Proof.Machine

/-! ## What a request leaves behind -/

/-- `s` once its first request `r` is answered with `a`, `rest` being the requests after it: nothing but
the two lists of the host has changed (10_state.md rule R10, 60_exceptions.md rule R198). -/
def State.after (s : State) (r : Request) (rest : List Request) (a : Response) : State where
  cfg := s.cfg
  requests := rest
  exchanges := s.exchanges ++ [(r, a)]

/-- The step at `s` answers `r` with `a` and does nothing else. -/
def Answers (s : State) (r : Request) (rest : List Request) (a : Response) : Prop :=
  step s = .next (s.after r rest a)

/-- The invariant of every run: the configuration is well formed (10_state.md rule R19) and every response
the host holds is what the codec answers to that request at any time (20_memory.md rule R36). -/
def State.Consistent (s : State) : Prop :=
  s.cfg.WellFormed ∧ ∀ p ∈ s.exchanges, p.2 = respond s.cfg p.1

/-- A lower-case hexadecimal digit (42_field_codec.md rule R93). -/
def lowerHex : Text :=
  ['0', '1', '2', '3', '4', '5', '6', '7', '8', '9', 'a', 'b', 'c', 'd', 'e', 'f']

/-- The upper-case spelling of the same digits. -/
def upperHex : Text :=
  ['0', '1', '2', '3', '4', '5', '6', '7', '8', '9', 'A', 'B', 'C', 'D', 'E', 'F']

/-- What the host may hold as the response to `r`: an error of a kind that operation raises
(60_exceptions.md rule R190) or, for `assemble`, a string of exactly `HEX_DIGITS` lower-case hex digits
(42_field_codec.md rule R93). -/
def wellAnswered (c : Config) : Request → Response → Bool
  | r, .err e => mayRaise r e
  | .assemble isa _, .ok h => decide (h.length = c.hexDigits isa) && h.all fun d => decide (d ∈ lowerHex)
  | .disassemble _ _, .ok _ => true

/-! ## Digits and numerals -/

/-- `c` is the hexadecimal digit of value `d`, in either case (42_field_codec.md rule R94). -/
def IsHexDigit (c : Char) (d : Nat) : Prop := lowerHex[d]? = some c ∨ upperHex[d]? = some c

/-- `c` is the lower-case hexadecimal digit of value `d` (42_field_codec.md rule R93). -/
def IsLowerHexDigit (c : Char) (d : Nat) : Prop := lowerHex[d]? = some c

/-- `c` is the decimal digit of value `d` (43_facade_text.md rule R107). -/
def IsDecDigit (c : Char) (d : Nat) : Prop := d < 10 ∧ lowerHex[d]? = some c

/-- The characters are digits, most significant first, and `v` is their value in base `b`. -/
def Spells (digit : Char → Nat → Prop) (b : Nat) : Text → Nat → Prop
  | [], v => v = 0
  | c :: cs, v => ∃ d r, digit c d ∧ Spells digit b cs r ∧ v = d * b ^ cs.length + r

/-- The part of a numeral after its sign: `0x` or `0X` and hex digits, or decimal digits, at least one. -/
def Unsigned (u : Text) (v : Nat) : Prop :=
  (∃ x ds, (x = 'x' ∨ x = 'X') ∧ u = '0' :: x :: ds ∧ ds ≠ [] ∧ Spells IsHexDigit 16 ds v) ∨
  (u ≠ [] ∧ Spells IsDecDigit 10 u v)

/-- The numeral `t` denotes `v` (43_facade_text.md rule R107). -/
def Numeral (t : Text) (v : Int) : Prop :=
  (∃ u n, t = '-' :: u ∧ Unsigned u n ∧ v = -(n : Int)) ∨ (∃ n, Unsigned t n ∧ v = (n : Int))

/-! ## Operands under the default tables -/

/-- The name of a register code of `M`: `REG_M` is in the order of the codes (10_state.md rule R14). -/
def nameM (c : Nat) : Text := regTableM.keys.getD c []

/-- The name of a register code of `S` (R17). -/
def nameS (c : Nat) : Text := regTableS.keys.getD c []

/-- The fault of a token in a register position of `M`, if it has one (43_facade_text.md rule R109). -/
def regFaultM (t : Text) : Option ErrorKind :=
  if t.head? ≠ some '$' then some .invalidOperandSyntax
  else if t ∈ regTableM.keys then none
  else some .unknownRegister

/-- The fault of a string in a register position of `S`, if it has one (R112). -/
def regFaultS (t : Text) : Option ErrorKind :=
  if t.head? ≠ some 'R' then some .invalidOperandSyntax
  else if t ∈ regTableS.keys then none
  else some .unknownRegister

/-- The fault of a token in a numeric position, if it has one (R107). -/
def numeralFault (t : Text) : Option ErrorKind :=
  match parseNumeral t with
  | .ok _ => none
  | .error e => some e

/-- The first fault found, from left to right (60_exceptions.md rule R197). -/
def firstFault : List (Option ErrorKind) → Option ErrorKind
  | [] => none
  | some e :: _ => some e
  | none :: fs => firstFault fs

/-! ## Parts of an abstract instruction -/

/-- The layout of an instruction's format (30_encoding.md rules R43 to R45, R47). -/
def layoutOf (c : Config) : AbstractInstr → Layout
  | .r3 .. | .rShift .. => c.m.layoutR
  | .iType .. => c.m.layoutI
  | .jType .. => c.m.layoutJ
  | .noOperand .. | .singleTarget .. | .regReg .. | .immReg .. | .loadStore .. => c.s.layoutSW

/-- The don't-care fields of an instruction's format (30_encoding.md rule R54). -/
def dontCare : AbstractInstr → List FieldName
  | .r3 .. => [.shamt]
  | .rShift .. => [.rs]
  | .iType .. | .jType .. => []
  | .noOperand .. => [.pad, .mode, .dst, .operand]
  | .singleTarget .. => [.pad, .mode, .dst]
  | .regReg .. | .immReg .. | .loadStore .. => [.pad]

/-- `W` with the don't-care fields of the format of `a` cleared (42_field_codec.md rule R100 point 3). -/
def clearDontCare (c : Config) (a : AbstractInstr) (W : Word) : Word :=
  pack (layoutOf c a) fun n => if n ∈ dontCare a then 0 else extract (layoutOf c a) n W

/-- The numeric operand of an instruction and the field it is fitted to (42_field_codec.md rule R91). -/
def numericOperand : AbstractInstr → Option (Int × FieldName)
  | .rShift _ _ _ sh => some (sh, .shamt)
  | .iType _ _ _ imm => some (imm, .imm)
  | .jType _ tg => some (tg, .target)
  | .singleTarget _ tg => some (tg, .operand)
  | .immReg _ imm _ => some (imm, .operand)
  | .r3 .. | .noOperand .. | .regReg .. | .loadStore .. => none

/-- The register operands of an instruction and the fields they go to (30_encoding.md rules R46, R47). -/
def registerOperands : AbstractInstr → List (Nat × FieldName)
  | .r3 _ rd rs rt => [(rd, .rd), (rs, .rs), (rt, .rt)]
  | .rShift _ rd rt _ => [(rd, .rd), (rt, .rt)]
  | .iType _ rt rs _ => [(rt, .rt), (rs, .rs)]
  | .jType .. | .noOperand .. | .singleTarget .. => []
  | .regReg _ src dst => [(src, .operand), (dst, .dst)]
  | .immReg _ _ dst => [(dst, .dst)]
  | .loadStore _ base dst => [(base, .operand), (dst, .dst)]

/-- The mnemonic of `a` has the format of `a` in the configuration (41_classifier.md rules R80, R81). -/
def FormatMatches (c : Config) : AbstractInstr → Prop
  | .r3 m .. => m ∈ c.m.fn.keys ∧ m ∉ c.m.shiftList
  | .rShift m .. => m ∈ c.m.fn.keys ∧ m ∈ c.m.shiftList
  | .iType m .. => ∃ op, (m, op) ∈ c.m.opc ∧ op ≠ 0 ∧ op ∉ c.m.jumpCodes
  | .jType m .. => ∃ op, (m, op) ∈ c.m.opc ∧ op ∈ c.m.jumpCodes
  | .noOperand m => (m, c.s.haltOpcode) ∈ c.s.opc
  | .singleTarget m .. => ∃ op, (m, op) ∈ c.s.opc ∧ op ∈ c.s.jumpCodes
  | .regReg m .. | .immReg m .. | .loadStore m .. =>
    ∃ op, (m, op) ∈ c.s.opc ∧ op ≠ c.s.haltOpcode ∧ op ∉ c.s.jumpCodes

/-- An abstract instruction the configuration can hold: its mnemonic has its format and every operand value
fits the field it goes to. -/
def Admissible (c : Config) (a : AbstractInstr) : Prop :=
  FormatMatches c a ∧
  (∀ p ∈ registerOperands a, p.1 < 2 ^ (layoutOf c a).width p.2) ∧
  (∀ p ∈ numericOperand a, 0 ≤ p.1 ∧ p.1 < 2 ^ (layoutOf c a).width p.2)

end Sys2Proof.Machine
end

