-- ==== Sys2Proof/Certificates/Slice0/Obligations.lean ====
section
/-!
DEFINITION. The statements for the provers. Each docstring names the rules of spec/ it formalises; where a
clause is the model's own choice it names the log entry.
-/

open Sys2Proof
open Sys2Proof.Machine

/-! ## Reset, steps and requests -/

/-- R12 to R18, R43 to R45, R47, R26: after reset every table, list and layout holds the contents of the
rules and the policy is `reject`. -/
def Obligations.ResetContents : Prop :=
  State.reset.cfg.m.opc =
    (["add", "addu", "sub", "subu", "and", "or", "xor", "nor", "slt", "sltu", "sll", "srl",
      "sra"].map fun k => (k.toList, 0)) ++
    [("addi".toList, 0x08), ("addiu".toList, 0x09), ("slti".toList, 0x0a), ("sltiu".toList, 0x0b),
     ("andi".toList, 0x0c), ("ori".toList, 0x0d), ("xori".toList, 0x0e), ("lb".toList, 0x20),
     ("lh".toList, 0x21), ("lw".toList, 0x23), ("lbu".toList, 0x24), ("lhu".toList, 0x25),
     ("sb".toList, 0x28), ("sh".toList, 0x29), ("sw".toList, 0x2b), ("j".toList, 0x02),
     ("jal".toList, 0x03)] ∧
  State.reset.cfg.m.fn =
    [("add".toList, 0x20), ("addu".toList, 0x21), ("sub".toList, 0x22), ("subu".toList, 0x23),
     ("and".toList, 0x24), ("or".toList, 0x25), ("xor".toList, 0x26), ("nor".toList, 0x27),
     ("slt".toList, 0x2a), ("sltu".toList, 0x2b), ("sll".toList, 0x00), ("srl".toList, 0x02),
     ("sra".toList, 0x03)] ∧
  State.reset.cfg.m.reg =
    (["$zero", "$at", "$v0", "$v1", "$a0", "$a1", "$a2", "$a3", "$t0", "$t1", "$t2", "$t3", "$t4",
      "$t5", "$t6", "$t7", "$s0", "$s1", "$s2", "$s3", "$s4", "$s5", "$s6", "$s7", "$t8", "$t9",
      "$k0", "$k1", "$gp", "$sp", "$fp", "$ra"].map String.toList).zip (List.range 32) ∧
  State.reset.cfg.m.jumpCodes = [0x02, 0x03] ∧
  State.reset.cfg.m.shiftList = ["sll", "srl", "sra"].map String.toList ∧
  State.reset.cfg.m.memList = ["lb", "lh", "lw", "lbu", "lhu", "sb", "sh", "sw"].map String.toList ∧
  State.reset.cfg.m.layoutR =
    [⟨.opcode, 6, 26⟩, ⟨.rs, 5, 21⟩, ⟨.rt, 5, 16⟩, ⟨.rd, 5, 11⟩, ⟨.shamt, 5, 6⟩, ⟨.funct, 6, 0⟩] ∧
  State.reset.cfg.m.layoutI = [⟨.opcode, 6, 26⟩, ⟨.rs, 5, 21⟩, ⟨.rt, 5, 16⟩, ⟨.imm, 16, 0⟩] ∧
  State.reset.cfg.m.layoutJ = [⟨.opcode, 6, 26⟩, ⟨.target, 26, 0⟩] ∧
  State.reset.cfg.m.wordBits = 32 ∧ State.reset.cfg.m.hexDigits = 8 ∧
  State.reset.cfg.m.overflow = .reject ∧
  State.reset.cfg.s.opc =
    [("MOV".toList, 1), ("ADD".toList, 2), ("SUB".toList, 3), ("JMP".toList, 4), ("HLT".toList, 8)] ∧
  State.reset.cfg.s.reg =
    (["R0", "R1", "R2", "R3", "R4", "R5", "R6", "R7"].map String.toList).zip (List.range 8) ∧
  State.reset.cfg.s.fn = [] ∧ State.reset.cfg.s.jumpCodes = [4] ∧ State.reset.cfg.s.haltOpcode = 8 ∧
  State.reset.cfg.s.layoutSW =
    [⟨.pad, 14, 18⟩, ⟨.mode, 2, 16⟩, ⟨.dst, 4, 12⟩, ⟨.opcode, 4, 8⟩, ⟨.operand, 8, 0⟩] ∧
  State.reset.cfg.s.wordBits = 32 ∧ State.reset.cfg.s.hexDigits = 8 ∧
  State.reset.cfg.s.overflow = .reject

/-- The invariant holds at reset: "every table is complete and well formed" (R210), with the layout
conditions of log entry 4; and no request is in progress and no exchange is held, the model's reset value
of its own two fields (log entry 1). -/
def Obligations.ResetConsistent : Prop :=
  State.reset.Consistent ∧ State.reset.requests = [] ∧ State.reset.exchanges = []

/-- The invariant: a step from any consistent state gives a consistent state. -/
def Obligations.StepKeepsConsistent : Prop :=
  ∀ s s' : State, s.Consistent → step s = .next s' → s'.Consistent

/-- R190 with R93, as an invariant of every step: what the host holds is an error of a kind its operation
raises or, for `assemble`, exactly `HEX_DIGITS` lower-case hex digits. -/
def Obligations.StepKeepsWellAnswered : Prop :=
  ∀ s s' : State, (∀ p ∈ s.exchanges, wellAnswered s.cfg p.1 p.2 = true) → step s = .next s' →
    ∀ p ∈ s'.exchanges, wellAnswered s'.cfg p.1 p.2 = true

/-- R10: no step and no instruction writes a table, a constant, a layout or the policy, of either
instruction set. -/
def Obligations.TablesAreReadOnly : Prop :=
  (∀ s s' : State, step s = .next s' → s'.cfg = s.cfg) ∧
  ∀ (i : Instr) (s s' : State), exec i s = .next s' → s'.cfg = s.cfg

/-- R27, R34: a step with a request in progress ends that request with its one response, the value of a
function of the request and the configuration, and does nothing else. -/
def Obligations.StepAnswersRequest : Prop :=
  ∀ (s : State) (r : Request) (rest : List Request), s.requests = r :: rest →
    step s = .next (s.after r rest (respond s.cfg r))

/-- R36: serving all the requests gives each the response it would have alone, whatever came before it,
failed or not; and from two states that hold no exchange the order of the requests does not matter. Requests
are served whole, one after the other (the model's choice, log entry 1), so of R36's interleavings the
statement shows the reorderings. -/
def Obligations.RequestsAreIndependent : Prop :=
  (∀ s : State, Host.Core.run core s.requests.length s = .next
    { cfg := s.cfg, requests := [],
      exchanges := s.exchanges ++ s.requests.map fun r => (r, respond s.cfg r) }) ∧
  ∀ s t : State, s.cfg = t.cfg → s.exchanges = [] → t.exchanges = [] → s.requests.Perm t.requests →
    ∃ s' t' : State, Host.Core.run core s.requests.length s = .next s' ∧
      Host.Core.run core t.requests.length t = .next t' ∧ s'.exchanges.Perm t'.exchanges

/-- R36 points 1 and 2: neither the exchanges held nor the requests yet to come have any influence on the
response to the request in progress, and a request may be issued before or after a step alike. -/
def Obligations.HistoryDoesNotInterfere : Prop :=
  (∀ (s t : State) (r : Request) (u v : List Request), s.cfg = t.cfg → s.requests = r :: u →
    t.requests = r :: v → ∃ a, step s = .next (s.after r u a) ∧ step t = .next (t.after r v a)) ∧
  ∀ (s s' : State) (r : Request), s.requests ≠ [] → step s = .next s' →
    step (s.issue r) = .next (s'.issue r)

/-- R198, R199, R214: the codec always goes on. A failed request ends with its error kind and nothing else,
and the step after it is the one that would have followed a success. -/
def Obligations.ErrorsStopNothing : Prop :=
  (∀ s : State, ∃ s', step s = .next s') ∧
  (∀ (i : Instr) (s : State), ∃ s', exec i s = .next s') ∧
  ∀ (s s' : State) (r : Request) (rest : List Request) (e : ErrorKind), s.requests = r :: rest →
    respond s.cfg r = .err e → step s = .next s' →
    s' = { cfg := s.cfg, requests := rest, exchanges := s.exchanges ++ [(r, .err e)] } ∧
    ∀ (q : Request) (rest' : List Request), rest = q :: rest' →
      ∃ a, step s' = .next (s'.after q rest' a) ∧
        step { s with requests := rest } = .next ({ s with requests := rest }.after q rest' a)

/-- A step, or an instruction, with no request leaves the state as it is: the model's choice, log entry 2. -/
def Obligations.IdleStepChangesNothing : Prop :=
  ∀ s : State, s.requests = [] → step s = .next s ∧ ∀ i : Instr, exec i s = .next s

/-- A step runs the decoded instruction: when the request in progress reads as the instruction `i`, the step
is `exec i`; a word placed by `withFetchWord` is the request in progress of the next step (the model's
choice, log entries 5 and 14); and a mnemonic that is no row of the opcode table is translated like any other
of its format (R201). -/
def Obligations.StepRunsDecodedInstruction : Prop :=
  (∀ (s : State) (r : Request) (rest : List Request) (a : AbstractInstr) (i : Instr),
    s.requests = r :: rest → parseRequest s.cfg r = .ok a → a.toInstr = some i → step s = exec i s) ∧
  (∀ (s : State) (isa : Isa) (hex : Text) (rest : List Request) (a : AbstractInstr) (i : Instr),
    s.requests = .disassemble isa hex :: rest → decode s.cfg isa hex = .ok a → a.toInstr = some i →
    step s = exec i s) ∧
  (∀ (s : State) (nbits w : Nat) (i : Instr), s.cfg = defaultConfig .reject →
    decodeTableWord nbits w = some i →
    step (s.withFetchWord nbits w) = exec i (s.withFetchWord nbits w)) ∧
  ∀ (s : State) (r : Request) (rest : List Request) (a : AbstractInstr), s.requests = r :: rest →
    parseRequest s.cfg r = .ok a → a.toInstr = none →
    step s = .next (s.after r rest (responseOf (outputOf s.cfg a r)))

/-! ## Encoding and decoding agree -/

/-- R95 to R98 with R54: decoding the hex string of an encoded well-formed instruction gives the
instruction back, for every instruction, every operand its fields admit and both policies. -/
def Obligations.DecodeEncodeEveryInstr : Prop :=
  ∀ (p : Overflow) (i : Instr), i.wellFormed = true →
    ∃ W, encode (defaultConfig p) i.toAbstract = .ok W ∧ W < 2 ^ 32 ∧
      decode (defaultConfig p) i.toAbstract.isa (renderHex 8 W) = .ok i.toAbstract ∧
      i.toAbstract.toInstr = some i

/-- The same over any well-formed configuration (R5): decoding inverts encoding on every instruction whose
mnemonic has its format and whose operands fit their fields. -/
def Obligations.DecodeEncodeAnyConfig : Prop :=
  ∀ (c : Config) (a : AbstractInstr), c.WellFormed → Admissible c a →
    ∃ W, encode c a = .ok W ∧ W < 2 ^ c.wordBits a.isa ∧ decodeWord c a.isa W = .ok a

/-- The other direction over any well-formed configuration: encoding what a word decodes to gives the word
with its don't-care fields cleared (R54; R100 law 3, a law the spec derives). -/
def Obligations.EncodeDecodeClearsDontCare : Prop :=
  ∀ (c : Config) (isa : Isa) (W : Word) (a : AbstractInstr), c.WellFormed →
    decodeWord c isa W = .ok a → a.isa = isa ∧ encode c a = .ok (clearDontCare c a W)

/-- R54: what `assemble` answers has its don't-care fields 0, and two words that differ in don't-care fields
only disassemble alike. -/
def Obligations.DontCareFieldsIgnored : Prop :=
  (∀ (c : Config) (isa : Isa) (text h : Text), c.WellFormed → assemble c isa text = .ok h →
    ∃ W a, parseHex (c.hexDigits isa) h = .ok W ∧ decodeWord c isa W = .ok a ∧
      clearDontCare c a W = W) ∧
  ∀ (c : Config) (isa : Isa) (W W' : Word) (a : AbstractInstr), c.WellFormed →
    W < 2 ^ c.wordBits isa → W' < 2 ^ c.wordBits isa → decodeWord c isa W = .ok a →
    clearDontCare c a W' = clearDontCare c a W →
    disassemble c isa (renderHex (c.hexDigits isa) W') = disassemble c isa (renderHex (c.hexDigits isa) W)

/-- R100 law 1, a law the spec derives: where no `fit` wrapped, always so under `reject`, disassembling what a
text assembled to gives the canonical text of the same instruction, which reads as that instruction. -/
def Obligations.RoundTripText : Prop :=
  ∀ (c : Config) (isa : Isa) (text h : Text), c.WellFormed →
    (c.overflow isa = .reject ∨ ∀ a v f, parse c isa text = .ok a → numericOperand a = some (v, f) →
      0 ≤ v ∧ v < (2 : Int) ^ (layoutOf c a).width f) →
    assemble c isa text = .ok h →
    ∃ a canonical, parse c isa text = .ok a ∧ renderText c a = .ok canonical ∧
      disassemble c isa h = .ok canonical ∧ parse c isa canonical = .ok a

/-- R100 law 2, a law the spec derives, under either policy: the text disassembled from an assembled word
assembles to that word. -/
def Obligations.ReassemblyIsStable : Prop :=
  ∀ (c : Config) (isa : Isa) (text h : Text), c.WellFormed → assemble c isa text = .ok h →
    ∃ canonical, disassemble c isa h = .ok canonical ∧ assemble c isa canonical = .ok h

/-- R100 laws 3 and 4, laws the spec derives, for the default tables (a replaced table's name need not read
back from a text): assembling the text of an arbitrary word gives the word with its don't-care fields cleared,
and that word disassembles to the same text. -/
def Obligations.CanonicalTextIsFixedPoint : Prop :=
  ∀ (p : Overflow) (isa : Isa) (W : Word) (out : Text), W < 2 ^ 32 →
    disassemble (defaultConfig p) isa (renderHex 8 W) = .ok out →
    ∃ a, decodeWord (defaultConfig p) isa W = .ok a ∧
      assemble (defaultConfig p) isa out = .ok (renderHex 8 (clearDontCare (defaultConfig p) a W)) ∧
      disassemble (defaultConfig p) isa (renderHex 8 (clearDontCare (defaultConfig p) a W)) = .ok out

/-- R84, a law the spec derives: the classification of a text on the encode side is the classification of
its word on the decode side, over any well-formed configuration. -/
def Obligations.ClassifiersAreInverse : Prop :=
  (∀ (c : Config) (text h m : Text) (ops : List Text) (fmt : FormatM), c.WellFormed →
    assemble c .m text = .ok h → tokenize text = m :: ops → classifyEncodeM c.m m ops = .ok fmt →
    ∃ W, parseHex c.m.hexDigits h = .ok W ∧ classifyDecodeM c.m W = .ok (m, fmt)) ∧
  ∀ (c : Config) (text h m : Text) (ops : List Text) (fmt : FormatS), c.WellFormed →
    assemble c .s text = .ok h → tokenize text = m :: ops → classifyEncodeS c.s m ops = .ok fmt →
    ∃ W, parseHex c.s.hexDigits h = .ok W ∧ classifyDecodeS c.s W = .ok (m, fmt)

/-- A few words written out from the encodings of R43 to R45 and R47 decode to their instructions: the five
words of `M` in 30_encoding.md section 2, one jump word, and four words of `S`. -/
def Obligations.SampleWordsDecode : Prop :=
  decodeWord (defaultConfig .reject) .m 0b00000010001100101000000000100000 =
    .ok (Instr.add 16 17 18).toAbstract ∧
  decodeWord (defaultConfig .reject) .m 0b00000000000010010100000010000000 =
    .ok (Instr.sll 8 9 2).toAbstract ∧
  decodeWord (defaultConfig .reject) .m 0b00100001001010000000000000000101 =
    .ok (Instr.addi 8 9 5).toAbstract ∧
  decodeWord (defaultConfig .reject) .m 0b10001110001010000000000000001000 =
    .ok (Instr.lw 8 17 8).toAbstract ∧
  decodeWord (defaultConfig .reject) .m 0b10101110001010000000000000010010 =
    .ok (Instr.sw 8 17 0x12).toAbstract ∧
  decodeWord (defaultConfig .reject) .m 0b00001000000000000000000100000000 =
    .ok (Instr.j 0x100).toAbstract ∧
  decodeWord (defaultConfig .reject) .s 0b00000000000000000000100000000000 =
    .ok Instr.hlt.toAbstract ∧
  decodeWord (defaultConfig .reject) .s 0b00000000000000000010000100000001 =
    .ok (Instr.movRR 1 2).toAbstract ∧
  decodeWord (defaultConfig .reject) .s 0b00000000000000010001000100000101 =
    .ok (Instr.movIR 5 1).toAbstract ∧
  decodeWord (defaultConfig .reject) .s 0b00000000000000100010000100000001 =
    .ok (Instr.movLS 1 2).toAbstract

/-! ## The field codec -/

/-- R90: for a layout that tiles the word and values below their fields' bounds, `pack` is the OR of the
shifted values, equals their sum, is a word of the layout's width, and changing one field's value leaves
every other field as it was. -/
def Obligations.PackIsDisjointSum : Prop :=
  ∀ (l : Layout) (n : Nat) (v : FieldName → Nat), l.tiles n = true → l.names.Nodup →
    (∀ f ∈ l, v f.name < 2 ^ f.width) →
    pack l v = (l.map fun f => v f.name <<< f.offset).foldr (· ||| ·) 0 ∧
    pack l v = (l.map fun f => v f.name * 2 ^ f.offset).sum ∧
    pack l v < 2 ^ n ∧
    ∀ f ∈ l, ∀ x < 2 ^ f.width, ∀ g ∈ l, g.name ≠ f.name →
      extract l g.name (pack l fun k => if k = f.name then x else v k) = v g.name

/-- R92: `extract` is shift and mask at the field's offset, inverts `pack` at every field, and packing the
extracted fields gives the word back. -/
def Obligations.ExtractInvertsPack : Prop :=
  ∀ (l : Layout) (n : Nat), l.tiles n = true → l.names.Nodup →
    (∀ f ∈ l, ∀ W, extract l f.name W = (W >>> f.offset) % 2 ^ f.width) ∧
    (∀ v : FieldName → Nat, (∀ f ∈ l, v f.name < 2 ^ f.width) →
      ∀ f ∈ l, extract l f.name (pack l v) = v f.name) ∧
    ∀ W < 2 ^ n, pack l (fun k => extract l k W) = W

/-- R91: `fit` under either policy, for every integer and every width. -/
def Obligations.FitFollowsPolicy : Prop :=
  ∀ (v : Int) (w : Nat),
    (v < 0 ∨ (2 : Int) ^ w ≤ v → fit .reject v w = .error .fieldOverflow) ∧
    (0 ≤ v → v < (2 : Int) ^ w → ∃ n : Nat, fit .reject v w = .ok n ∧ (n : Int) = v) ∧
    ∃ n : Nat, fit .truncate v w = .ok n ∧ n < 2 ^ w ∧ ((2 : Int) ^ w ∣ v - n)

/-- R93: `render_hex` is exactly `HEX_DIGITS` characters, character `i` the lower-case digit of its four
bits, most significant first; and reading it back gives the word. -/
def Obligations.RenderHexDigits : Prop :=
  ∀ (digits : Nat) (W : Word),
    (renderHex digits W).length = digits ∧
    (∀ i, i < digits → ∃ ch, (renderHex digits W)[i]? = some ch ∧
      lowerHex[slice W (4 * digits - 1 - 4 * i) (4 * digits - 4 - 4 * i)]? = some ch) ∧
    (W < 16 ^ digits → parseHex digits (renderHex digits W) = .ok W)

/-- R94, R33: a string is accepted as a word when it has exactly `HEX_DIGITS` characters, all hex digits of
either case, and is then the word whose digits they are; any other string makes `disassemble` fail with
`MalformedInstruction`, and nothing else does. -/
def Obligations.HexInputExactLength : Prop :=
  (∀ (digits : Nat) (h : Text) (W : Word),
    parseHex digits h = .ok W ↔ h.length = digits ∧ Spells IsHexDigit 16 h W) ∧
  (∀ (digits : Nat) (h : Text) (e : ErrorKind), parseHex digits h = .error e →
    e = .malformedInstruction) ∧
  ∀ (c : Config) (isa : Isa) (h : Text), disassemble c isa h = .err .malformedInstruction ↔
    (h.length ≠ c.hexDigits isa ∨ ∃ ch ∈ h, ∀ d, ¬ IsHexDigit ch d)

/-! ## Tokens and numerals -/

/-- R105, R106: the six whitespace characters, and the tokens of a text: with every comma deleted, the text
is a leading gap followed by token and gap in turn, tokens non-empty and free of whitespace, gaps
whitespace only, every gap but the outer ones non-empty. -/
def Obligations.TokensAreMaximalRuns : Prop :=
  (∀ ch : Char, isSpace ch = true ↔ ch.toNat ∈ [0x20, 0x09, 0x0a, 0x0b, 0x0c, 0x0d]) ∧
  ∀ text : Text, ∃ (lead : Text) (runs : List (Text × Text)),
    text.filter (fun ch => decide (ch ≠ ',')) = lead ++ runs.flatMap (fun p => p.1 ++ p.2) ∧
    runs.map Prod.fst = tokenize text ∧
    (∀ ch ∈ lead, isSpace ch = true) ∧
    (∀ p ∈ runs, p.1 ≠ [] ∧ (∀ ch ∈ p.1, isSpace ch = false) ∧ ∀ ch ∈ p.2, isSpace ch = true) ∧
    ∀ p ∈ runs.dropLast, p.2 ≠ []

/-- R107: `parse_numeral` answers `v` exactly on the numerals of value `v`, and `MalformedInstruction` on
every other string. -/
def Obligations.NumeralGrammar : Prop :=
  ∀ t : Text, (∀ v, parseNumeral t = .ok v ↔ Numeral t v) ∧
    ((∀ v, ¬ Numeral t v) → parseNumeral t = .error .malformedInstruction)

/-- R108: `render_numeral` is `0x` and lower-case hex digits of the value without leading zeros, `0x0` for
zero; and reading it back gives the value. -/
def Obligations.NumeralRendering : Prop :=
  ∀ n : Nat, (∃ ds : Text, renderNumeral n = '0' :: 'x' :: ds ∧ Spells IsLowerHexDigit 16 ds n ∧
      (n = 0 → ds = ['0']) ∧ (n ≠ 0 → ds ≠ [] ∧ ds.head? ≠ some '0')) ∧
    parseNumeral (renderNumeral n) = .ok (n : Int)

/-- R109, R110: register and memory operands of `M`, over any configuration. -/
def Obligations.OperandSyntaxM : Prop :=
  ∀ (c : ConfigM) (t : Text),
    (t.head? ≠ some '$' → parseRegM c t = .error .invalidOperandSyntax) ∧
    (t.head? = some '$' → parseRegM c t = lookupRegisterCode c.reg t) ∧
    ('(' ∉ t ∨ t.getLast? ≠ some ')' → parseMemM c t = .error .invalidOperandSyntax) ∧
    ('(' ∈ t → t.getLast? = some ')' →
      ∃ off inner, t = off ++ '(' :: (inner ++ [')']) ∧ '(' ∉ off ∧
        (∀ e, parseNumeral off = .error e → parseMemM c t = .error e) ∧
        ∀ imm, parseNumeral off = .ok imm →
          (∀ e, parseRegM c inner = .error e → parseMemM c t = .error e) ∧
          ∀ rs, parseRegM c inner = .ok rs → parseMemM c t = .ok (imm, rs))

/-- R111 to R114: shapes and register, immediate and indirect operands of `S`, over any configuration. -/
def Obligations.OperandSyntaxS : Prop :=
  ∀ (c : ConfigS) (t : Text),
    (shape t = .register ↔ t.head? = some 'R') ∧ (shape t = .immediate ↔ t.head? = some '#') ∧
    (shape t = .indirect ↔ t.head? = some '[') ∧
    (t.head? ≠ some 'R' → parseRegS c t = .error .invalidOperandSyntax) ∧
    (t.head? = some 'R' → parseRegS c t = lookupRegisterCode c.reg t) ∧
    parseImmS ('#' :: t) = parseNumeral t ∧
    (t.head? = some '[' → t.getLast? ≠ some ']' → parseIndS c t = .error .invalidOperandSyntax) ∧
    parseIndS c ('[' :: (t ++ [']'])) = parseRegS c t

/-! ## Symbol tables and classification -/

/-- R70 to R72: a forward lookup answers the value of the first pair with that key, and fails with
`UnknownMnemonic` or, for a register, `UnknownRegister`, exactly when no key equals it. -/
def Obligations.ForwardLookups : Prop :=
  ∀ (T : Table) (k : Text),
    (∀ v, lookupOpcode T k = .ok v ↔ ∃ pre post, T = pre ++ (k, v) :: post ∧ k ∉ Table.keys pre) ∧
    (∀ v, lookupFunction T k = .ok v ↔ ∃ pre post, T = pre ++ (k, v) :: post ∧ k ∉ Table.keys pre) ∧
    (∀ v, lookupRegisterCode T k = .ok v ↔ ∃ pre post, T = pre ++ (k, v) :: post ∧ k ∉ Table.keys pre) ∧
    (k ∉ Table.keys T → lookupOpcode T k = .error .unknownMnemonic ∧
      lookupFunction T k = .error .unknownMnemonic ∧ lookupRegisterCode T k = .error .unknownRegister)

/-- R73, R75, and R74, which is an inference of the spec's own (from R73 and R193): a reverse lookup answers
the key of the first pair with that value, and fails with `UnknownEncoding` exactly when no value equals it. -/
def Obligations.ReverseLookups : Prop :=
  ∀ (T : Table) (x : Nat),
    (∀ k, opcodeToMnemonic T x = .ok k ↔ ∃ pre post, T = pre ++ (k, x) :: post ∧ x ∉ Table.values pre) ∧
    (∀ k, functionToMnemonic T x = .ok k ↔ ∃ pre post, T = pre ++ (k, x) :: post ∧ x ∉ Table.values pre) ∧
    (∀ k, codeToRegisterName T x = .ok k ↔ ∃ pre post, T = pre ++ (k, x) :: post ∧ x ∉ Table.values pre) ∧
    (x ∉ Table.values T → opcodeToMnemonic T x = .error .unknownEncoding ∧
      functionToMnemonic T x = .error .unknownEncoding ∧ codeToRegisterName T x = .error .unknownEncoding)

/-- R76, a law the spec derives: over a well-formed configuration a forward lookup followed by the matching
reverse lookup returns the key. -/
def Obligations.ReverseAfterForward : Prop :=
  ∀ c : Config, c.WellFormed →
    (∀ k v, (k, v) ∈ c.m.reg →
      lookupRegisterCode c.m.reg k = .ok v ∧ codeToRegisterName c.m.reg v = .ok k) ∧
    (∀ k v, (k, v) ∈ c.s.reg →
      lookupRegisterCode c.s.reg k = .ok v ∧ codeToRegisterName c.s.reg v = .ok k) ∧
    (∀ k v, (k, v) ∈ c.m.fn → lookupFunction c.m.fn k = .ok v ∧ functionToMnemonic c.m.fn v = .ok k) ∧
    (∀ k v, (k, v) ∈ c.m.opc → v ≠ 0 →
      lookupOpcode c.m.opc k = .ok v ∧ opcodeToMnemonic c.m.opc v = .ok k) ∧
    ∀ k v, (k, v) ∈ c.s.opc → lookupOpcode c.s.opc k = .ok v ∧ opcodeToMnemonic c.s.opc v = .ok k

/-- R85, a law the spec derives: under the default tables the format of a mnemonic of `M` is a function of
the mnemonic alone, and the mnemonics of `S` split into halt, jump and the three that the operand shapes classify. -/
def Obligations.TableTotality : Prop :=
  (∀ (p : Overflow) (m : Text) (ops : List Text), m ∈ opcM.keys →
    classifyEncodeM (configM p) m ops =
      if m ∈ ["sll", "srl", "sra"].map String.toList then
        if ops.length = 3 then .ok .rShift else .error .malformedInstruction
      else if m ∈ ["j", "jal"].map String.toList then
        if ops.length = 1 then .ok .jType else .error .malformedInstruction
      else if m ∈ ["lb", "lh", "lw", "lbu", "lhu", "sb", "sh", "sw"].map String.toList then
        if ops.length = 2 then .ok .iType else .error .malformedInstruction
      else if m ∈ ["addi", "addiu", "slti", "sltiu", "andi", "ori", "xori"].map String.toList then
        if ops.length = 3 then .ok .iType else .error .malformedInstruction
      else if ops.length = 3 then .ok .r3 else .error .malformedInstruction) ∧
  ∀ (p : Overflow) (m a b : Text), m ∈ opcS.keys →
    (m = "HLT".toList → classifyEncodeS (configS p) m [] = .ok .noOperand) ∧
    (m = "JMP".toList → classifyEncodeS (configS p) m [a] = .ok .singleTarget) ∧
    (m ∈ ["MOV", "ADD", "SUB"].map String.toList → b.head? = some 'R' →
      (a.head? = some 'R' → classifyEncodeS (configS p) m [a, b] = .ok .regReg) ∧
      (a.head? = some '#' → classifyEncodeS (configS p) m [a, b] = .ok .immReg) ∧
      (a.head? = some '[' → classifyEncodeS (configS p) m [a, b] = .ok .loadStore))

/-! ## The instruction rules, from text and from hex string -/

/-- R130 to R139: for each of the ten mnemonics, the count, the first fault of the three registers in order,
the word, and the text of any word with opcode 0 and that function code; the step does nothing else. -/
def Obligations.R3Rules : Prop :=
  ∀ (s : State) (rest : List Request) (p : Overflow) (m : Text) (fn : Nat), s.cfg.m = configM p →
    (m, fn) ∈ [("add".toList, 0x20), ("addu".toList, 0x21), ("sub".toList, 0x22), ("subu".toList, 0x23),
      ("and".toList, 0x24), ("or".toList, 0x25), ("xor".toList, 0x26), ("nor".toList, 0x27),
      ("slt".toList, 0x2a), ("sltu".toList, 0x2b)] →
    (∀ (text : Text) (ops : List Text), tokenize text = m :: ops →
      s.requests = .assemble .m text :: rest →
      (ops.length ≠ 3 → Answers s (.assemble .m text) rest (.err .malformedInstruction)) ∧
      ∀ x y z, ops = [x, y, z] →
        (∀ e, firstFault [regFaultM x, regFaultM y, regFaultM z] = some e →
          Answers s (.assemble .m text) rest (.err e)) ∧
        ∀ rd rs rt, (x, rd) ∈ regTableM → (y, rs) ∈ regTableM → (z, rt) ∈ regTableM →
          Answers s (.assemble .m text) rest
            (.ok (renderHex 8 (rs <<< 21 ||| rt <<< 16 ||| rd <<< 11 ||| fn)))) ∧
    ∀ (hex : Text) (W : Word), parseHex 8 hex = .ok W → s.requests = .disassemble .m hex :: rest →
      slice W 31 26 = 0 → slice W 5 0 = fn →
      Answers s (.disassemble .m hex) rest
        (.ok (m ++ [' '] ++ nameM (slice W 15 11) ++ [',', ' '] ++ nameM (slice W 25 21) ++ [',', ' '] ++
          nameM (slice W 20 16)))

/-- R140 to R142: the three shift mnemonics. The amount is fitted to five bits after both registers and the
numeral have been read. -/
def Obligations.RShiftRules : Prop :=
  ∀ (s : State) (rest : List Request) (p : Overflow) (m : Text) (fn : Nat), s.cfg.m = configM p →
    (m, fn) ∈ [("sll".toList, 0x00), ("srl".toList, 0x02), ("sra".toList, 0x03)] →
    (∀ (text : Text) (ops : List Text), tokenize text = m :: ops →
      s.requests = .assemble .m text :: rest →
      (ops.length ≠ 3 → Answers s (.assemble .m text) rest (.err .malformedInstruction)) ∧
      ∀ x y z, ops = [x, y, z] →
        (∀ e, firstFault [regFaultM x, regFaultM y, numeralFault z] = some e →
          Answers s (.assemble .m text) rest (.err e)) ∧
        ∀ rd rt v, (x, rd) ∈ regTableM → (y, rt) ∈ regTableM → parseNumeral z = .ok v →
          (∀ sh, fit p v 5 = .ok sh → Answers s (.assemble .m text) rest
            (.ok (renderHex 8 (rt <<< 16 ||| rd <<< 11 ||| sh <<< 6 ||| fn)))) ∧
          (∀ e, fit p v 5 = .error e → Answers s (.assemble .m text) rest (.err e))) ∧
    ∀ (hex : Text) (W : Word), parseHex 8 hex = .ok W → s.requests = .disassemble .m hex :: rest →
      slice W 31 26 = 0 → slice W 5 0 = fn →
      Answers s (.disassemble .m hex) rest
        (.ok (m ++ [' '] ++ nameM (slice W 15 11) ++ [',', ' '] ++ nameM (slice W 20 16) ++ [',', ' '] ++
          renderNumeral (slice W 10 6)))

/-- R150 to R156: the seven mnemonics of the arithmetic form. -/
def Obligations.ITypeArithmeticRules : Prop :=
  ∀ (s : State) (rest : List Request) (p : Overflow) (m : Text) (op : Nat), s.cfg.m = configM p →
    (m, op) ∈ [("addi".toList, 0x08), ("addiu".toList, 0x09), ("slti".toList, 0x0a),
      ("sltiu".toList, 0x0b), ("andi".toList, 0x0c), ("ori".toList, 0x0d), ("xori".toList, 0x0e)] →
    (∀ (text : Text) (ops : List Text), tokenize text = m :: ops →
      s.requests = .assemble .m text :: rest →
      (ops.length ≠ 3 → Answers s (.assemble .m text) rest (.err .malformedInstruction)) ∧
      ∀ x y z, ops = [x, y, z] →
        (∀ e, firstFault [regFaultM x, regFaultM y, numeralFault z] = some e →
          Answers s (.assemble .m text) rest (.err e)) ∧
        ∀ rt rs v, (x, rt) ∈ regTableM → (y, rs) ∈ regTableM → parseNumeral z = .ok v →
          (∀ imm, fit p v 16 = .ok imm → Answers s (.assemble .m text) rest
            (.ok (renderHex 8 (op <<< 26 ||| rs <<< 21 ||| rt <<< 16 ||| imm)))) ∧
          (∀ e, fit p v 16 = .error e → Answers s (.assemble .m text) rest (.err e))) ∧
    ∀ (hex : Text) (W : Word), parseHex 8 hex = .ok W → s.requests = .disassemble .m hex :: rest →
      slice W 31 26 = op →
      Answers s (.disassemble .m hex) rest
        (.ok (m ++ [' '] ++ nameM (slice W 20 16) ++ [',', ' '] ++ nameM (slice W 25 21) ++ [',', ' '] ++
          renderNumeral (slice W 15 0)))

/-- R157 to R164: the eight mnemonics of the memory form. The second operand is faulted in the order
parentheses, offset, register (R110). -/
def Obligations.ITypeMemoryRules : Prop :=
  ∀ (s : State) (rest : List Request) (p : Overflow) (m : Text) (op : Nat), s.cfg.m = configM p →
    (m, op) ∈ [("lb".toList, 0x20), ("lh".toList, 0x21), ("lw".toList, 0x23), ("lbu".toList, 0x24),
      ("lhu".toList, 0x25), ("sb".toList, 0x28), ("sh".toList, 0x29), ("sw".toList, 0x2b)] →
    (∀ (text : Text) (ops : List Text), tokenize text = m :: ops →
      s.requests = .assemble .m text :: rest →
      (ops.length ≠ 2 → Answers s (.assemble .m text) rest (.err .malformedInstruction)) ∧
      ∀ x y, ops = [x, y] →
        (∀ e, regFaultM x = some e → Answers s (.assemble .m text) rest (.err e)) ∧
        (regFaultM x = none → '(' ∉ y ∨ y.getLast? ≠ some ')' →
          Answers s (.assemble .m text) rest (.err .invalidOperandSyntax)) ∧
        ∀ off inner, y = off ++ '(' :: (inner ++ [')']) → '(' ∉ off →
          (∀ e, firstFault [regFaultM x, numeralFault off, regFaultM inner] = some e →
            Answers s (.assemble .m text) rest (.err e)) ∧
          ∀ rt rs v, (x, rt) ∈ regTableM → (inner, rs) ∈ regTableM → parseNumeral off = .ok v →
            (∀ imm, fit p v 16 = .ok imm → Answers s (.assemble .m text) rest
              (.ok (renderHex 8 (op <<< 26 ||| rs <<< 21 ||| rt <<< 16 ||| imm)))) ∧
            (∀ e, fit p v 16 = .error e → Answers s (.assemble .m text) rest (.err e))) ∧
    ∀ (hex : Text) (W : Word), parseHex 8 hex = .ok W → s.requests = .disassemble .m hex :: rest →
      slice W 31 26 = op →
      Answers s (.disassemble .m hex) rest
        (.ok (m ++ [' '] ++ nameM (slice W 20 16) ++ [',', ' '] ++ renderNumeral (slice W 15 0) ++ ['('] ++
          nameM (slice W 25 21) ++ [')']))

/-- R170, R171: the two jump mnemonics of `M`. -/
def Obligations.JTypeRules : Prop :=
  ∀ (s : State) (rest : List Request) (p : Overflow) (m : Text) (op : Nat), s.cfg.m = configM p →
    (m, op) ∈ [("j".toList, 0x02), ("jal".toList, 0x03)] →
    (∀ (text : Text) (ops : List Text), tokenize text = m :: ops →
      s.requests = .assemble .m text :: rest →
      (ops.length ≠ 1 → Answers s (.assemble .m text) rest (.err .malformedInstruction)) ∧
      ∀ x, ops = [x] →
        (∀ e, numeralFault x = some e → Answers s (.assemble .m text) rest (.err e)) ∧
        ∀ v, parseNumeral x = .ok v →
          (∀ tg, fit p v 26 = .ok tg → Answers s (.assemble .m text) rest
            (.ok (renderHex 8 (op <<< 26 ||| tg)))) ∧
          (∀ e, fit p v 26 = .error e → Answers s (.assemble .m text) rest (.err e))) ∧
    ∀ (hex : Text) (W : Word), parseHex 8 hex = .ok W → s.requests = .disassemble .m hex :: rest →
      slice W 31 26 = op →
      Answers s (.disassemble .m hex) rest (.ok (m ++ [' '] ++ renderNumeral (slice W 25 0)))

/-- R175: `HLT`, whatever the other bits of the word are. -/
def Obligations.HaltRule : Prop :=
  ∀ (s : State) (rest : List Request) (p : Overflow), s.cfg.s = configS p →
    (∀ (text : Text) (ops : List Text), tokenize text = "HLT".toList :: ops →
      s.requests = .assemble .s text :: rest →
      (ops ≠ [] → Answers s (.assemble .s text) rest (.err .malformedInstruction)) ∧
      (ops = [] → Answers s (.assemble .s text) rest (.ok "00000800".toList))) ∧
    ∀ (hex : Text) (W : Word), parseHex 8 hex = .ok W → s.requests = .disassemble .s hex :: rest →
      slice W 11 8 = 8 → Answers s (.disassemble .s hex) rest (.ok "HLT".toList)

/-- R176: `JMP`, whatever `pad`, `mode` and `dst` of the word are. -/
def Obligations.JumpRuleS : Prop :=
  ∀ (s : State) (rest : List Request) (p : Overflow), s.cfg.s = configS p →
    (∀ (text : Text) (ops : List Text), tokenize text = "JMP".toList :: ops →
      s.requests = .assemble .s text :: rest →
      (ops.length ≠ 1 → Answers s (.assemble .s text) rest (.err .malformedInstruction)) ∧
      ∀ x, ops = [x] →
        (∀ e, numeralFault x = some e → Answers s (.assemble .s text) rest (.err e)) ∧
        ∀ v, parseNumeral x = .ok v →
          (∀ tg, fit p v 8 = .ok tg → Answers s (.assemble .s text) rest
            (.ok (renderHex 8 (4 <<< 8 ||| tg)))) ∧
          (∀ e, fit p v 8 = .error e → Answers s (.assemble .s text) rest (.err e))) ∧
    ∀ (hex : Text) (W : Word), parseHex 8 hex = .ok W → s.requests = .disassemble .s hex :: rest →
      slice W 11 8 = 4 →
      Answers s (.disassemble .s hex) rest (.ok ("JMP ".toList ++ renderNumeral (slice W 7 0)))

/-- R177 to R179, the three formats of each mnemonic. Encode side: the count, then both shapes, then the
operands from left to right, then the fit of an immediate. Decode side: the `mode` field picks the format,
mode 3 and register codes without a name are `UnknownEncoding`, and `pad` is not looked at. -/
def Obligations.TwoOperandRules : Prop :=
  ∀ (s : State) (rest : List Request) (p : Overflow) (m : Text) (op : Nat), s.cfg.s = configS p →
    (m, op) ∈ [("MOV".toList, 1), ("ADD".toList, 2), ("SUB".toList, 3)] →
    (∀ (text : Text) (ops : List Text), tokenize text = m :: ops → s.requests = .assemble .s text :: rest →
      (ops.length ≠ 2 → Answers s (.assemble .s text) rest (.err .malformedInstruction)) ∧
      ∀ x y, ops = [x, y] →
        (y.head? ≠ some 'R' ∨ x.head? ∉ [some 'R', some '#', some '['] →
          Answers s (.assemble .s text) rest (.err .invalidOperandSyntax)) ∧
        (y.head? = some 'R' →
          (x.head? = some 'R' →
            (∀ e, firstFault [regFaultS x, regFaultS y] = some e →
              Answers s (.assemble .s text) rest (.err e)) ∧
            ∀ src dst, (x, src) ∈ regTableS → (y, dst) ∈ regTableS → Answers s (.assemble .s text) rest
              (.ok (renderHex 8 (dst <<< 12 ||| op <<< 8 ||| src)))) ∧
          (∀ u, x = '#' :: u →
            (∀ e, firstFault [numeralFault u, regFaultS y] = some e →
              Answers s (.assemble .s text) rest (.err e)) ∧
            ∀ v dst, parseNumeral u = .ok v → (y, dst) ∈ regTableS →
              (∀ imm, fit p v 8 = .ok imm → Answers s (.assemble .s text) rest
                (.ok (renderHex 8 (1 <<< 16 ||| dst <<< 12 ||| op <<< 8 ||| imm)))) ∧
              (∀ e, fit p v 8 = .error e → Answers s (.assemble .s text) rest (.err e))) ∧
          (x.head? = some '[' → x.getLast? ≠ some ']' →
            Answers s (.assemble .s text) rest (.err .invalidOperandSyntax)) ∧
          ∀ inner, x = '[' :: (inner ++ [']']) →
            (∀ e, firstFault [regFaultS inner, regFaultS y] = some e →
              Answers s (.assemble .s text) rest (.err e)) ∧
            ∀ base dst, (inner, base) ∈ regTableS → (y, dst) ∈ regTableS →
              Answers s (.assemble .s text) rest
                (.ok (renderHex 8 (2 <<< 16 ||| dst <<< 12 ||| op <<< 8 ||| base))))) ∧
    ∀ (hex : Text) (W : Word), parseHex 8 hex = .ok W → s.requests = .disassemble .s hex :: rest →
      slice W 11 8 = op →
      (slice W 17 16 = 3 ∨ 8 ≤ slice W 15 12 ∨ slice W 17 16 ≠ 1 ∧ 8 ≤ slice W 7 0 →
        Answers s (.disassemble .s hex) rest (.err .unknownEncoding)) ∧
      (slice W 17 16 = 0 → slice W 15 12 < 8 → slice W 7 0 < 8 →
        Answers s (.disassemble .s hex) rest
          (.ok (m ++ [' '] ++ nameS (slice W 7 0) ++ [',', ' '] ++ nameS (slice W 15 12)))) ∧
      (slice W 17 16 = 1 → slice W 15 12 < 8 →
        Answers s (.disassemble .s hex) rest
          (.ok (m ++ [' ', '#'] ++ renderNumeral (slice W 7 0) ++ [',', ' '] ++ nameS (slice W 15 12)))) ∧
      (slice W 17 16 = 2 → slice W 15 12 < 8 → slice W 7 0 < 8 →
        Answers s (.disassemble .s hex) rest
          (.ok (m ++ [' ', '['] ++ nameS (slice W 7 0) ++ [']', ',', ' '] ++ nameS (slice W 15 12))))

/-! ## Errors -/

/-- R190: the codes of the six kinds and which operation raises which, for every configuration. -/
def Obligations.ErrorKindsByOperation : Prop :=
  [ErrorKind.unknownMnemonic, .unknownRegister, .unknownEncoding, .invalidOperandSyntax,
    .malformedInstruction, .fieldOverflow].map errorCode = [1, 2, 3, 4, 5, 6] ∧
  (∀ (c : Config) (isa : Isa) (text : Text), assemble c isa text ≠ .err .unknownEncoding) ∧
  ∀ (c : Config) (isa : Isa) (hex : Text) (e : ErrorKind), disassemble c isa hex = .err e →
    e = .unknownEncoding ∨ e = .malformedInstruction

/-- R191: over a well-formed configuration `assemble` fails with `UnknownMnemonic` exactly when the text has
a first token and it is no key of `OPC`, whatever its operands. -/
def Obligations.UnknownMnemonicExactly : Prop :=
  (∀ (c : Config) (text : Text), c.WellFormed → (assemble c .m text = .err .unknownMnemonic ↔
    ∃ m ops, tokenize text = m :: ops ∧ m ∉ c.m.opc.keys)) ∧
  (∀ (c : Config) (text : Text), c.WellFormed → (assemble c .s text = .err .unknownMnemonic ↔
    ∃ m ops, tokenize text = m :: ops ∧ m ∉ c.s.opc.keys)) ∧
  ∀ (T : Table) (m : Text), m ∉ T.keys → lookupFunction T m = .error .unknownMnemonic

/-- R193: `disassemble` of a word fails with `UnknownEncoding` exactly when a code cut from it has no entry:
the opcode, the function code of an `M` word with opcode 0, a register code its text would name, or, in `S`,
the mode of a two-operand opcode. -/
def Obligations.UnknownEncodingExactly : Prop :=
  (∀ (c : Config) (hex : Text) (W : Word), parseHex c.m.hexDigits hex = .ok W →
    (disassemble c .m hex = .err .unknownEncoding ↔
      (extract c.m.layoutR .opcode W ≠ 0 ∧ extract c.m.layoutR .opcode W ∉ c.m.opc.values) ∨
      (extract c.m.layoutR .opcode W = 0 ∧ extract c.m.layoutR .funct W ∉ c.m.fn.values) ∨
      ∃ a, decodeM c.m W = .ok a ∧ ∃ q ∈ registerOperands a, q.1 ∉ c.m.reg.values)) ∧
  ∀ (c : Config) (hex : Text) (W : Word), parseHex c.s.hexDigits hex = .ok W →
    (disassemble c .s hex = .err .unknownEncoding ↔
      extract c.s.layoutSW .opcode W ∉ c.s.opc.values ∨
      (extract c.s.layoutSW .opcode W ≠ c.s.haltOpcode ∧
        extract c.s.layoutSW .opcode W ∉ c.s.jumpCodes ∧ 3 ≤ extract c.s.layoutSW .mode W) ∨
      ∃ a, decodeS c.s W = .ok a ∧ ∃ q ∈ registerOperands a, q.1 ∉ c.s.reg.values)

/-- R195, the part about an empty text, with R116 and R117: a text without a token is malformed. -/
def Obligations.EmptyTextMalformed : Prop :=
  ∀ (c : Config) (isa : Isa) (text : Text), (∀ ch ∈ text, isSpace ch = true ∨ ch = ',') →
    assemble c isa text = .err .malformedInstruction

/-- R196: `assemble` fails with `FieldOverflow` exactly under `reject` and when the text reads as an
instruction whose numeral is negative or too large for its field; `disassemble` never does. -/
def Obligations.FieldOverflowExactly : Prop :=
  ∀ (p : Overflow) (isa : Isa) (text : Text),
    (assemble (defaultConfig p) isa text = .err .fieldOverflow ↔ p = .reject ∧
      ∃ a v f w, parse (defaultConfig p) isa text = .ok a ∧ numericOperand a = some (v, f) ∧
        (f, w) ∈ [(FieldName.shamt, 5), (.imm, 16), (.target, 26), (.operand, 8)] ∧
        (v < 0 ∨ (2 : Int) ^ w ≤ v)) ∧
    disassemble (defaultConfig p) isa text ≠ .err .fieldOverflow

/-- R52, R53, lists the spec derives: the illegal words of each instruction set under the default tables, by value; every other word
disassembles to a text. -/
def Obligations.IllegalWords : Prop :=
  (∀ (p : Overflow) (W : Word), W < 2 ^ 32 →
    if slice W 31 26 ∈ [0x01, 0x22, 0x26, 0x27, 0x2a] ∨ (0x04 ≤ slice W 31 26 ∧ slice W 31 26 ≤ 0x07) ∨
        (0x0f ≤ slice W 31 26 ∧ slice W 31 26 ≤ 0x1f) ∨ 0x2c ≤ slice W 31 26 ∨
        slice W 31 26 = 0 ∧ (slice W 5 0 ∈ [0x01, 0x28, 0x29] ∨
          (0x04 ≤ slice W 5 0 ∧ slice W 5 0 ≤ 0x1f) ∨ 0x2c ≤ slice W 5 0)
    then disassemble (defaultConfig p) .m (renderHex 8 W) = .err .unknownEncoding
    else ∃ out, disassemble (defaultConfig p) .m (renderHex 8 W) = .ok out) ∧
  ∀ (p : Overflow) (W : Word), W < 2 ^ 32 →
    if slice W 11 8 ∈ [0, 5, 6, 7] ∨ 9 ≤ slice W 11 8 ∨
        slice W 11 8 ∈ [1, 2, 3] ∧ (slice W 17 16 = 3 ∨ 8 ≤ slice W 15 12 ∨
          slice W 17 16 ≠ 1 ∧ 8 ≤ slice W 7 0)
    then disassemble (defaultConfig p) .s (renderHex 8 W) = .err .unknownEncoding
    else ∃ out, disassemble (defaultConfig p) .s (renderHex 8 W) = .ok out

/-! ## Every instruction completes -/

/-- `add addu sub subu and or xor nor slt sltu`: with registers in range and a request in progress, the
instruction answers with its word or its text, and changes nothing else. -/
def Obligations.R3Completes : Prop :=
  ∀ (s : State) (rest : List Request) (p : Overflow) (rd rs rt : Nat), s.cfg.m = configM p →
    rd < 32 → rs < 32 → rt < 32 →
    ∀ x ∈ [(Instr.add rd rs rt, "add".toList, 0x20), (Instr.addu rd rs rt, "addu".toList, 0x21),
      (Instr.sub rd rs rt, "sub".toList, 0x22), (Instr.subu rd rs rt, "subu".toList, 0x23),
      (Instr.and rd rs rt, "and".toList, 0x24), (Instr.or rd rs rt, "or".toList, 0x25),
      (Instr.xor rd rs rt, "xor".toList, 0x26), (Instr.nor rd rs rt, "nor".toList, 0x27),
      (Instr.slt rd rs rt, "slt".toList, 0x2a), (Instr.sltu rd rs rt, "sltu".toList, 0x2b)],
      (∀ isa text, s.requests = .assemble isa text :: rest →
        exec x.1 s = .next (s.after (.assemble isa text) rest
          (.ok (renderHex 8 (rs <<< 21 ||| rt <<< 16 ||| rd <<< 11 ||| x.2.2))))) ∧
      ∀ isa hex, s.requests = .disassemble isa hex :: rest →
        exec x.1 s = .next (s.after (.disassemble isa hex) rest
          (.ok (x.2.1 ++ [' '] ++ nameM rd ++ [',', ' '] ++ nameM rs ++ [',', ' '] ++ nameM rt)))

/-- `sll srl sra`, with an amount of 0 to 31. -/
def Obligations.RShiftCompletes : Prop :=
  ∀ (s : State) (rest : List Request) (p : Overflow) (rd rt sh : Nat), s.cfg.m = configM p →
    rd < 32 → rt < 32 → sh < 32 →
    ∀ x ∈ [(Instr.sll rd rt sh, "sll".toList, 0x00), (Instr.srl rd rt sh, "srl".toList, 0x02),
      (Instr.sra rd rt sh, "sra".toList, 0x03)],
      (∀ isa text, s.requests = .assemble isa text :: rest →
        exec x.1 s = .next (s.after (.assemble isa text) rest
          (.ok (renderHex 8 (rt <<< 16 ||| rd <<< 11 ||| sh <<< 6 ||| x.2.2))))) ∧
      ∀ isa hex, s.requests = .disassemble isa hex :: rest →
        exec x.1 s = .next (s.after (.disassemble isa hex) rest
          (.ok (x.2.1 ++ [' '] ++ nameM rd ++ [',', ' '] ++ nameM rt ++ [',', ' '] ++ renderNumeral sh)))

/-- `addi addiu slti sltiu andi ori xori`, with an immediate of 0 to 0xffff. -/
def Obligations.ITypeArithmeticCompletes : Prop :=
  ∀ (s : State) (rest : List Request) (p : Overflow) (rt rs imm : Nat), s.cfg.m = configM p →
    rt < 32 → rs < 32 → imm < 2 ^ 16 →
    ∀ x ∈ [(Instr.addi rt rs imm, "addi".toList, 0x08), (Instr.addiu rt rs imm, "addiu".toList, 0x09),
      (Instr.slti rt rs imm, "slti".toList, 0x0a), (Instr.sltiu rt rs imm, "sltiu".toList, 0x0b),
      (Instr.andi rt rs imm, "andi".toList, 0x0c), (Instr.ori rt rs imm, "ori".toList, 0x0d),
      (Instr.xori rt rs imm, "xori".toList, 0x0e)],
      (∀ isa text, s.requests = .assemble isa text :: rest →
        exec x.1 s = .next (s.after (.assemble isa text) rest
          (.ok (renderHex 8 (x.2.2 <<< 26 ||| rs <<< 21 ||| rt <<< 16 ||| imm))))) ∧
      ∀ isa hex, s.requests = .disassemble isa hex :: rest →
        exec x.1 s = .next (s.after (.disassemble isa hex) rest
          (.ok (x.2.1 ++ [' '] ++ nameM rt ++ [',', ' '] ++ nameM rs ++ [',', ' '] ++ renderNumeral imm)))

/-- `lb lh lw lbu lhu sb sh sw`, with an offset of 0 to 0xffff. -/
def Obligations.ITypeMemoryCompletes : Prop :=
  ∀ (s : State) (rest : List Request) (p : Overflow) (rt rs imm : Nat), s.cfg.m = configM p →
    rt < 32 → rs < 32 → imm < 2 ^ 16 →
    ∀ x ∈ [(Instr.lb rt rs imm, "lb".toList, 0x20), (Instr.lh rt rs imm, "lh".toList, 0x21),
      (Instr.lw rt rs imm, "lw".toList, 0x23), (Instr.lbu rt rs imm, "lbu".toList, 0x24),
      (Instr.lhu rt rs imm, "lhu".toList, 0x25), (Instr.sb rt rs imm, "sb".toList, 0x28),
      (Instr.sh rt rs imm, "sh".toList, 0x29), (Instr.sw rt rs imm, "sw".toList, 0x2b)],
      (∀ isa text, s.requests = .assemble isa text :: rest →
        exec x.1 s = .next (s.after (.assemble isa text) rest
          (.ok (renderHex 8 (x.2.2 <<< 26 ||| rs <<< 21 ||| rt <<< 16 ||| imm))))) ∧
      ∀ isa hex, s.requests = .disassemble isa hex :: rest →
        exec x.1 s = .next (s.after (.disassemble isa hex) rest
          (.ok (x.2.1 ++ [' '] ++ nameM rt ++ [',', ' '] ++ renderNumeral imm ++ ['('] ++ nameM rs ++ [')'])))

/-- `j jal`, with a target of 0 to 0x3ffffff. -/
def Obligations.JTypeCompletes : Prop :=
  ∀ (s : State) (rest : List Request) (p : Overflow) (tg : Nat), s.cfg.m = configM p → tg < 2 ^ 26 →
    ∀ x ∈ [(Instr.j tg, "j".toList, 0x02), (Instr.jal tg, "jal".toList, 0x03)],
      (∀ isa text, s.requests = .assemble isa text :: rest →
        exec x.1 s = .next (s.after (.assemble isa text) rest
          (.ok (renderHex 8 (x.2.2 <<< 26 ||| tg))))) ∧
      ∀ isa hex, s.requests = .disassemble isa hex :: rest →
        exec x.1 s = .next (s.after (.disassemble isa hex) rest
          (.ok (x.2.1 ++ [' '] ++ renderNumeral tg)))

/-- `HLT` and `JMP`, the latter with a target of 0 to 255. -/
def Obligations.HaltAndJumpComplete : Prop :=
  ∀ (s : State) (rest : List Request) (p : Overflow) (tg : Nat), s.cfg.s = configS p → tg < 256 →
    (∀ isa text, s.requests = .assemble isa text :: rest →
      exec .hlt s = .next (s.after (.assemble isa text) rest (.ok "00000800".toList)) ∧
      exec (.jmp tg) s = .next (s.after (.assemble isa text) rest
        (.ok (renderHex 8 (4 <<< 8 ||| tg))))) ∧
    ∀ isa hex, s.requests = .disassemble isa hex :: rest →
      exec .hlt s = .next (s.after (.disassemble isa hex) rest (.ok "HLT".toList)) ∧
      exec (.jmp tg) s = .next (s.after (.disassemble isa hex) rest
        (.ok ("JMP ".toList ++ renderNumeral tg)))

/-- The `RegReg` and `LoadStore` forms of `MOV`, `ADD` and `SUB`. -/
def Obligations.RegRegAndLoadStoreComplete : Prop :=
  ∀ (s : State) (rest : List Request) (p : Overflow) (src dst : Nat), s.cfg.s = configS p →
    src < 8 → dst < 8 →
    (∀ x ∈ [(Instr.movRR src dst, "MOV".toList, 1), (Instr.addRR src dst, "ADD".toList, 2),
      (Instr.subRR src dst, "SUB".toList, 3)],
      (∀ isa text, s.requests = .assemble isa text :: rest →
        exec x.1 s = .next (s.after (.assemble isa text) rest
          (.ok (renderHex 8 (dst <<< 12 ||| x.2.2 <<< 8 ||| src))))) ∧
      ∀ isa hex, s.requests = .disassemble isa hex :: rest →
        exec x.1 s = .next (s.after (.disassemble isa hex) rest
          (.ok (x.2.1 ++ [' '] ++ nameS src ++ [',', ' '] ++ nameS dst)))) ∧
    ∀ x ∈ [(Instr.movLS src dst, "MOV".toList, 1), (Instr.addLS src dst, "ADD".toList, 2),
      (Instr.subLS src dst, "SUB".toList, 3)],
      (∀ isa text, s.requests = .assemble isa text :: rest →
        exec x.1 s = .next (s.after (.assemble isa text) rest
          (.ok (renderHex 8 (2 <<< 16 ||| dst <<< 12 ||| x.2.2 <<< 8 ||| src))))) ∧
      ∀ isa hex, s.requests = .disassemble isa hex :: rest →
        exec x.1 s = .next (s.after (.disassemble isa hex) rest
          (.ok (x.2.1 ++ [' ', '['] ++ nameS src ++ [']', ',', ' '] ++ nameS dst)))

/-- The `ImmReg` forms of `MOV`, `ADD` and `SUB`, with an immediate of 0 to 255. -/
def Obligations.ImmRegCompletes : Prop :=
  ∀ (s : State) (rest : List Request) (p : Overflow) (imm dst : Nat), s.cfg.s = configS p →
    imm < 256 → dst < 8 →
    ∀ x ∈ [(Instr.movIR imm dst, "MOV".toList, 1), (Instr.addIR imm dst, "ADD".toList, 2),
      (Instr.subIR imm dst, "SUB".toList, 3)],
      (∀ isa text, s.requests = .assemble isa text :: rest →
        exec x.1 s = .next (s.after (.assemble isa text) rest
          (.ok (renderHex 8 (1 <<< 16 ||| dst <<< 12 ||| x.2.2 <<< 8 ||| imm))))) ∧
      ∀ isa hex, s.requests = .disassemble isa hex :: rest →
        exec x.1 s = .next (s.after (.disassemble isa hex) rest
          (.ok (x.2.1 ++ [' ', '#'] ++ renderNumeral imm ++ [',', ' '] ++ nameS dst)))

/-- R196 with R91 and R198: every instruction with a numeric operand, assembled under `reject` with a value
that does not fit, ends its request with `FieldOverflow` and nothing else; under `truncate` it is the
instruction whose operand is the value modulo 2 to the width. -/
def Obligations.OverflowTrapsOrWraps : Prop :=
  ∀ (s : State) (rest : List Request) (p : Overflow) (isa : Isa) (text : Text) (a b : Nat) (v : Int),
    s.cfg = defaultConfig p → s.requests = .assemble isa text :: rest →
    ∀ x ∈ [((fun n : Int => Instr.sll a b n), (5 : Nat)), ((fun n => Instr.srl a b n), 5),
      ((fun n => Instr.sra a b n), 5), ((fun n => Instr.addi a b n), 16),
      ((fun n => Instr.addiu a b n), 16), ((fun n => Instr.slti a b n), 16),
      ((fun n => Instr.sltiu a b n), 16), ((fun n => Instr.andi a b n), 16),
      ((fun n => Instr.ori a b n), 16), ((fun n => Instr.xori a b n), 16),
      ((fun n => Instr.lb a b n), 16), ((fun n => Instr.lh a b n), 16),
      ((fun n => Instr.lw a b n), 16), ((fun n => Instr.lbu a b n), 16),
      ((fun n => Instr.lhu a b n), 16), ((fun n => Instr.sb a b n), 16),
      ((fun n => Instr.sh a b n), 16), ((fun n => Instr.sw a b n), 16),
      ((fun n => Instr.j n), 26), ((fun n => Instr.jal n), 26), ((fun n => Instr.jmp n), 8),
      ((fun n => Instr.movIR n b), 8), ((fun n => Instr.addIR n b), 8), ((fun n => Instr.subIR n b), 8)],
      (p = .reject → v < 0 ∨ (2 : Int) ^ x.2 ≤ v →
        exec (x.1 v) s = .next (s.after (.assemble isa text) rest (.err .fieldOverflow))) ∧
      (p = .truncate → exec (x.1 v) s = exec (x.1 (v % 2 ^ x.2)) s)
end

