-- ==== Sys2Proof/Laws/Codec.lean ====
section
/-!
SUPPORT. The field codec: pack and extract over a tiling layout, the overflow policy, hexadecimal digits
and words (42_field_codec.md).
-/

namespace Sys2Proof

/-! ## Pack and extract -/

theorem tiles_cons {f : Field} {fs : Layout} {top : Nat} (h : Layout.tiles (f :: fs) top = true) :
    f.offset + f.width = top ∧ Layout.tiles fs f.offset = true := by
  simpa [Layout.tiles] using h

/-- A packed word stays below the top of its layout. -/
theorem pack_lt {v : FieldName → Nat} :
    ∀ {l : Layout} {top : Nat}, l.tiles top = true → (∀ f ∈ l, v f.name < 2 ^ f.width) →
      pack l v < 2 ^ top
  | [], top, _, _ => by simp [pack]
  | f :: fs, top, ht, hv => by
    obtain ⟨h1, h2⟩ := tiles_cons ht
    have hlow : pack fs v < 2 ^ f.offset := pack_lt h2 fun g hg => hv g (List.mem_cons_of_mem _ hg)
    have hf := hv f List.mem_cons_self
    subst h1
    unfold pack
    refine Nat.or_lt_two_pow ?_ (lt_of_lt_of_le hlow (Nat.pow_le_pow_right (by decide) (by omega)))
    rw [Nat.shiftLeft_eq, Nat.pow_add, Nat.mul_comm]
    exact Nat.mul_lt_mul_of_pos_left hf (Nat.two_pow_pos _)

theorem pack_cons (f : Field) (fs : Layout) (v : FieldName → Nat) :
    pack (f :: fs) v = (v f.name <<< f.offset) ||| pack fs v := rfl

/-- Under a tiling the OR of the shifted fields is their sum (R90). -/
theorem pack_cons_eq_add {v : FieldName → Nat} {f : Field} {fs : Layout} {top : Nat}
    (ht : Layout.tiles (f :: fs) top = true) (hv : ∀ g ∈ fs, v g.name < 2 ^ g.width) :
    pack (f :: fs) v = v f.name * 2 ^ f.offset + pack fs v := by
  obtain ⟨_, h2⟩ := tiles_cons ht
  have hlow : pack fs v < 2 ^ f.offset := pack_lt h2 hv
  rw [pack_cons, ← Nat.shiftLeft_add_eq_or_of_lt hlow, Nat.shiftLeft_eq]

/-- Every packed field comes back (R92). -/
theorem extract_pack {v : FieldName → Nat} :
    ∀ {l : Layout} {top : Nat}, l.tiles top = true → l.names.Nodup →
      (∀ f ∈ l, v f.name < 2 ^ f.width) → ∀ {n : FieldName}, n ∈ l.names →
      ∀ hi : Nat, extract l n (hi * 2 ^ top + pack l v) = v n
  | [], _, _, _, _, n, hn, _ => by simp at hn
  | f :: fs, top, ht, hd, hv, n, hn, hi => by
    obtain ⟨h1, h2⟩ := tiles_cons ht
    have hvs : ∀ g ∈ fs, v g.name < 2 ^ g.width := fun g hg => hv g (List.mem_cons_of_mem _ hg)
    have hlow : pack fs v < 2 ^ f.offset := pack_lt h2 hvs
    have hf := hv f List.mem_cons_self
    rw [Layout.names, List.map_cons, List.nodup_cons] at hd
    rw [pack_cons_eq_add ht hvs]
    have hsum : hi * 2 ^ top + (v f.name * 2 ^ f.offset + pack fs v)
        = (hi * 2 ^ f.width + v f.name) * 2 ^ f.offset + pack fs v := by
      rw [← h1, Nat.pow_add]; ring
    rw [hsum]
    unfold extract
    by_cases hname : f.name = n
    · rw [if_pos hname, Nat.shiftRight_eq_div_pow, Nat.mul_comm _ (2 ^ f.offset),
        Nat.mul_add_div (Nat.two_pow_pos _), Nat.div_eq_of_lt hlow, Nat.add_zero,
        Nat.mul_comm hi, Nat.mul_add_mod, Nat.mod_eq_of_lt hf, hname]
    · rw [if_neg hname]
      have hn' : n ∈ Layout.names fs := by
        rcases List.mem_cons.mp hn with h | h
        · exact absurd h.symm hname
        · exact h
      exact extract_pack h2 hd.2 hvs hn' _

/-- `extract_pack` with nothing above the layout's top. -/
theorem extract_pack' {v : FieldName → Nat} {l : Layout} {top : Nat} (ht : l.tiles top = true)
    (hd : l.names.Nodup) (hv : ∀ f ∈ l, v f.name < 2 ^ f.width) {n : FieldName} (hn : n ∈ l.names) :
    extract l n (pack l v) = v n := by
  have := extract_pack ht hd hv hn 0
  rwa [Nat.zero_mul, Nat.zero_add] at this

/-- An extracted field fits its width. -/
theorem extract_lt (W : Word) (n : FieldName) : ∀ l : Layout, extract l n W < 2 ^ l.width n
  | [] => by simp [extract]
  | f :: fs => by
    unfold extract Layout.width
    split
    · exact Nat.mod_lt _ (Nat.two_pow_pos _)
    · exact extract_lt W n fs

/-- The field of a layout with distinct names that a member of it is. -/
theorem extract_of_mem {f : Field} {W : Word} :
    ∀ {l : Layout}, l.names.Nodup → f ∈ l → extract l f.name W = (W >>> f.offset) % 2 ^ f.width
  | [], _, h => by simp at h
  | g :: l, hd, h => by
    rw [Layout.names, List.map_cons, List.nodup_cons] at hd
    unfold extract
    rcases List.mem_cons.mp h with h | h
    · subst h; rw [if_pos rfl]
    · have hne : g.name ≠ f.name := fun hg => hd.1 (hg ▸ List.mem_map_of_mem (f := Field.name) h)
      rw [if_neg hne]
      exact extract_of_mem hd.2 h

theorem width_of_mem {f : Field} :
    ∀ {l : Layout}, l.names.Nodup → f ∈ l → l.width f.name = f.width
  | [], _, h => by simp at h
  | g :: l, hd, h => by
    rw [Layout.names, List.map_cons, List.nodup_cons] at hd
    unfold Layout.width
    rcases List.mem_cons.mp h with h | h
    · subst h; rw [if_pos rfl]
    · have hne : g.name ≠ f.name := fun hg => hd.1 (hg ▸ List.mem_map_of_mem (f := Field.name) h)
      rw [if_neg hne]
      exact width_of_mem hd.2 h

theorem pack_congr {v v' : FieldName → Nat} :
    ∀ {l : Layout}, (∀ f ∈ l, v f.name = v' f.name) → pack l v = pack l v'
  | [], _ => rfl
  | f :: fs, h => by
    rw [pack_cons, pack_cons, h f List.mem_cons_self, pack_congr fun g hg => h g (List.mem_cons_of_mem _ hg)]

/-- Packing the extracted fields of a word gives the word's bits below the top back (R92). -/
theorem pack_extract_mod {W : Word} :
    ∀ {l : Layout} {top : Nat}, l.tiles top = true → l.names.Nodup →
      pack l (fun n => extract l n W) = W % 2 ^ top
  | [], top, ht, _ => by
    have h : top = 0 := by simpa [Layout.tiles] using ht
    subst h; simp [pack, Nat.mod_one]
  | f :: fs, top, ht, hd => by
    obtain ⟨h1, h2⟩ := tiles_cons ht
    have hd' := hd
    rw [Layout.names, List.map_cons, List.nodup_cons] at hd
    have hvs : ∀ g ∈ fs, extract (f :: fs) g.name W < 2 ^ g.width := fun g hg => by
      rw [extract_of_mem hd' (List.mem_cons_of_mem _ hg)]
      exact Nat.mod_lt _ (Nat.two_pow_pos _)
    rw [pack_cons_eq_add ht hvs]
    have htail : pack fs (fun n => extract (f :: fs) n W) = W % 2 ^ f.offset := by
      rw [← pack_extract_mod h2 hd.2]
      refine pack_congr fun g hg => ?_
      rw [extract_of_mem hd' (List.mem_cons_of_mem _ hg), extract_of_mem hd.2 hg]
    rw [htail, extract_of_mem hd' List.mem_cons_self, Nat.shiftRight_eq_div_pow, ← h1, Nat.pow_add,
      Nat.mod_mul, Nat.mul_comm, Nat.add_comm]

/-! ## Overflow policy -/

/-- Whatever `fit` answers fits the field. -/
theorem fit_lt {p : Overflow} {v : Int} {w n : Nat} (h : fit p v w = .ok n) : n < 2 ^ w := by
  have hpos : (0 : Int) < 2 ^ w := by positivity
  cases p with
  | reject =>
    simp only [fit] at h
    split at h
    · cases h
    · next hv =>
      rw [not_or, not_lt, not_le] at hv
      cases h
      have : ((v.toNat : Int)) < 2 ^ w := by rw [Int.toNat_of_nonneg hv.1]; exact hv.2
      exact_mod_cast this
  | truncate =>
    simp only [fit] at h
    cases h
    have h0 := Int.emod_nonneg v hpos.ne'
    have h1 := Int.emod_lt_of_pos v hpos
    have : (((v % 2 ^ w).toNat : Int)) < 2 ^ w := by rw [Int.toNat_of_nonneg h0]; exact h1
    exact_mod_cast this

theorem inField_iff {v : Int} {w : Nat} : inField v w = true ↔ 0 ≤ v ∧ v < 2 ^ w := by
  simp [inField]

/-- A value in range is stored as it is, under either policy. -/
theorem fit_of_inField {p : Overflow} {v : Int} {w : Nat} (h : inField v w = true) :
    fit p v w = .ok v.toNat := by
  obtain ⟨h0, h1⟩ := inField_iff.mp h
  cases p with
  | reject =>
    simp only [fit]
    rw [if_neg]
    rw [not_or, not_lt, not_le]
    exact ⟨h0, h1⟩
  | truncate => simp only [fit]; rw [Int.emod_eq_of_lt h0 h1]

theorem fit_natCast {p : Overflow} {n w : Nat} (h : n < 2 ^ w) : fit p (n : Int) w = .ok n := by
  have h' : inField (n : Int) w = true := inField_iff.mpr ⟨by omega, by exact_mod_cast h⟩
  rw [fit_of_inField h', Int.toNat_natCast]

/-- `fit` fails only with `FieldOverflow`, only under `reject`, only out of range. -/
theorem fit_error {p : Overflow} {v : Int} {w : Nat} {e : ErrorKind} (h : fit p v w = .error e) :
    e = .fieldOverflow ∧ p = .reject ∧ (v < 0 ∨ 2 ^ w ≤ v) := by
  cases p with
  | reject =>
    simp only [fit] at h
    split at h
    · next hv => cases h; exact ⟨rfl, rfl, hv⟩
    · cases h
  | truncate => simp [fit] at h

theorem fit_reject_ok {v : Int} {w n : Nat} (h : fit .reject v w = .ok n) : (n : Int) = v := by
  simp only [fit] at h
  split at h
  · cases h
  · next hv =>
    rw [not_or, not_lt, not_le] at hv
    cases h
    exact Int.toNat_of_nonneg hv.1

/-! ## Hexadecimal -/

theorem hexValue_hexDigit : ∀ d < 16, hexValue? (hexDigit d) = some d := by decide

theorem hexChars_length (n v : Nat) : (hexChars n v).length = n := by simp [hexChars]

/-- The digits of a number, first digit first. -/
theorem hexChars_succ (n v : Nat) :
    hexChars (n + 1) v = hexDigit (v / 16 ^ n % 16) :: hexChars n v := by
  unfold hexChars
  rw [List.range_succ_eq_map, List.map_cons, List.map_map]
  congr 1
  · simp only [slice, Nat.shiftRight_eq_div_pow]
    have h1 : 4 * (n + 1 - 1 - 0) = 4 * n := by omega
    have h2 : 4 * n + 3 + 1 - 4 * n = 4 := by omega
    rw [h1, h2, Nat.pow_mul]; rfl
  · refine List.map_congr_left fun i _ => ?_
    have h1 : n + 1 - 1 - i.succ = n - 1 - i := by omega
    simp only [Function.comp, h1]

/-- Reading the `n` digits of `v` appends `v mod 16^n` to the value read so far. -/
theorem readDigits_hexChars (v : Nat) : ∀ n acc : Nat,
    readDigits hexValue? 16 acc (hexChars n v) = .ok (acc * 16 ^ n + v % 16 ^ n)
  | 0, acc => by simp [hexChars, readDigits, Nat.mod_one]
  | n + 1, acc => by
    rw [hexChars_succ]
    unfold readDigits
    rw [hexValue_hexDigit _ (Nat.mod_lt _ (by decide))]
    simp only
    rw [readDigits_hexChars v n]
    congr 1
    rw [Nat.pow_succ, Nat.mod_mul]
    ring

/-- The hex string of a word parses back to the word (R93, R94). -/
theorem parseHex_renderHex {n : Nat} {W : Word} (h : W < 16 ^ n) :
    parseHex n (renderHex n W) = .ok W := by
  unfold parseHex renderHex
  rw [if_pos (hexChars_length n W), readDigits_hexChars, Nat.zero_mul, Nat.zero_add,
    Nat.mod_eq_of_lt h]

theorem readDigits_error {digit? : Char → Option Nat} {base : Nat} {e : ErrorKind} :
    ∀ {t : Text} {acc : Nat}, readDigits digit? base acc t = .error e → e = .malformedInstruction
  | [], _, h => by simp [readDigits] at h
  | c :: cs, acc, h => by
    unfold readDigits at h
    split at h
    · cases h; rfl
    · exact readDigits_error h

theorem parseHex_error {n : Nat} {h : Text} {e : ErrorKind} (he : parseHex n h = .error e) :
    e = .malformedInstruction := by
  unfold parseHex at he
  split at he
  · exact readDigits_error he
  · cases he; rfl

theorem readDigits_lt {digit? : Char → Option Nat} {base : Nat}
    (hd : ∀ c d, digit? c = some d → d < base) :
    ∀ {t : Text} {acc v : Nat}, readDigits digit? base acc t = .ok v →
      v < (acc + 1) * base ^ t.length
  | [], acc, v, h => by
    simp only [readDigits] at h
    cases h
    simp
  | c :: cs, acc, v, h => by
    unfold readDigits at h
    split at h
    · cases h
    · next d hc =>
      have hdb := hd c d hc
      have ih := readDigits_lt hd h
      refine lt_of_lt_of_le ih ?_
      rw [List.length_cons, Nat.pow_succ, Nat.mul_comm (base ^ _) base, ← Nat.mul_assoc]
      refine Nat.mul_le_mul_right _ ?_
      nlinarith

theorem hexValue_lt (c : Char) (d : Nat) (h : hexValue? c = some d) : d < 16 := by
  simp only [hexValue?] at h
  split at h
  · cases h; omega
  · split at h
    · cases h; omega
    · split at h
      · cases h; omega
      · cases h

/-- A parsed word fits `4 * digits` bits. -/
theorem parseHex_lt {n : Nat} {h : Text} {W : Word} (hp : parseHex n h = .ok W) : W < 2 ^ (4 * n) := by
  unfold parseHex at hp
  split at hp
  · next hl =>
    have := readDigits_lt hexValue_lt hp
    rw [hl] at this
    rw [Nat.pow_mul]
    simpa using this
  · cases hp

end Sys2Proof
end

