-- ==== Sys2Proof/Laws/State.lean ====
section
/-!
SUPPORT. One lemma per field per update of the state.
-/

namespace Sys2Proof.Machine

@[simp] theorem State.answer_cfg (s : State) (r : Request) (a : Response) :
    (s.answer r a).cfg = s.cfg := rfl
@[simp] theorem State.answer_requests (s : State) (r : Request) (a : Response) :
    (s.answer r a).requests = s.requests.tail := rfl
@[simp] theorem State.answer_exchanges (s : State) (r : Request) (a : Response) :
    (s.answer r a).exchanges = s.exchanges ++ [(r, a)] := rfl

@[simp] theorem State.raise_cfg (s : State) (r : Request) (e : ErrorKind) :
    (s.raise r e).cfg = s.cfg := rfl
@[simp] theorem State.raise_requests (s : State) (r : Request) (e : ErrorKind) :
    (s.raise r e).requests = s.requests.tail := rfl
@[simp] theorem State.raise_exchanges (s : State) (r : Request) (e : ErrorKind) :
    (s.raise r e).exchanges = s.exchanges ++ [(r, .err e)] := rfl

@[simp] theorem State.issue_cfg (s : State) (r : Request) : (s.issue r).cfg = s.cfg := rfl
@[simp] theorem State.issue_requests (s : State) (r : Request) :
    (s.issue r).requests = s.requests ++ [r] := rfl
@[simp] theorem State.issue_exchanges (s : State) (r : Request) :
    (s.issue r).exchanges = s.exchanges := rfl

@[simp] theorem State.finish_ok (s : State) (r : Request) (out : Text) :
    s.finish r (.ok out) = s.answer r (.ok out) := rfl
@[simp] theorem State.finish_error (s : State) (r : Request) (e : ErrorKind) :
    s.finish r (.error e) = s.answer r (.err e) := rfl
@[simp] theorem State.finish_cfg (s : State) (r : Request) (res : Except ErrorKind Text) :
    (s.finish r res).cfg = s.cfg := by cases res <;> rfl
@[simp] theorem State.finish_requests (s : State) (r : Request) (res : Except ErrorKind Text) :
    (s.finish r res).requests = s.requests.tail := by cases res <;> rfl

@[simp] theorem State.withFetchWord_cfg (s : State) (nbits w : Nat) :
    (s.withFetchWord nbits w).cfg = s.cfg := rfl
@[simp] theorem State.withFetchWord_exchanges (s : State) (nbits w : Nat) :
    (s.withFetchWord nbits w).exchanges = s.exchanges := rfl

@[simp] theorem responseOf_ok (out : Text) : responseOf (.ok out) = .ok out := rfl
@[simp] theorem responseOf_error (e : ErrorKind) : responseOf (.error e) = .err e := rfl

/-- Whatever a translation comes to, the request ends with its response and nothing else changes. -/
theorem State.finish_eq_answer (s : State) (r : Request) (res : Except ErrorKind Text) :
    s.finish r res = s.answer r (responseOf res) := by cases res <;> rfl

/-- `respond` is the input side followed by the output side. -/
theorem respond_of_parse_ok {c : Config} {r : Request} {a : AbstractInstr}
    (h : parseRequest c r = .ok a) : respond c r = responseOf (outputOf c a r) := by
  unfold respond
  rw [h]

theorem respond_of_parse_error {c : Config} {r : Request} {e : ErrorKind}
    (h : parseRequest c r = .error e) : respond c r = .err e := by
  unfold respond
  rw [h]

end Sys2Proof.Machine
end

