-- ==== Sys2Proof/Laws/Exec.lean ====
section
/-!
SUPPORT. What `translate`, `exec` and `step` can do, said once; rows of the opcode table and abstract
instructions correspond.
-/

namespace Sys2Proof.Machine

/-- Every meaning is `translate` at the instruction's abstract form. -/
theorem exec_eq_translate (i : Instr) (s : State) : exec i s = translate i.toAbstract s := by
  cases i <;> rfl

theorem translate_nil {a : AbstractInstr} {s : State} (h : s.requests = []) :
    translate a s = .next s := by
  unfold translate
  rw [h]

/-- With a request in progress `translate` ends it with the translation's response. -/
theorem translate_cons {a : AbstractInstr} {s : State} {r : Request} {rest : List Request}
    (h : s.requests = r :: rest) :
    translate a s = .next (s.answer r (responseOf (outputOf s.cfg a r))) := by
  unfold translate
  rw [h]
  simp only [State.finish_eq_answer]

theorem findRow_mem {α : Type} {m : Text} {a : α} :
    ∀ {rows : List (Text × α)}, findRow m rows = some a → (m, a) ∈ rows
  | [], h => by simp [findRow] at h
  | (k, b) :: rows, h => by
    unfold findRow at h
    split at h
    · next hk => subst hk; cases h; simp
    · exact List.mem_cons_of_mem _ (findRow_mem h)

/-- A row's abstract form is the abstract instruction it was found for. -/
theorem toAbstract_of_toInstr {a : AbstractInstr} {i : Instr} (h : a.toInstr = some i) :
    i.toAbstract = a := by
  cases a <;> simp only [AbstractInstr.toInstr, Option.map_eq_some_iff] at h
  case noOperand m =>
    have hm := findRow_mem h
    simp only [noOperandRows, List.mem_singleton, Prod.mk.injEq] at hm
    obtain ⟨rfl, rfl⟩ := hm
    rfl
  all_goals
    obtain ⟨r, hr, rfl⟩ := h
    have hm := findRow_mem hr
    simp only [r3Rows, rShiftRows, iTypeRows, jTypeRows, singleTargetRows, regRegRows, immRegRows,
      loadStoreRows, List.mem_cons, Prod.mk.injEq, List.not_mem_nil, or_false] at hm
    (repeat' (refine Or.elim hm ?_ ?_ <;> clear hm <;> intro hm)) <;> (obtain ⟨rfl, rfl⟩ := hm; rfl)

/-- A step with no request leaves the codec as it is. -/
theorem step_nil {s : State} (h : s.requests = []) : step s = .next s := by
  unfold step
  rw [h]

/-- A step whose request does not parse raises the error. -/
theorem step_parse_error {s : State} {r : Request} {rest : List Request} {e : ErrorKind}
    (h : s.requests = r :: rest) (he : parseRequest s.cfg r = .error e) :
    step s = .next (s.answer r (.err e)) := by
  unfold step
  rw [h]
  simp only [he]
  rfl

/-- A step whose request parses to the abstract instruction `a` translates `a`. -/
theorem step_parse_ok {s : State} {r : Request} {rest : List Request} {a : AbstractInstr}
    (h : s.requests = r :: rest) (ha : parseRequest s.cfg r = .ok a) : step s = translate a s := by
  unfold step
  rw [h]
  simp only [ha]
  cases hi : a.toInstr with
  | none => rfl
  | some i => simp only [exec_eq_translate, toAbstract_of_toInstr hi]

end Sys2Proof.Machine
end

