-- ==== Sys2Proof/Laws/Lookup.lean ====
section
/-!
SUPPORT. What the scans of the symbol tables can answer (40_symbol_tables.md).
-/

namespace Sys2Proof

theorem mem_keys {k : Text} {v : Nat} {T : Table} (h : (k, v) ∈ T) : k ∈ T.keys :=
  List.mem_map.mpr ⟨(k, v), h, rfl⟩

theorem mem_values {k : Text} {v : Nat} {T : Table} (h : (k, v) ∈ T) : v ∈ T.values :=
  List.mem_map.mpr ⟨(k, v), h, rfl⟩

theorem exists_mem_of_key {k : Text} {T : Table} (h : k ∈ T.keys) : ∃ v, (k, v) ∈ T := by
  obtain ⟨⟨k', v⟩, hm, rfl⟩ := List.mem_map.mp h
  exact ⟨v, hm⟩

theorem exists_mem_of_value {v : Nat} {T : Table} (h : v ∈ T.values) : ∃ k, (k, v) ∈ T := by
  obtain ⟨⟨k, v'⟩, hm, rfl⟩ := List.mem_map.mp h
  exact ⟨k, hm⟩

theorem lookup_mem {e : ErrorKind} {k : Text} {v : Nat} :
    ∀ {T : Table}, lookup e k T = .ok v → (k, v) ∈ T
  | [], h => by simp [lookup] at h
  | (k', v') :: T, h => by
    unfold lookup at h
    split at h
    · next hk => subst hk; cases h; simp
    · exact List.mem_cons_of_mem _ (lookup_mem h)

theorem lookup_of_mem {e : ErrorKind} {k : Text} {v : Nat} :
    ∀ {T : Table}, T.keys.Nodup → (k, v) ∈ T → lookup e k T = .ok v
  | [], _, h => by simp at h
  | (k', v') :: T, hd, h => by
    rw [Table.keys, List.map_cons, List.nodup_cons] at hd
    unfold lookup
    rcases List.mem_cons.mp h with h | h
    · cases h; simp
    · have hne : k' ≠ k := fun hk => hd.1 (hk ▸ mem_keys h)
      rw [if_neg hne]
      exact lookup_of_mem hd.2 h

/-- With distinct keys a forward lookup answers exactly the pairs of the table. -/
theorem lookup_eq_ok_iff {e : ErrorKind} {k : Text} {v : Nat} {T : Table} (hd : T.keys.Nodup) :
    lookup e k T = .ok v ↔ (k, v) ∈ T := ⟨lookup_mem, lookup_of_mem hd⟩

theorem lookup_error {e e' : ErrorKind} {k : Text} :
    ∀ {T : Table}, lookup e k T = .error e' → e' = e ∧ k ∉ T.keys
  | [], h => by cases h; simp
  | (k', v') :: T, h => by
    unfold lookup at h
    split at h
    · cases h
    · next hk =>
      obtain ⟨h1, h2⟩ := lookup_error h
      exact ⟨h1, by simp only [Table.keys, List.map_cons, List.mem_cons, not_or]; exact ⟨fun h => hk h.symm, h2⟩⟩

theorem lookup_of_not_mem {e : ErrorKind} {k : Text} :
    ∀ {T : Table}, k ∉ T.keys → lookup e k T = .error e
  | [], _ => rfl
  | (k', v') :: T, h => by
    simp only [Table.keys, List.map_cons, List.mem_cons, not_or] at h
    unfold lookup
    rw [if_neg (fun hk => h.1 hk.symm)]
    exact lookup_of_not_mem h.2

theorem lookup_ok_of_key {e : ErrorKind} {k : Text} {T : Table} (h : k ∈ T.keys) :
    ∃ v, lookup e k T = .ok v ∧ (k, v) ∈ T := by
  cases hl : lookup e k T with
  | error e' => exact absurd h (lookup_error hl).2
  | ok v => exact ⟨v, rfl, lookup_mem hl⟩

theorem reverseLookup_mem {c : Nat} {k : Text} :
    ∀ {T : Table}, reverseLookup c T = .ok k → (k, c) ∈ T
  | [], h => by simp [reverseLookup] at h
  | (k', v') :: T, h => by
    unfold reverseLookup at h
    split at h
    · next hk => subst hk; cases h; simp
    · exact List.mem_cons_of_mem _ (reverseLookup_mem h)

theorem reverseLookup_error {c : Nat} {e : ErrorKind} :
    ∀ {T : Table}, reverseLookup c T = .error e → e = .unknownEncoding ∧ c ∉ T.values
  | [], h => by cases h; simp
  | (k', v') :: T, h => by
    unfold reverseLookup at h
    split at h
    · cases h
    · next hk =>
      obtain ⟨h1, h2⟩ := reverseLookup_error h
      exact ⟨h1, by simp only [Table.values, List.map_cons, List.mem_cons, not_or]; exact ⟨fun h => hk h.symm, h2⟩⟩

theorem reverseLookup_of_not_mem {c : Nat} :
    ∀ {T : Table}, c ∉ T.values → reverseLookup c T = .error .unknownEncoding
  | [], _ => rfl
  | (k', v') :: T, h => by
    simp only [Table.values, List.map_cons, List.mem_cons, not_or] at h
    unfold reverseLookup
    rw [if_neg (fun hk => h.1 hk.symm)]
    exact reverseLookup_of_not_mem h.2

/-- Where only one key has the value, the reverse lookup answers it. -/
theorem reverseLookup_of_unique {c : Nat} {k : Text} {T : Table} (hm : (k, c) ∈ T)
    (hu : ∀ k', (k', c) ∈ T → k' = k) : reverseLookup c T = .ok k := by
  cases h : reverseLookup c T with
  | error e =>
    exact absurd (mem_values hm) (reverseLookup_error h).2
  | ok k' => rw [hu k' (reverseLookup_mem h)]

theorem eq_of_values_nodup {k k' : Text} {c : Nat} :
    ∀ {T : Table}, T.values.Nodup → (k, c) ∈ T → (k', c) ∈ T → k' = k
  | [], _, h, _ => by simp at h
  | (k0, v0) :: T, hd, h, h' => by
    rw [Table.values, List.map_cons, List.nodup_cons] at hd
    have hd1 : v0 ∉ Table.values T := hd.1
    rcases List.mem_cons.mp h with e | e <;> rcases List.mem_cons.mp h' with e' | e'
    · cases e; cases e'; rfl
    · cases e; exact absurd (mem_values e') hd1
    · cases e'; exact absurd (mem_values e) hd1
    · exact eq_of_values_nodup hd.2 e e'

/-- In an injective table the reverse lookup inverts every pair (R76). -/
theorem reverseLookup_of_nodup {c : Nat} {k : Text} {T : Table} (hd : T.values.Nodup)
    (hm : (k, c) ∈ T) : reverseLookup c T = .ok k :=
  reverseLookup_of_unique hm fun _ h => eq_of_values_nodup hd hm h

/-- Injectivity away from 0 is enough for a value that is not 0 (R19 point 4, `OPC_M`). -/
theorem reverseLookup_of_filter_nodup {c : Nat} {k : Text} :
    ∀ {T : Table}, (T.values.filter (fun v => decide (v ≠ 0))).Nodup → c ≠ 0 → (k, c) ∈ T →
      reverseLookup c T = .ok k
  | [], _, _, h => by simp at h
  | (k', v') :: T, hd, hc, hm => by
    unfold reverseLookup
    by_cases hv : v' = c
    · rw [if_pos hv]
      rcases List.mem_cons.mp hm with h | h
      · cases h; rfl
      · exfalso
        subst hv
        have hv0 : decide (v' ≠ 0) = true := by simpa using hc
        simp only [Table.values, List.map_cons, List.filter_cons, hv0, if_true, List.nodup_cons] at hd
        exact hd.1 (List.mem_filter.mpr ⟨mem_values h, hv0⟩)
    · rw [if_neg hv]
      have hm' : (k, c) ∈ T := by
        rcases List.mem_cons.mp hm with h | h
        · cases h; exact absurd rfl hv
        · exact h
      refine reverseLookup_of_filter_nodup ?_ hc hm'
      simp only [Table.values, List.map_cons, List.filter_cons] at hd
      split at hd
      · exact (List.nodup_cons.mp hd).2
      · exact hd

end Sys2Proof
end

