-- ==== Sys2Proof/Laws/Text.lean ====
section
/-!
SUPPORT. The text side: the tokeniser, numerals in and out, and the operand forms
(43_facade_text.md rules R105 to R115).
-/

namespace Sys2Proof.Machine

/-! ## Tokens -/

/-- No whitespace and no comma in the text. -/
def Solid (t : Text) : Prop := ∀ c ∈ t, isSpace c = false ∧ c ≠ ','

/-- A text the tokeniser can answer with: not empty, without whitespace or comma. -/
def IsToken (t : Text) : Prop := t ≠ [] ∧ Solid t

theorem Solid.nil : Solid [] := fun _ h => by simp at h

theorem Solid.append {a b : Text} (ha : Solid a) (hb : Solid b) : Solid (a ++ b) := fun c hc => by
  rcases List.mem_append.mp hc with h | h
  · exact ha c h
  · exact hb c h

theorem Solid.cons {c : Char} {t : Text} (hc : isSpace c = false ∧ c ≠ ',') (ht : Solid t) :
    Solid (c :: t) := fun d hd => by
  rcases List.mem_cons.mp hd with h | h
  · exact h ▸ hc
  · exact ht d h

theorem filter_solid {t : Text} (h : Solid t) : t.filter (fun c => decide (c ≠ ',')) = t :=
  List.filter_eq_self.mpr fun c hc => by simpa using (h c hc).2

theorem splitRuns_cons (run : Text) (c : Char) (cs : Text) : splitRuns run (c :: cs) =
    if isSpace c then flush run ++ splitRuns [] cs else splitRuns (run ++ [c]) cs := rfl

theorem splitRuns_solid : ∀ {t run : Text}, (∀ c ∈ t, isSpace c = false) →
    splitRuns run t = flush (run ++ t)
  | [], run, _ => by simp [splitRuns]
  | c :: t, run, h => by
    unfold splitRuns
    rw [if_neg (by simp [h c List.mem_cons_self]), splitRuns_solid fun d hd => h d (List.mem_cons_of_mem _ hd)]
    simp

theorem splitRuns_solid_space : ∀ {t run rest : Text} {sp : Char}, (∀ c ∈ t, isSpace c = false) →
    isSpace sp = true → splitRuns run (t ++ sp :: rest) = flush (run ++ t) ++ splitRuns [] rest
  | [], run, rest, sp, _, hs => by
    simp [splitRuns, hs]
  | c :: t, run, rest, sp, h, hs => by
    rw [List.cons_append, splitRuns_cons, if_neg (by simp [h c List.mem_cons_self]),
      splitRuns_solid_space (fun d hd => h d (List.mem_cons_of_mem _ hd)) hs]
    simp

/-- Leading whitespace produces no token. -/
theorem splitRuns_spaces : ∀ {sp rest : Text}, (∀ c ∈ sp, isSpace c = true) →
    splitRuns [] (sp ++ rest) = splitRuns [] rest
  | [], rest, _ => rfl
  | c :: sp, rest, h => by
    rw [List.cons_append, splitRuns_cons, if_pos (h c List.mem_cons_self), splitRuns_spaces fun d hd => h d (List.mem_cons_of_mem _ hd)]
    simp [flush]

theorem flush_token {t : Text} (h : t ≠ []) : flush t = [t] := by simp [flush, h]

theorem isToken_of_mem_splitRuns : ∀ {t run : Text}, (∀ c ∈ run, isSpace c = false) →
    ∀ {tok : Text}, tok ∈ splitRuns run t → tok ≠ [] ∧ (∀ c ∈ tok, isSpace c = false) ∧
      (∀ c ∈ tok, c ∈ run ∨ c ∈ t)
  | [], run, hr, tok, h => by
    simp only [splitRuns, flush] at h
    split at h
    · simp at h
    · next hne =>
      rw [List.mem_singleton] at h
      subst h
      exact ⟨hne, hr, fun c hc => .inl hc⟩
  | c :: t, run, hr, tok, h => by
    unfold splitRuns at h
    split at h
    · rcases List.mem_append.mp h with h | h
      · simp only [flush] at h
        split at h
        · simp at h
        · next hne =>
          rw [List.mem_singleton] at h
          subst h
          exact ⟨hne, hr, fun c hc => .inl hc⟩
      · obtain ⟨h1, h2, h3⟩ := isToken_of_mem_splitRuns (run := []) (by simp) h
        refine ⟨h1, h2, fun d hd => ?_⟩
        rcases h3 d hd with h' | h'
        · simp at h'
        · exact .inr (List.mem_cons_of_mem _ h')
    · next hc =>
      have hr' : ∀ d ∈ run ++ [c], isSpace d = false := fun d hd => by
        rcases List.mem_append.mp hd with h' | h'
        · exact hr d h'
        · rw [List.mem_singleton.mp h']; simpa using hc
      obtain ⟨h1, h2, h3⟩ := isToken_of_mem_splitRuns hr' h
      refine ⟨h1, h2, fun d hd => ?_⟩
      rcases h3 d hd with h' | h'
      · rcases List.mem_append.mp h' with h'' | h''
        · exact .inl h''
        · rw [List.mem_singleton.mp h'']; exact .inr List.mem_cons_self
      · exact .inr (List.mem_cons_of_mem _ h')

/-- Every token is not empty and holds no whitespace and no comma. -/
theorem isToken_of_mem_tokenize {text tok : Text} (h : tok ∈ tokenize text) : IsToken tok := by
  obtain ⟨h1, h2, h3⟩ := isToken_of_mem_splitRuns (run := []) (by simp) h
  refine ⟨h1, fun c hc => ⟨h2 c hc, ?_⟩⟩
  rcases h3 c hc with h' | h'
  · simp at h'
  · simpa using (List.mem_filter.mp h').2

theorem tokenize_word {m : Text} (hm : IsToken m) : tokenize m = [m] := by
  unfold tokenize
  rw [filter_solid hm.2, splitRuns_solid fun c hc => (hm.2 c hc).1]
  exact flush_token hm.1

/-- A token, a space, and the rest. -/
theorem tokenize_cons {m rest : Text} (hm : IsToken m) :
    tokenize (m ++ [' '] ++ rest) = m :: tokenize rest := by
  unfold tokenize
  rw [List.filter_append, List.filter_append, filter_solid hm.2, List.append_assoc]
  show splitRuns [] (m ++ ' ' :: _) = _
  rw [splitRuns_solid_space (fun c hc => (hm.2 c hc).1) (by decide), List.nil_append,
    flush_token hm.1]
  rfl

/-- A token, a comma and a space, and the rest. -/
theorem tokenize_sep {m rest : Text} (hm : IsToken m) :
    tokenize (m ++ sep ++ rest) = m :: tokenize rest := by
  unfold tokenize
  rw [List.filter_append, List.filter_append, filter_solid hm.2, List.append_assoc]
  show splitRuns [] (m ++ ' ' :: _) = _
  rw [splitRuns_solid_space (fun c hc => (hm.2 c hc).1) (by decide), List.nil_append,
    flush_token hm.1]
  rfl

/-! ## Numerals -/

theorem solid_hexDigit : ∀ d < 16, isSpace (hexDigit d) = false ∧ hexDigit d ≠ ',' ∧ hexDigit d ≠ '(' := by
  decide

theorem hexChars_mem {n v : Nat} {c : Char} (h : c ∈ hexChars n v) : ∃ d < 16, c = hexDigit d := by
  simp only [hexChars, List.mem_map, List.mem_range] at h
  obtain ⟨i, hi, rfl⟩ := h
  refine ⟨_, ?_, rfl⟩
  unfold slice
  have h2 : 4 * (n - 1 - i) + 3 + 1 - 4 * (n - 1 - i) = 4 := by omega
  rw [h2]
  exact Nat.mod_lt _ (by decide)

theorem lt_pow_hexLength (v : Nat) : v < 16 ^ hexLength v := by
  unfold hexLength
  have h1 : v < 2 ^ (Nat.log2 v + 1) := Nat.lt_log2_self
  refine lt_of_lt_of_le h1 ?_
  rw [show (16 : Nat) = 2 ^ 4 from rfl, ← Nat.pow_mul]
  exact Nat.pow_le_pow_right (by decide) (by omega)

theorem hexChars_hexLength_ne_nil (v : Nat) : hexChars (hexLength v) v ≠ [] := by
  intro h
  have := congrArg List.length h
  rw [hexChars_length] at this
  simp [hexLength] at this

/-- Rendering an unsigned number and reading it back. -/
theorem parseMagnitude_renderUnsigned (v : Nat) : parseMagnitude (renderUnsigned v) = .ok v := by
  unfold renderUnsigned parseMagnitude
  simp only [hexChars_hexLength_ne_nil, if_false]
  rw [readDigits_hexChars, Nat.zero_mul, Nat.zero_add, Nat.mod_eq_of_lt (lt_pow_hexLength v)]

theorem parseNumeral_renderUnsigned (v : Nat) : parseNumeral (renderUnsigned v) = .ok (v : Int) := by
  have h : parseNumeral (renderUnsigned v) = (parseMagnitude (renderUnsigned v)).bind fun w => .ok (w : Int) := rfl
  rw [h, parseMagnitude_renderUnsigned]
  rfl

theorem renderUnsigned_chars {v : Nat} {c : Char} (h : c ∈ renderUnsigned v) :
    isSpace c = false ∧ c ≠ ',' ∧ c ≠ '(' := by
  unfold renderUnsigned at h
  rcases List.mem_cons.mp h with h | h
  · subst h; decide
  · rcases List.mem_cons.mp h with h | h
    · subst h; decide
    · obtain ⟨d, hd, rfl⟩ := hexChars_mem h
      exact solid_hexDigit d hd

theorem renderNumeral_chars {v : Int} {c : Char} (h : c ∈ renderNumeral v) :
    isSpace c = false ∧ c ≠ ',' ∧ c ≠ '(' := by
  unfold renderNumeral at h
  split at h
  · rcases List.mem_cons.mp h with h | h
    · subst h; decide
    · exact renderUnsigned_chars h
  · exact renderUnsigned_chars h

theorem renderNumeral_solid (v : Int) : Solid (renderNumeral v) := fun _ hc =>
  ⟨(renderNumeral_chars hc).1, (renderNumeral_chars hc).2.1⟩

theorem renderNumeral_ne_nil (v : Int) : renderNumeral v ≠ [] := by
  unfold renderNumeral renderUnsigned
  split <;> simp

theorem renderNumeral_isToken (v : Int) : IsToken (renderNumeral v) :=
  ⟨renderNumeral_ne_nil v, renderNumeral_solid v⟩

theorem renderNumeral_natCast (v : Nat) : renderNumeral (v : Int) = renderUnsigned v := by
  unfold renderNumeral
  rw [if_neg (by omega), Int.natAbs_natCast]

theorem parseMagnitude_error {t : Text} {e : ErrorKind} (h : parseMagnitude t = .error e) :
    e = .malformedInstruction := by
  unfold parseMagnitude at h
  split at h
  · cases h; rfl
  · split at h
    · cases h; rfl
    · exact readDigits_error h
  · split at h
    · cases h; rfl
    · exact readDigits_error h
  · exact readDigits_error h

/-- `parse_numeral` fails only with `MalformedInstruction` (R107). -/
theorem parseNumeral_error {t : Text} {e : ErrorKind} (h : parseNumeral t = .error e) :
    e = .malformedInstruction := by
  unfold parseNumeral at h
  split at h <;>
  · cases hm : parseMagnitude _ with
    | error e' => rw [hm] at h; cases h; exact parseMagnitude_error hm
    | ok v => rw [hm] at h; cases h

/-! ## Operand forms -/

theorem parseRegM_ok {c : ConfigM} {t : Text} {v : Nat} (h : parseRegM c t = .ok v) :
    t.head? = some '$' ∧ (t, v) ∈ c.reg := by
  unfold parseRegM at h
  split at h
  · exact ⟨rfl, Sys2Proof.lookup_mem h⟩
  · cases h

theorem parseRegM_of_mem {c : ConfigM} {t : Text} {v : Nat} (hd : c.reg.keys.Nodup)
    (hh : t.head? = some '$') (hm : (t, v) ∈ c.reg) : parseRegM c t = .ok v := by
  unfold parseRegM
  cases t with
  | nil => simp at hh
  | cons a t =>
    simp only [List.head?_cons, Option.some.injEq] at hh
    subst hh
    exact lookup_of_mem hd hm

theorem parseRegM_error {c : ConfigM} {t : Text} {e : ErrorKind} (h : parseRegM c t = .error e) :
    (e = .invalidOperandSyntax ∧ t.head? ≠ some '$') ∨
      (e = .unknownRegister ∧ t.head? = some '$' ∧ t ∉ c.reg.keys) := by
  unfold parseRegM at h
  split at h
  · obtain ⟨h1, h2⟩ := lookup_error h
    exact .inr ⟨h1, rfl, h2⟩
  · next hne =>
    cases h
    refine .inl ⟨rfl, fun hh => ?_⟩
    cases t with
    | nil => simp at hh
    | cons a t =>
      simp only [List.head?_cons, Option.some.injEq] at hh
      subst hh
      exact hne _ rfl

theorem parseRegS_ok {c : ConfigS} {t : Text} {v : Nat} (h : parseRegS c t = .ok v) :
    t.head? = some 'R' ∧ (t, v) ∈ c.reg := by
  unfold parseRegS at h
  split at h
  · exact ⟨rfl, Sys2Proof.lookup_mem h⟩
  · cases h

theorem parseRegS_of_mem {c : ConfigS} {t : Text} {v : Nat} (hd : c.reg.keys.Nodup)
    (hh : t.head? = some 'R') (hm : (t, v) ∈ c.reg) : parseRegS c t = .ok v := by
  unfold parseRegS
  cases t with
  | nil => simp at hh
  | cons a t =>
    simp only [List.head?_cons, Option.some.injEq] at hh
    subst hh
    exact lookup_of_mem hd hm

theorem parseRegS_error {c : ConfigS} {t : Text} {e : ErrorKind} (h : parseRegS c t = .error e) :
    (e = .invalidOperandSyntax ∧ t.head? ≠ some 'R') ∨
      (e = .unknownRegister ∧ t.head? = some 'R' ∧ t ∉ c.reg.keys) := by
  unfold parseRegS at h
  split at h
  · obtain ⟨h1, h2⟩ := lookup_error h
    exact .inr ⟨h1, rfl, h2⟩
  · next hne =>
    cases h
    refine .inl ⟨rfl, fun hh => ?_⟩
    cases t with
    | nil => simp at hh
    | cons a t =>
      simp only [List.head?_cons, Option.some.injEq] at hh
      subst hh
      exact hne _ rfl

/-- A memory operand of `M` as it is written: numeral, `(`, register, `)`. -/
theorem parseMemM_form {c : ConfigM} {num reg : Text} (hn : ∀ ch ∈ num, ch ≠ '(') :
    parseMemM c (num ++ ['('] ++ reg ++ [')']) =
      (parseNumeral num).bind fun imm => (parseRegM c reg).bind fun rs => .ok (imm, rs) := by
  have h1 : '(' ∈ num ++ ['('] ++ reg ++ [')'] := by simp
  have h2 : (num ++ ['('] ++ reg ++ [')']).getLast? = some ')' := List.getLast?_concat
  have hpos : ∀ ch ∈ num, decide (ch ≠ '(') = true := fun ch hc => by simpa using hn ch hc
  have h3 : (num ++ ['('] ++ reg ++ [')']).takeWhile (fun ch => decide (ch ≠ '(')) = num := by
    rw [List.append_assoc, List.append_assoc, List.takeWhile_append_of_pos hpos]
    simp
  have h4 : (num ++ ['('] ++ reg ++ [')']).dropWhile (fun ch => decide (ch ≠ '(')) =
      '(' :: (reg ++ [')']) := by
    rw [List.append_assoc, List.append_assoc, List.dropWhile_append_of_pos hpos]
    simp
  unfold parseMemM
  rw [if_pos ⟨h1, h2⟩, h3, h4]
  simp only [List.tail_cons, List.dropLast_concat]
  rfl

/-- A text with a `(` that ends in `)` is numeral part, `(`, register part, `)`. -/
theorem parenthesised_split {t : Text} (h1 : '(' ∈ t) (h2 : t.getLast? = some ')') :
    t = t.takeWhile (fun ch => decide (ch ≠ '(')) ++ ['('] ++
      (t.dropWhile fun ch => decide (ch ≠ '(')).tail.dropLast ++ [')'] := by
  have hsplit := List.takeWhile_append_dropWhile (p := fun ch => decide (ch ≠ '(')) (l := t)
  cases hd : t.dropWhile (fun ch => decide (ch ≠ '(')) with
  | nil =>
    have := List.dropWhile_eq_nil_iff.mp hd '(' h1
    simp at this
  | cons a rest =>
    have ha : a = '(' := by
      have := List.head?_dropWhile_not (fun ch => decide (ch ≠ '(')) t
      rw [hd] at this
      simpa using this
    subst ha
    rw [hd] at hsplit
    have hne : rest ≠ [] := fun hr => by
      rw [← hsplit, hr, List.getLast?_concat] at h2
      simp at h2
    have hlast : rest.getLast hne = ')' := by
      rw [← hsplit, List.getLast?_append, List.getLast?_cons,
        List.getLast?_eq_getLast_of_ne_nil hne] at h2
      simpa using h2
    have hr : rest = rest.dropLast ++ [')'] := by
      conv_lhs => rw [← List.dropLast_concat_getLast hne, hlast]
    conv_lhs => rw [← hsplit, hr]
    simp

/-- What a memory operand that parses looks like. -/
theorem parseMemM_ok {c : ConfigM} {t : Text} {p : Int × Nat} (h : parseMemM c t = .ok p) :
    ∃ num reg, t = num ++ ['('] ++ reg ++ [')'] ∧ (∀ ch ∈ num, ch ≠ '(') ∧
      parseNumeral num = .ok p.1 ∧ parseRegM c reg = .ok p.2 := by
  unfold parseMemM at h
  split at h
  · next hc =>
    cases h1 : parseNumeral (t.takeWhile fun ch => decide (ch ≠ '(')) with
    | error e => rw [h1] at h; cases h
    | ok imm =>
      rw [h1] at h
      cases h2 : parseRegM c ((t.dropWhile fun ch => decide (ch ≠ '(')).tail.dropLast) with
      | error e => simp only [h2] at h; cases h
      | ok rs =>
        simp only [h2] at h
        cases h
        exact ⟨_, _, parenthesised_split hc.1 hc.2,
          fun ch hch => by simpa using List.mem_takeWhile_imp hch, h1, h2⟩
  · cases h

/-- An indirect operand of `S` as it is written: `[`, register, `]`. -/
theorem parseIndS_form {c : ConfigS} {reg : Text} :
    parseIndS c (['['] ++ reg ++ [']']) = parseRegS c reg := by
  have h1 : (['['] ++ reg ++ [']']).getLast? = some ']' := List.getLast?_concat
  unfold parseIndS
  rw [if_pos h1]
  simp

/-- What an indirect operand of shape `indirect` that parses looks like. -/
theorem parseIndS_ok {c : ConfigS} {t : Text} {v : Nat} (hs : t.head? = some '[')
    (h : parseIndS c t = .ok v) : ∃ reg, t = ['['] ++ reg ++ [']'] ∧ parseRegS c reg = .ok v := by
  unfold parseIndS at h
  split at h
  · next hl =>
    cases t with
    | nil => simp at hs
    | cons a rest =>
      simp only [List.head?_cons, Option.some.injEq] at hs
      subst hs
      have hne : rest ≠ [] := fun hr => by subst hr; simp at hl
      have hlast : rest.getLast hne = ']' := by
        rw [List.getLast?_cons, List.getLast?_eq_getLast_of_ne_nil hne] at hl
        simpa using hl
      refine ⟨rest.dropLast, ?_, h⟩
      conv_lhs => rw [← List.dropLast_concat_getLast hne, hlast]
      simp
  · cases h

theorem shape_eq_register {t : Text} : shape t = .register ↔ t.head? = some 'R' := by
  unfold shape
  split <;> simp_all [List.head?_eq_some_iff]

theorem shape_eq_immediate {t : Text} : shape t = .immediate ↔ t.head? = some '#' := by
  unfold shape
  split <;> simp_all [List.head?_eq_some_iff]

theorem shape_eq_indirect {t : Text} : shape t = .indirect ↔ t.head? = some '[' := by
  unfold shape
  split <;> simp_all [List.head?_eq_some_iff]

end Sys2Proof.Machine
end

