-- ==== Sys2Proof/Laws/Parse.lean ====
section
/-!
SUPPORT. What the text side of `assemble` can answer, said once: `parseM` and `parseS` answer an abstract
instruction exactly on the token lists written for it here (43_facade_text.md rules R116, R117).
-/

namespace Sys2Proof

/-- A sequence of two steps succeeds exactly when both do. -/
theorem bind_eq_ok {ε α β : Type} {x : Except ε α} {f : α → Except ε β} {b : β} :
    (x >>= f) = .ok b ↔ ∃ a, x = .ok a ∧ f a = .ok b := by
  cases x with
  | error e => exact ⟨fun h => (nomatch h), fun ⟨_, h, _⟩ => (nomatch h)⟩
  | ok a => exact ⟨fun h => ⟨a, rfl, h⟩, fun ⟨_, h, hf⟩ => by cases h; exact hf⟩

/-- A sequence of two steps fails with the first step's error, or else with the second's. -/
theorem bind_eq_error {ε α β : Type} {x : Except ε α} {f : α → Except ε β} {e : ε} :
    (x >>= f) = .error e ↔ x = .error e ∨ ∃ a, x = .ok a ∧ f a = .error e := by
  cases x with
  | error e' => exact ⟨fun h => .inl (by cases h; rfl), fun h => by
      rcases h with h | ⟨_, h, _⟩
      · cases h; rfl
      · cases h⟩
  | ok a => exact ⟨fun h => .inr ⟨a, rfl, h⟩, fun h => by
      rcases h with h | ⟨_, h, hf⟩
      · cases h
      · cases h; exact hf⟩

end Sys2Proof

namespace Sys2Proof.Machine

/-! ## The format of a mnemonic -/

/-- What `formatM` answers, and when (41_classifier.md rule R80). -/
theorem formatM_ok {c : ConfigM} {m : Text} {fmt : FormatM} (h : formatM c m = .ok fmt) :
    match fmt with
    | .r3 => (m, 0) ∈ c.opc ∧ m ∈ c.fn.keys ∧ m ∉ c.shiftList
    | .rShift => (m, 0) ∈ c.opc ∧ m ∈ c.fn.keys ∧ m ∈ c.shiftList
    | .iType => ∃ op, (m, op) ∈ c.opc ∧ op ≠ 0 ∧ op ∉ c.jumpCodes
    | .jType => ∃ op, (m, op) ∈ c.opc ∧ op ≠ 0 ∧ op ∈ c.jumpCodes := by
  unfold formatM at h
  obtain ⟨op, hop, h⟩ := bind_eq_ok.mp h
  have hmem := lookup_mem hop
  by_cases h0 : op = 0
  · subst h0
    rw [if_pos rfl] at h
    obtain ⟨fn, hfn, h⟩ := bind_eq_ok.mp h
    have hk := mem_keys (lookup_mem hfn)
    by_cases hs : m ∈ c.shiftList
    · rw [if_pos hs] at h; cases h; exact ⟨hmem, hk, hs⟩
    · rw [if_neg hs] at h; cases h; exact ⟨hmem, hk, hs⟩
  · rw [if_neg h0] at h
    by_cases hj : op ∈ c.jumpCodes
    · rw [if_pos hj] at h; cases h; exact ⟨op, hmem, h0, hj⟩
    · rw [if_neg hj] at h; cases h; exact ⟨op, hmem, h0, hj⟩

theorem formatM_r3 {c : ConfigM} {m : Text} (hd : c.opc.keys.Nodup) (h0 : (m, 0) ∈ c.opc)
    (hf : m ∈ c.fn.keys) (hs : m ∉ c.shiftList) : formatM c m = .ok .r3 := by
  obtain ⟨fn, hfn, _⟩ := lookup_ok_of_key (e := .unknownMnemonic) hf
  simp only [formatM, lookupOpcode, lookup_of_mem hd h0, lookupFunction, hfn, bind, Except.bind, if_true,
    hs, if_false]

theorem formatM_rShift {c : ConfigM} {m : Text} (hd : c.opc.keys.Nodup) (h0 : (m, 0) ∈ c.opc)
    (hf : m ∈ c.fn.keys) (hs : m ∈ c.shiftList) : formatM c m = .ok .rShift := by
  obtain ⟨fn, hfn, _⟩ := lookup_ok_of_key (e := .unknownMnemonic) hf
  simp only [formatM, lookupOpcode, lookup_of_mem hd h0, lookupFunction, hfn, bind, Except.bind, if_true,
    hs]

theorem formatM_iType {c : ConfigM} {m : Text} {op : Nat} (hd : c.opc.keys.Nodup) (h : (m, op) ∈ c.opc)
    (h0 : op ≠ 0) (hj : op ∉ c.jumpCodes) : formatM c m = .ok .iType := by
  simp only [formatM, lookupOpcode, lookup_of_mem hd h, bind, Except.bind, h0, hj, if_false]

theorem formatM_jType {c : ConfigM} {m : Text} {op : Nat} (hd : c.opc.keys.Nodup) (h : (m, op) ∈ c.opc)
    (h0 : op ≠ 0) (hj : op ∈ c.jumpCodes) : formatM c m = .ok .jType := by
  simp only [formatM, lookupOpcode, lookup_of_mem hd h, bind, Except.bind, h0, hj, if_false, if_true]

/-! ## Texts of `M` -/

/-- The tokens `toks` are a spelling of the instruction `a` of `M`. -/
def SpellsM (c : ConfigM) (toks : List Text) : AbstractInstr → Prop
  | .r3 m rd rs rt => formatM c m = .ok .r3 ∧ ∃ x y z, toks = [m, x, y, z] ∧
      parseRegM c x = .ok rd ∧ parseRegM c y = .ok rs ∧ parseRegM c z = .ok rt
  | .rShift m rd rt sh => formatM c m = .ok .rShift ∧ ∃ x y z, toks = [m, x, y, z] ∧
      parseRegM c x = .ok rd ∧ parseRegM c y = .ok rt ∧ parseNumeral z = .ok sh
  | .iType m rt rs imm => formatM c m = .ok .iType ∧
      ((m ∉ c.memList ∧ ∃ x y z, toks = [m, x, y, z] ∧
        parseRegM c x = .ok rt ∧ parseRegM c y = .ok rs ∧ parseNumeral z = .ok imm) ∨
       (m ∈ c.memList ∧ ∃ x y, toks = [m, x, y] ∧
        parseRegM c x = .ok rt ∧ parseMemM c y = .ok (imm, rs)))
  | .jType m tg => formatM c m = .ok .jType ∧ ∃ x, toks = [m, x] ∧ parseNumeral x = .ok tg
  | .noOperand _ | .singleTarget .. | .regReg .. | .immReg .. | .loadStore .. => False

/-- `classify_encode` of `M` answers the mnemonic's format when the count is that of the format (R80). -/
theorem classifyEncodeM_eq_ok {c : ConfigM} {m : Text} {ops : List Text} {fmt : FormatM} :
    classifyEncodeM c m ops = .ok fmt ↔ formatM c m = .ok fmt ∧ ops.length = operandCountM c fmt m := by
  unfold classifyEncodeM
  rw [bind_eq_ok]
  constructor
  · rintro ⟨f, hf, h⟩
    split at h
    · next hl => cases h; exact ⟨hf, hl⟩
    · cases h
  · rintro ⟨hf, hl⟩
    exact ⟨fmt, hf, if_pos hl⟩

/-- Everything `parseM` can answer (R116). -/
theorem parseM_eq_ok {c : ConfigM} {text : Text} {a : AbstractInstr} :
    parseM c text = .ok a ↔ SpellsM c (tokenize text) a := by
  unfold parseM
  cases htok : tokenize text with
  | nil =>
    refine ⟨fun h => (nomatch h), fun h => ?_⟩
    cases a <;> simp [SpellsM] at h
  | cons m ops =>
    simp only [bind_eq_ok, classifyEncodeM_eq_ok]
    constructor
    · rintro ⟨fmt, ⟨hf, hl⟩, h⟩
      unfold parseOperandsM at h
      split at h
      · simp only [bind_eq_ok] at h
        obtain ⟨rd, h1, rs, h2, rt, h3, h⟩ := h
        cases h
        exact ⟨hf, _, _, _, rfl, h1, h2, h3⟩
      · simp only [bind_eq_ok] at h
        obtain ⟨rd, h1, rt, h2, sh, h3, h⟩ := h
        cases h
        exact ⟨hf, _, _, _, rfl, h1, h2, h3⟩
      · simp only [bind_eq_ok] at h
        obtain ⟨rt, h1, rs, h2, imm, h3, h⟩ := h
        cases h
        refine ⟨hf, .inl ⟨fun hm => ?_, _, _, _, rfl, h1, h2, h3⟩⟩
        simp [operandCountM, hm] at hl
      · simp only [bind_eq_ok] at h
        obtain ⟨rt, h1, p, h2, h⟩ := h
        cases h
        refine ⟨hf, .inr ⟨?_, _, _, rfl, h1, h2⟩⟩
        by_contra hm
        simp [operandCountM, hm] at hl
      · simp only [bind_eq_ok] at h
        obtain ⟨tg, h1, h⟩ := h
        cases h
        exact ⟨hf, _, rfl, h1⟩
      · cases h
    · intro h
      cases a with
      | r3 m' rd rs rt =>
        obtain ⟨hf, x, y, z, he, h1, h2, h3⟩ := h
        cases he
        exact ⟨.r3, ⟨hf, rfl⟩, by simp only [parseOperandsM, h1, h2, h3]; rfl⟩
      | rShift m' rd rt sh =>
        obtain ⟨hf, x, y, z, he, h1, h2, h3⟩ := h
        cases he
        exact ⟨.rShift, ⟨hf, rfl⟩, by simp only [parseOperandsM, h1, h2, h3]; rfl⟩
      | iType m' rt rs imm =>
        obtain ⟨hf, ⟨hm, x, y, z, he, h1, h2, h3⟩ | ⟨hm, x, y, he, h1, h2⟩⟩ := h
        · cases he
          exact ⟨.iType, ⟨hf, by simp [operandCountM, hm]⟩,
            by simp only [parseOperandsM, h1, h2, h3]; rfl⟩
        · cases he
          exact ⟨.iType, ⟨hf, by simp [operandCountM, hm]⟩, by simp only [parseOperandsM, h1, h2]; rfl⟩
      | jType m' tg =>
        obtain ⟨hf, x, he, h1⟩ := h
        cases he
        exact ⟨.jType, ⟨hf, rfl⟩, by simp only [parseOperandsM, h1]; rfl⟩
      | noOperand | singleTarget | regReg | immReg | loadStore => exact h.elim

/-! ## Texts of `S` -/

/-- The mnemonic `m` takes two operands. -/
def TwoOperandS (c : ConfigS) (m : Text) : Prop :=
  ∃ op, lookupOpcode c.opc m = .ok op ∧ op ≠ c.haltOpcode ∧ op ∉ c.jumpCodes

/-- The tokens `toks` are a spelling of the instruction `a` of `S`. -/
def SpellsS (c : ConfigS) (toks : List Text) : AbstractInstr → Prop
  | .noOperand m => lookupOpcode c.opc m = .ok c.haltOpcode ∧ toks = [m]
  | .singleTarget m tg => (∃ op, lookupOpcode c.opc m = .ok op ∧ op ≠ c.haltOpcode ∧ op ∈ c.jumpCodes) ∧
      ∃ x, toks = [m, x] ∧ parseNumeral x = .ok tg
  | .regReg m src dst => TwoOperandS c m ∧ ∃ x y, toks = [m, x, y] ∧ shape x = .register ∧
      shape y = .register ∧ parseRegS c x = .ok src ∧ parseRegS c y = .ok dst
  | .immReg m imm dst => TwoOperandS c m ∧ ∃ x y, toks = [m, x, y] ∧ shape x = .immediate ∧
      shape y = .register ∧ parseImmS x = .ok imm ∧ parseRegS c y = .ok dst
  | .loadStore m base dst => TwoOperandS c m ∧ ∃ x y, toks = [m, x, y] ∧ shape x = .indirect ∧
      shape y = .register ∧ parseIndS c x = .ok base ∧ parseRegS c y = .ok dst
  | .r3 .. | .rShift .. | .iType .. | .jType .. => False

/-- What `classify_encode` of `S` answers, and when (R81). -/
theorem classifyEncodeS_ok {c : ConfigS} {m : Text} {ops : List Text} {fmt : FormatS}
    (h : classifyEncodeS c m ops = .ok fmt) :
    match fmt with
    | .noOperand => lookupOpcode c.opc m = .ok c.haltOpcode ∧ ops = []
    | .singleTarget => (∃ op, lookupOpcode c.opc m = .ok op ∧ op ≠ c.haltOpcode ∧ op ∈ c.jumpCodes) ∧
        ∃ x, ops = [x]
    | .regReg => TwoOperandS c m ∧ ∃ x y, ops = [x, y] ∧ shape x = .register ∧ shape y = .register
    | .immReg => TwoOperandS c m ∧ ∃ x y, ops = [x, y] ∧ shape x = .immediate ∧ shape y = .register
    | .loadStore => TwoOperandS c m ∧ ∃ x y, ops = [x, y] ∧ shape x = .indirect ∧ shape y = .register := by
  unfold classifyEncodeS at h
  obtain ⟨op, hop, h⟩ := bind_eq_ok.mp h
  split at h
  · next hh =>
    subst hh
    split at h
    · next hl => cases h; exact ⟨hop, List.length_eq_zero_iff.mp hl⟩
    · cases h
  · next hh =>
    split at h
    · next hj =>
      split at h
      · next hl => cases h; exact ⟨⟨op, hop, hh, hj⟩, List.length_eq_one_iff.mp hl⟩
      · cases h
    · next hj =>
      split at h
      · unfold shapesFormat at h
        split at h
        · next h1 h2 => cases h; exact ⟨⟨op, hop, hh, hj⟩, _, _, rfl, h1, h2⟩
        · next h1 h2 => cases h; exact ⟨⟨op, hop, hh, hj⟩, _, _, rfl, h1, h2⟩
        · next h1 h2 => cases h; exact ⟨⟨op, hop, hh, hj⟩, _, _, rfl, h1, h2⟩
        · cases h
      · cases h

theorem classifyEncodeS_two {c : ConfigS} {m x y : Text} (h : TwoOperandS c m) :
    classifyEncodeS c m [x, y] = shapesFormat (shape x) (shape y) := by
  obtain ⟨op, h1, h2, h3⟩ := h
  simp only [classifyEncodeS, h1, bind, Except.bind, h2, h3, if_false]

/-- Everything `parseS` can answer (R117). -/
theorem parseS_eq_ok {c : ConfigS} {text : Text} {a : AbstractInstr} :
    parseS c text = .ok a ↔ SpellsS c (tokenize text) a := by
  unfold parseS
  cases htok : tokenize text with
  | nil =>
    refine ⟨fun h => (nomatch h), fun h => ?_⟩
    cases a <;> simp [SpellsS] at h
  | cons m ops =>
    simp only [bind_eq_ok]
    constructor
    · rintro ⟨fmt, hf, h⟩
      have hc := classifyEncodeS_ok hf
      unfold parseOperandsS at h
      split at h
      · cases h
        exact ⟨hc.1, rfl⟩
      · simp only [bind_eq_ok] at h
        obtain ⟨tg, h1, h⟩ := h
        cases h
        exact ⟨hc.1, _, rfl, h1⟩
      · simp only [bind_eq_ok] at h
        obtain ⟨src, h1, dst, h2, h⟩ := h
        cases h
        obtain ⟨ht, x, y, he, hx, hy⟩ := hc
        cases he
        exact ⟨ht, _, _, rfl, hx, hy, h1, h2⟩
      · simp only [bind_eq_ok] at h
        obtain ⟨imm, h1, dst, h2, h⟩ := h
        cases h
        obtain ⟨ht, x, y, he, hx, hy⟩ := hc
        cases he
        exact ⟨ht, _, _, rfl, hx, hy, h1, h2⟩
      · simp only [bind_eq_ok] at h
        obtain ⟨base, h1, dst, h2, h⟩ := h
        cases h
        obtain ⟨ht, x, y, he, hx, hy⟩ := hc
        cases he
        exact ⟨ht, _, _, rfl, hx, hy, h1, h2⟩
      · cases h
    · intro h
      cases a with
      | noOperand m' =>
        obtain ⟨hl, he⟩ := h
        cases he
        refine ⟨.noOperand, ?_, rfl⟩
        simp only [classifyEncodeS, hl, bind, Except.bind, if_true, List.length_nil]
      | singleTarget m' tg =>
        obtain ⟨⟨op, hl, hh, hj⟩, x, he, h1⟩ := h
        cases he
        refine ⟨.singleTarget, ?_, by simp only [parseOperandsS, h1]; rfl⟩
        simp only [classifyEncodeS, hl, bind, Except.bind, hh, hj, if_true, if_false, List.length_cons,
          List.length_nil]
      | regReg m' src dst =>
        obtain ⟨ht, x, y, he, hx, hy, h1, h2⟩ := h
        cases he
        exact ⟨.regReg, by rw [classifyEncodeS_two ht, hx, hy]; rfl,
          by simp only [parseOperandsS, h1, h2]; rfl⟩
      | immReg m' imm dst =>
        obtain ⟨ht, x, y, he, hx, hy, h1, h2⟩ := h
        cases he
        exact ⟨.immReg, by rw [classifyEncodeS_two ht, hx, hy]; rfl,
          by simp only [parseOperandsS, h1, h2]; rfl⟩
      | loadStore m' base dst =>
        obtain ⟨ht, x, y, he, hx, hy, h1, h2⟩ := h
        cases he
        exact ⟨.loadStore, by rw [classifyEncodeS_two ht, hx, hy]; rfl,
          by simp only [parseOperandsS, h1, h2]; rfl⟩
      | r3 | rShift | iType | jType => exact h.elim

end Sys2Proof.Machine
end

