-- ==== Sys2Proof/Laws/PerInstr.lean ====
section
/-!
SUPPORT. Statements made per instruction, one lemma per constructor of `Instr`.
-/

namespace Sys2Proof.Laws

/-- A row of the opcode table is found again from its abstract form. -/
def RowMirror.Statement (i : Instr) : Prop := i.toAbstract.toInstr = some i

theorem RowMirror.add (rd rs rt : Nat) : RowMirror.Statement (.add rd rs rt) := rfl

theorem RowMirror.addu (rd rs rt : Nat) : RowMirror.Statement (.addu rd rs rt) := rfl

theorem RowMirror.sub (rd rs rt : Nat) : RowMirror.Statement (.sub rd rs rt) := rfl

theorem RowMirror.subu (rd rs rt : Nat) : RowMirror.Statement (.subu rd rs rt) := rfl

theorem RowMirror.and (rd rs rt : Nat) : RowMirror.Statement (.and rd rs rt) := rfl

theorem RowMirror.or (rd rs rt : Nat) : RowMirror.Statement (.or rd rs rt) := rfl

theorem RowMirror.xor (rd rs rt : Nat) : RowMirror.Statement (.xor rd rs rt) := rfl

theorem RowMirror.nor (rd rs rt : Nat) : RowMirror.Statement (.nor rd rs rt) := rfl

theorem RowMirror.slt (rd rs rt : Nat) : RowMirror.Statement (.slt rd rs rt) := rfl

theorem RowMirror.sltu (rd rs rt : Nat) : RowMirror.Statement (.sltu rd rs rt) := rfl

theorem RowMirror.sll (rd rt : Nat) (shamt : Int) : RowMirror.Statement (.sll rd rt shamt) := rfl

theorem RowMirror.srl (rd rt : Nat) (shamt : Int) : RowMirror.Statement (.srl rd rt shamt) := rfl

theorem RowMirror.sra (rd rt : Nat) (shamt : Int) : RowMirror.Statement (.sra rd rt shamt) := rfl

theorem RowMirror.addi (rt rs : Nat) (imm : Int) : RowMirror.Statement (.addi rt rs imm) := rfl

theorem RowMirror.addiu (rt rs : Nat) (imm : Int) : RowMirror.Statement (.addiu rt rs imm) := rfl

theorem RowMirror.slti (rt rs : Nat) (imm : Int) : RowMirror.Statement (.slti rt rs imm) := rfl

theorem RowMirror.sltiu (rt rs : Nat) (imm : Int) : RowMirror.Statement (.sltiu rt rs imm) := rfl

theorem RowMirror.andi (rt rs : Nat) (imm : Int) : RowMirror.Statement (.andi rt rs imm) := rfl

theorem RowMirror.ori (rt rs : Nat) (imm : Int) : RowMirror.Statement (.ori rt rs imm) := rfl

theorem RowMirror.xori (rt rs : Nat) (imm : Int) : RowMirror.Statement (.xori rt rs imm) := rfl

theorem RowMirror.lb (rt rs : Nat) (imm : Int) : RowMirror.Statement (.lb rt rs imm) := rfl

theorem RowMirror.lh (rt rs : Nat) (imm : Int) : RowMirror.Statement (.lh rt rs imm) := rfl

theorem RowMirror.lw (rt rs : Nat) (imm : Int) : RowMirror.Statement (.lw rt rs imm) := rfl

theorem RowMirror.lbu (rt rs : Nat) (imm : Int) : RowMirror.Statement (.lbu rt rs imm) := rfl

theorem RowMirror.lhu (rt rs : Nat) (imm : Int) : RowMirror.Statement (.lhu rt rs imm) := rfl

theorem RowMirror.sb (rt rs : Nat) (imm : Int) : RowMirror.Statement (.sb rt rs imm) := rfl

theorem RowMirror.sh (rt rs : Nat) (imm : Int) : RowMirror.Statement (.sh rt rs imm) := rfl

theorem RowMirror.sw (rt rs : Nat) (imm : Int) : RowMirror.Statement (.sw rt rs imm) := rfl

theorem RowMirror.j (target : Int) : RowMirror.Statement (.j target) := rfl

theorem RowMirror.jal (target : Int) : RowMirror.Statement (.jal target) := rfl

theorem RowMirror.hlt : RowMirror.Statement .hlt := rfl

theorem RowMirror.jmp (target : Int) : RowMirror.Statement (.jmp target) := rfl

theorem RowMirror.movRR (src dst : Nat) : RowMirror.Statement (.movRR src dst) := rfl

theorem RowMirror.movIR (imm : Int) (dst : Nat) : RowMirror.Statement (.movIR imm dst) := rfl

theorem RowMirror.movLS (base dst : Nat) : RowMirror.Statement (.movLS base dst) := rfl

theorem RowMirror.addRR (src dst : Nat) : RowMirror.Statement (.addRR src dst) := rfl

theorem RowMirror.addIR (imm : Int) (dst : Nat) : RowMirror.Statement (.addIR imm dst) := rfl

theorem RowMirror.addLS (base dst : Nat) : RowMirror.Statement (.addLS base dst) := rfl

theorem RowMirror.subRR (src dst : Nat) : RowMirror.Statement (.subRR src dst) := rfl

theorem RowMirror.subIR (imm : Int) (dst : Nat) : RowMirror.Statement (.subIR imm dst) := rfl

theorem RowMirror.subLS (base dst : Nat) : RowMirror.Statement (.subLS base dst) := rfl

end Sys2Proof.Laws
end

