-- ==== Sys2Proof/Tests/Slice0.lean ====
section
/-!
SUPPORT. Named tests, closed by evaluation: a word written out from the encoding tables for every
constructor, an ill-formed term for every check of WellFormed, the source's scenarios, and for every
obligation with hypotheses a witness that meets them, at the edges of its ranges.
-/

namespace Sys2Proof.Tests

open Sys2Proof Sys2Proof.Machine

/-- A state with the default tables, the given policy and the given requests. -/
def ready (p : Overflow) (rs : List Request) : State where
  cfg := defaultConfig p
  requests := rs
  exchanges := []

/-- A request to assemble a text of `M`, of `S`; a request to disassemble a word of either. -/
def asmM (t : String) : Request := .assemble .m t.toList
@[inherit_doc asmM] def asmS (t : String) : Request := .assemble .s t.toList
@[inherit_doc asmM] def disM (t : String) : Request := .disassemble .m t.toList
@[inherit_doc asmM] def disS (t : String) : Request := .disassemble .s t.toList

/-! ## Decoding: words written out bit by bit (30_encoding.md rules R43 to R45, R47, R49 to R51) -/

/-- The abstract instruction a word of `M` decodes to under the default tables. -/
def readM (W : Word) : Option Instr := match decodeWord (defaultConfig .reject) .m W with
  | .ok a => a.toInstr
  | .error _ => none

/-- The same for a word of `S`. -/
def readS (W : Word) : Option Instr := match decodeWord (defaultConfig .reject) .s W with
  | .ok a => a.toInstr
  | .error _ => none

/-- Fields opcode, rs, rt, rd, shamt, funct; `rd` = 16, `rs` = 17, `rt` = 18. -/
theorem test_decode_r3 :
    readM 0b000000_10001_10010_10000_00000_100000 = some (.add 16 17 18) ∧
    readM 0b000000_10001_10010_10000_00000_100001 = some (.addu 16 17 18) ∧
    readM 0b000000_10001_10010_10000_00000_100010 = some (.sub 16 17 18) ∧
    readM 0b000000_10001_10010_10000_00000_100011 = some (.subu 16 17 18) ∧
    readM 0b000000_10001_10010_10000_00000_100100 = some (.and 16 17 18) ∧
    readM 0b000000_10001_10010_10000_00000_100101 = some (.or 16 17 18) ∧
    readM 0b000000_10001_10010_10000_00000_100110 = some (.xor 16 17 18) ∧
    readM 0b000000_10001_10010_10000_00000_100111 = some (.nor 16 17 18) ∧
    readM 0b000000_10001_10010_10000_00000_101010 = some (.slt 16 17 18) ∧
    readM 0b000000_10001_10010_10000_00000_101011 = some (.sltu 16 17 18) := by decide

/-- `rd` = 8, `rt` = 9, `shamt` = 31; `rs` is a don't-care field. -/
theorem test_decode_rShift :
    readM 0b000000_00101_01001_01000_11111_000000 = some (.sll 8 9 31) ∧
    readM 0b000000_00101_01001_01000_11111_000010 = some (.srl 8 9 31) ∧
    readM 0b000000_00101_01001_01000_11111_000011 = some (.sra 8 9 31) := by decide

/-- Fields opcode, rs, rt, imm; `rt` = 8, `rs` = 17. -/
theorem test_decode_iType :
    readM 0b001000_10001_01000_1000000000000001 = some (.addi 8 17 0x8001) ∧
    readM 0b001001_10001_01000_1000000000000001 = some (.addiu 8 17 0x8001) ∧
    readM 0b001010_10001_01000_1000000000000001 = some (.slti 8 17 0x8001) ∧
    readM 0b001011_10001_01000_1000000000000001 = some (.sltiu 8 17 0x8001) ∧
    readM 0b001100_10001_01000_1000000000000001 = some (.andi 8 17 0x8001) ∧
    readM 0b001101_10001_01000_1000000000000001 = some (.ori 8 17 0x8001) ∧
    readM 0b001110_10001_01000_1000000000000001 = some (.xori 8 17 0x8001) ∧
    readM 0b100000_10001_01000_1000000000000001 = some (.lb 8 17 0x8001) ∧
    readM 0b100001_10001_01000_1000000000000001 = some (.lh 8 17 0x8001) ∧
    readM 0b100011_10001_01000_1000000000000001 = some (.lw 8 17 0x8001) ∧
    readM 0b100100_10001_01000_1000000000000001 = some (.lbu 8 17 0x8001) ∧
    readM 0b100101_10001_01000_1000000000000001 = some (.lhu 8 17 0x8001) ∧
    readM 0b101000_10001_01000_1000000000000001 = some (.sb 8 17 0x8001) ∧
    readM 0b101001_10001_01000_1000000000000001 = some (.sh 8 17 0x8001) ∧
    readM 0b101011_10001_01000_1000000000000001 = some (.sw 8 17 0x8001) := by decide

theorem test_decode_jType :
    readM 0b000010_10000000000000000000000001 = some (.j 0x2000001) ∧
    readM 0b000011_10000000000000000000000001 = some (.jal 0x2000001) := by decide

/-- Fields pad, mode, dst, opcode, operand; the don't-care fields of `HLT` and `JMP` are set. -/
theorem test_decode_simple :
    readS 0b11111111111111_11_1100_1000_11111111 = some .hlt ∧
    readS 0b00000000000000_11_0111_0100_00010000 = some (.jmp 16) ∧
    readS 0b00000000000001_00_0010_0001_00000001 = some (.movRR 1 2) ∧
    readS 0b00000000000001_00_0010_0010_00000001 = some (.addRR 1 2) ∧
    readS 0b00000000000001_00_0010_0011_00000001 = some (.subRR 1 2) ∧
    readS 0b00000000000000_01_0111_0001_10000001 = some (.movIR 129 7) ∧
    readS 0b00000000000000_01_0111_0010_10000001 = some (.addIR 129 7) ∧
    readS 0b00000000000000_01_0111_0011_10000001 = some (.subIR 129 7) ∧
    readS 0b00000000000000_10_0010_0001_00000001 = some (.movLS 1 2) ∧
    readS 0b00000000000000_10_0010_0010_00000001 = some (.addLS 1 2) ∧
    readS 0b00000000000000_10_0010_0011_00000001 = some (.subLS 1 2) := by decide

/-- Words without an entry (R52, R53), and the host's question with a word of either instruction set. -/
theorem test_decode_refuses :
    readM 0x10000000 = none ∧ readM 0x00000001 = none ∧ readS 0 = none ∧ readS 0x00030100 = none := by decide

theorem test_table_word :
    decodeTableWord 32 0x00000020 = some (.add 0 0 0) ∧ decodeTableWord 16 0x0800 = some .hlt ∧
    decodeTableWord 24 0x020100 = some (.movLS 0 0) := by decide

/-! ## Ill-formed terms, one for each check of WellFormed -/

theorem test_ill_formed_add : Instr.wellFormed (.add 32 0 0) = false ∧
    Instr.wellFormed (.add 0 32 0) = false ∧ Instr.wellFormed (.add 0 0 32) = false := by decide

theorem test_ill_formed_addu : Instr.wellFormed (.addu 32 0 0) = false ∧
    Instr.wellFormed (.addu 0 32 0) = false ∧ Instr.wellFormed (.addu 0 0 32) = false := by decide

theorem test_ill_formed_sub : Instr.wellFormed (.sub 32 0 0) = false ∧
    Instr.wellFormed (.sub 0 32 0) = false ∧ Instr.wellFormed (.sub 0 0 32) = false := by decide

theorem test_ill_formed_subu : Instr.wellFormed (.subu 32 0 0) = false ∧
    Instr.wellFormed (.subu 0 32 0) = false ∧ Instr.wellFormed (.subu 0 0 32) = false := by decide

theorem test_ill_formed_and : Instr.wellFormed (.and 32 0 0) = false ∧
    Instr.wellFormed (.and 0 32 0) = false ∧ Instr.wellFormed (.and 0 0 32) = false := by decide

theorem test_ill_formed_or : Instr.wellFormed (.or 32 0 0) = false ∧
    Instr.wellFormed (.or 0 32 0) = false ∧ Instr.wellFormed (.or 0 0 32) = false := by decide

theorem test_ill_formed_xor : Instr.wellFormed (.xor 32 0 0) = false ∧
    Instr.wellFormed (.xor 0 32 0) = false ∧ Instr.wellFormed (.xor 0 0 32) = false := by decide

theorem test_ill_formed_nor : Instr.wellFormed (.nor 32 0 0) = false ∧
    Instr.wellFormed (.nor 0 32 0) = false ∧ Instr.wellFormed (.nor 0 0 32) = false := by decide

theorem test_ill_formed_slt : Instr.wellFormed (.slt 32 0 0) = false ∧
    Instr.wellFormed (.slt 0 32 0) = false ∧ Instr.wellFormed (.slt 0 0 32) = false := by decide

theorem test_ill_formed_sltu : Instr.wellFormed (.sltu 32 0 0) = false ∧
    Instr.wellFormed (.sltu 0 32 0) = false ∧ Instr.wellFormed (.sltu 0 0 32) = false := by decide

theorem test_ill_formed_sll : Instr.wellFormed (.sll 32 0 0) = false ∧
    Instr.wellFormed (.sll 0 32 0) = false ∧ Instr.wellFormed (.sll 0 0 32) = false ∧
    Instr.wellFormed (.sll 0 0 (-1)) = false := by decide

theorem test_ill_formed_srl : Instr.wellFormed (.srl 32 0 0) = false ∧
    Instr.wellFormed (.srl 0 32 0) = false ∧ Instr.wellFormed (.srl 0 0 32) = false ∧
    Instr.wellFormed (.srl 0 0 (-1)) = false := by decide

theorem test_ill_formed_sra : Instr.wellFormed (.sra 32 0 0) = false ∧
    Instr.wellFormed (.sra 0 32 0) = false ∧ Instr.wellFormed (.sra 0 0 32) = false ∧
    Instr.wellFormed (.sra 0 0 (-1)) = false := by decide

theorem test_ill_formed_addi : Instr.wellFormed (.addi 32 0 0) = false ∧
    Instr.wellFormed (.addi 0 32 0) = false ∧ Instr.wellFormed (.addi 0 0 0x10000) = false ∧
    Instr.wellFormed (.addi 0 0 (-1)) = false := by decide

theorem test_ill_formed_addiu : Instr.wellFormed (.addiu 32 0 0) = false ∧
    Instr.wellFormed (.addiu 0 32 0) = false ∧ Instr.wellFormed (.addiu 0 0 0x10000) = false ∧
    Instr.wellFormed (.addiu 0 0 (-1)) = false := by decide

theorem test_ill_formed_slti : Instr.wellFormed (.slti 32 0 0) = false ∧
    Instr.wellFormed (.slti 0 32 0) = false ∧ Instr.wellFormed (.slti 0 0 0x10000) = false ∧
    Instr.wellFormed (.slti 0 0 (-1)) = false := by decide

theorem test_ill_formed_sltiu : Instr.wellFormed (.sltiu 32 0 0) = false ∧
    Instr.wellFormed (.sltiu 0 32 0) = false ∧ Instr.wellFormed (.sltiu 0 0 0x10000) = false ∧
    Instr.wellFormed (.sltiu 0 0 (-1)) = false := by decide

theorem test_ill_formed_andi : Instr.wellFormed (.andi 32 0 0) = false ∧
    Instr.wellFormed (.andi 0 32 0) = false ∧ Instr.wellFormed (.andi 0 0 0x10000) = false ∧
    Instr.wellFormed (.andi 0 0 (-1)) = false := by decide

theorem test_ill_formed_ori : Instr.wellFormed (.ori 32 0 0) = false ∧
    Instr.wellFormed (.ori 0 32 0) = false ∧ Instr.wellFormed (.ori 0 0 0x10000) = false ∧
    Instr.wellFormed (.ori 0 0 (-1)) = false := by decide

theorem test_ill_formed_xori : Instr.wellFormed (.xori 32 0 0) = false ∧
    Instr.wellFormed (.xori 0 32 0) = false ∧ Instr.wellFormed (.xori 0 0 0x10000) = false ∧
    Instr.wellFormed (.xori 0 0 (-1)) = false := by decide

theorem test_ill_formed_lb : Instr.wellFormed (.lb 32 0 0) = false ∧
    Instr.wellFormed (.lb 0 32 0) = false ∧ Instr.wellFormed (.lb 0 0 0x10000) = false ∧
    Instr.wellFormed (.lb 0 0 (-1)) = false := by decide

theorem test_ill_formed_lh : Instr.wellFormed (.lh 32 0 0) = false ∧
    Instr.wellFormed (.lh 0 32 0) = false ∧ Instr.wellFormed (.lh 0 0 0x10000) = false ∧
    Instr.wellFormed (.lh 0 0 (-1)) = false := by decide

theorem test_ill_formed_lw : Instr.wellFormed (.lw 32 0 0) = false ∧
    Instr.wellFormed (.lw 0 32 0) = false ∧ Instr.wellFormed (.lw 0 0 0x10000) = false ∧
    Instr.wellFormed (.lw 0 0 (-1)) = false := by decide

theorem test_ill_formed_lbu : Instr.wellFormed (.lbu 32 0 0) = false ∧
    Instr.wellFormed (.lbu 0 32 0) = false ∧ Instr.wellFormed (.lbu 0 0 0x10000) = false ∧
    Instr.wellFormed (.lbu 0 0 (-1)) = false := by decide

theorem test_ill_formed_lhu : Instr.wellFormed (.lhu 32 0 0) = false ∧
    Instr.wellFormed (.lhu 0 32 0) = false ∧ Instr.wellFormed (.lhu 0 0 0x10000) = false ∧
    Instr.wellFormed (.lhu 0 0 (-1)) = false := by decide

theorem test_ill_formed_sb : Instr.wellFormed (.sb 32 0 0) = false ∧
    Instr.wellFormed (.sb 0 32 0) = false ∧ Instr.wellFormed (.sb 0 0 0x10000) = false ∧
    Instr.wellFormed (.sb 0 0 (-1)) = false := by decide

theorem test_ill_formed_sh : Instr.wellFormed (.sh 32 0 0) = false ∧
    Instr.wellFormed (.sh 0 32 0) = false ∧ Instr.wellFormed (.sh 0 0 0x10000) = false ∧
    Instr.wellFormed (.sh 0 0 (-1)) = false := by decide

theorem test_ill_formed_sw : Instr.wellFormed (.sw 32 0 0) = false ∧
    Instr.wellFormed (.sw 0 32 0) = false ∧ Instr.wellFormed (.sw 0 0 0x10000) = false ∧
    Instr.wellFormed (.sw 0 0 (-1)) = false := by decide

theorem test_ill_formed_j : Instr.wellFormed (.j 0x4000000) = false ∧
    Instr.wellFormed (.j (-1)) = false := by decide

theorem test_ill_formed_jal : Instr.wellFormed (.jal 0x4000000) = false ∧
    Instr.wellFormed (.jal (-1)) = false := by decide

theorem test_ill_formed_jmp : Instr.wellFormed (.jmp 256) = false ∧
    Instr.wellFormed (.jmp (-1)) = false := by decide

theorem test_ill_formed_movRR : Instr.wellFormed (.movRR 8 0) = false ∧
    Instr.wellFormed (.movRR 0 8) = false := by decide

theorem test_ill_formed_movLS : Instr.wellFormed (.movLS 8 0) = false ∧
    Instr.wellFormed (.movLS 0 8) = false := by decide

theorem test_ill_formed_addRR : Instr.wellFormed (.addRR 8 0) = false ∧
    Instr.wellFormed (.addRR 0 8) = false := by decide

theorem test_ill_formed_addLS : Instr.wellFormed (.addLS 8 0) = false ∧
    Instr.wellFormed (.addLS 0 8) = false := by decide

theorem test_ill_formed_subRR : Instr.wellFormed (.subRR 8 0) = false ∧
    Instr.wellFormed (.subRR 0 8) = false := by decide

theorem test_ill_formed_subLS : Instr.wellFormed (.subLS 8 0) = false ∧
    Instr.wellFormed (.subLS 0 8) = false := by decide

theorem test_ill_formed_movIR : Instr.wellFormed (.movIR 256 0) = false ∧
    Instr.wellFormed (.movIR (-1) 0) = false ∧ Instr.wellFormed (.movIR 0 8) = false := by decide

theorem test_ill_formed_addIR : Instr.wellFormed (.addIR 256 0) = false ∧
    Instr.wellFormed (.addIR (-1) 0) = false ∧ Instr.wellFormed (.addIR 0 8) = false := by decide

theorem test_ill_formed_subIR : Instr.wellFormed (.subIR 256 0) = false ∧
    Instr.wellFormed (.subIR (-1) 0) = false ∧ Instr.wellFormed (.subIR 0 8) = false := by decide

/-- R19 point 1: a key twice in one table. -/
theorem test_ill_formed_keys :
    ¬ (ConfigM.KeysDistinct { configM .reject with opc := ((configM .reject).opc ++ [("add".toList, 9)]) }) ∧
    ¬ (ConfigM.KeysDistinct { configM .reject with fn := ((configM .reject).fn ++ [("add".toList, 9)]) }) ∧
    ¬ (ConfigM.KeysDistinct { configM .reject with reg := ((configM .reject).reg ++ [("$t0".toList, 9)]) }) ∧
    ¬ (ConfigS.TablesOk { configS .reject with opc := ((configS .reject).opc ++ [("HLT".toList, 9)]) }) ∧
    ¬ (ConfigS.TablesOk { configS .reject with reg := ((configS .reject).reg ++ [("R0".toList, 9)]) }) :=
  ⟨by decide, by decide, by decide, by decide, by decide⟩

/-- Layout `R` with a `funct` field of `w` bits and an `rd` field that leaves room for it. -/
def layoutRFunct (w : Nat) : Layout :=
  [⟨.opcode, 6, 26⟩, ⟨.rs, 5, 21⟩, ⟨.rt, 5, 16⟩, ⟨.rd, 11 - w, w + 5⟩, ⟨.shamt, 5, w⟩, ⟨.funct, w, 0⟩]

/-- R19 point 2 bounds a function code of either instruction set by `2^6`, whatever the layout; a narrower
`funct` field bounds it further (R90). -/
theorem test_ill_formed_function_codes :
    ¬ (ConfigS.TablesOk { configS .reject with fn := [("x".toList, 64)] }) ∧
    ConfigS.TablesOk { configS .reject with fn := [("x".toList, 63)] } ∧
    Layout.tiles (layoutRFunct 7) 32 = true ∧
    ¬ (ConfigM.CodesFit { configM .reject with layoutR := layoutRFunct 7, reg := [], fn := [("x".toList, 64)] }) ∧
    ConfigM.CodesFit { configM .reject with layoutR := layoutRFunct 7, reg := [], fn := [("x".toList, 63)] } ∧
    ¬ (ConfigM.CodesFit { configM .reject with layoutR := layoutRFunct 5, reg := [], fn := [("x".toList, 32)] }) :=
  ⟨by decide, by decide, by decide, by decide, by decide, by decide⟩

/-- R19 point 2: a code wider than its field. -/
theorem test_ill_formed_codes :
    ¬ (ConfigM.CodesFit { configM .reject with opc := [("x".toList, 64)] }) ∧
    ¬ (ConfigM.CodesFit { configM .reject with fn := [("x".toList, 64)] }) ∧
    ¬ (ConfigM.CodesFit { configM .reject with reg := [("x".toList, 32)] }) ∧
    ¬ (ConfigS.TablesOk { configS .reject with opc := [("x".toList, 16)] }) ∧
    ¬ (ConfigS.TablesOk { configS .reject with reg := [("x".toList, 16)] }) :=
  ⟨by decide, by decide, by decide, by decide, by decide⟩

/-- R19 point 3: two names for one code. -/
theorem test_ill_formed_registers :
    ¬ (ConfigM.RegInjective { configM .reject with reg := ((configM .reject).reg ++ [("$s8".toList, 30)]) }) ∧
    ¬ (ConfigS.TablesOk { configS .reject with reg := ((configS .reject).reg ++ [("R8".toList, 7)]) }) :=
  ⟨by decide, by decide⟩

/-- R19 point 4, one condition after the other. -/
theorem test_ill_formed_classes_m :
    ¬ (ConfigM.ClassesOk { configM .reject with fn := ((configM .reject).fn ++ [("jr".toList, 8)]) }) ∧
    ¬ (ConfigM.ClassesOk { configM .reject with opc := ((configM .reject).opc ++ [("jr".toList, 0)]) }) ∧
    ¬ (ConfigM.ClassesOk
        { configM .reject with opc := ((configM .reject).opc ++ [("x".toList, 0)]), fn := ((configM .reject).fn ++ [("x".toList, 0)]) }) ∧
    ¬ (ConfigM.ClassesOk { configM .reject with opc := ((configM .reject).opc ++ [("x".toList, 8)]) }) ∧
    ¬ (ConfigM.ClassesOk { configM .reject with shiftList := ["lw".toList] }) ∧
    ¬ (ConfigM.ClassesOk { configM .reject with memList := ["j".toList] }) ∧
    ¬ (ConfigM.ClassesOk { configM .reject with memList := ["add".toList] }) ∧
    ¬ (ConfigM.ClassesOk { configM .reject with jumpCodes := [0] }) :=
  ⟨by decide, by decide, by decide, by decide, by decide, by decide, by decide, by decide⟩

/-- R19 point 5. -/
theorem test_ill_formed_classes_s :
    ¬ (ConfigS.ClassesOk { configS .reject with opc := ((configS .reject).opc ++ [("x".toList, 8)]) }) ∧
    ¬ (ConfigS.ClassesOk { configS .reject with haltOpcode := 9 }) ∧
    ¬ (ConfigS.ClassesOk { configS .reject with jumpCodes := [8] }) :=
  ⟨by decide, by decide, by decide⟩

/-- R40, R42 to R47: a width that is not four bits a digit, a gap, an overlap, a missing field, the opcode
field in another place, a mode field of one bit. -/
theorem test_ill_formed_layouts :
    ¬ (ConfigM.LayoutsOk { configM .reject with hexDigits := 7 }) ∧
    Layout.tiles [⟨.opcode, 6, 26⟩, ⟨.target, 25, 0⟩] 32 = false ∧
    Layout.tiles [⟨.opcode, 6, 26⟩, ⟨.target, 27, 0⟩] 32 = false ∧
    ¬ (ConfigM.LayoutsOk { configM .reject with layoutR := (configM .reject).layoutI }) ∧
    ¬ (ConfigM.LayoutsOk { configM .reject with layoutI := (configM .reject).layoutJ }) ∧
    ¬ (ConfigM.LayoutsOk
        { configM .reject with layoutJ := [⟨.opcode, 5, 27⟩, ⟨.target, 27, 0⟩] }) ∧
    ¬ (ConfigM.LayoutsOk
        { configM .reject with layoutI := [⟨.opcode, 5, 27⟩, ⟨.rs, 5, 22⟩, ⟨.rt, 5, 17⟩, ⟨.imm, 17, 0⟩] }) ∧
    ¬ (ConfigS.LayoutsOk { configS .reject with wordBits := 8 }) ∧
    ¬ (ConfigS.LayoutsOk { configS .reject with layoutSW := layoutJ }) ∧
    ¬ (ConfigS.LayoutsOk
        { configS .reject with layoutSW := [⟨.pad, 15, 17⟩, ⟨.mode, 1, 16⟩, ⟨.dst, 4, 12⟩, ⟨.opcode, 4, 8⟩, ⟨.operand, 8, 0⟩] }) :=
  ⟨by decide, by decide, by decide, by decide, by decide, by decide, by decide, by decide, by decide, by decide⟩

/-! ## The source's scenarios (43_facade_text.md rules R116 to R119) and one step each way -/

theorem test_scenarios_assemble :
    assemble (defaultConfig .reject) .m "add $s0, $s1, $s2".toList = .ok "02328020".toList ∧
    assemble (defaultConfig .reject) .m "addi $t0, $t1, 0x5".toList = .ok "21280005".toList ∧
    assemble (defaultConfig .reject) .m "sll $t0, $t1, 0x2".toList = .ok "00094080".toList ∧
    assemble (defaultConfig .reject) .m "lw $t0, 0x8($s1)".toList = .ok "8e280008".toList ∧
    assemble (defaultConfig .reject) .m "sw $t0, 0x12($s1)".toList = .ok "ae280012".toList ∧
    assemble (defaultConfig .reject) .s "HLT".toList = .ok "00000800".toList := by decide

theorem test_scenarios_disassemble :
    disassemble (defaultConfig .reject) .m "02328020".toList = .ok "add $s0, $s1, $s2".toList ∧
    disassemble (defaultConfig .reject) .m "8e280008".toList = .ok "lw $t0, 0x8($s1)".toList ∧
    disassemble (defaultConfig .reject) .s "00000800".toList = .ok "HLT".toList := by decide

/-- 60_exceptions.md rule R197, its consequences. -/
theorem test_error_order :
    assemble (defaultConfig .reject) .m "mul $zz".toList = .err .unknownMnemonic ∧
    assemble (defaultConfig .reject) .m "add $zz, $s1".toList = .err .malformedInstruction ∧
    assemble (defaultConfig .reject) .m "sll $t0, $zz, 99".toList = .err .unknownRegister ∧
    assemble (defaultConfig .reject) .m "sll $t0, $t1, 99".toList = .err .fieldOverflow ∧
    assemble (defaultConfig .reject) .m "lw $t0, x($zz)".toList = .err .malformedInstruction ∧
    assemble (defaultConfig .reject) .s "MOV R9, 5".toList = .err .invalidOperandSyntax := by decide

theorem test_step_assemble :
    step (ready .reject [asmS "MOV #0x5, R1"]) =
      .next ((ready .reject [asmS "MOV #0x5, R1"]).after (asmS "MOV #0x5, R1") []
        (.ok "00011105".toList)) := by rfl

theorem test_step_disassemble :
    step (ready .reject [disM "deadbeef", disS "00000800"]) =
      .next ((ready .reject [disM "deadbeef", disS "00000800"]).after (disM "deadbeef")
        [disS "00000800"] (.err .unknownEncoding)) := by rfl

theorem test_step_fetched_word :
    step (State.reset.withFetchWord 32 0x02328020) = exec (.add 16 17 18) (State.reset.withFetchWord 32 0x02328020) := by
  rfl

/-! ## Witnesses: for every obligation with hypotheses, concrete states and operands that meet all of them,
one for each clause, at the edges of the ranges -/

/-- A state ready for two requests, the first of which fails. -/
def twoRequests : State := ready .reject [asmM "mul $zz", asmS "HLT"]

theorem ready_consistent : (ready .truncate [asmS "HLT"]).Consistent :=
  ⟨⟨by decide, by decide⟩, by decide⟩

theorem witness_StepKeepsConsistent :
    (ready .truncate [asmS "HLT"]).Consistent ∧
    step (ready .truncate [asmS "HLT"]) =
      .next ((ready .truncate [asmS "HLT"]).after (asmS "HLT") [] (.ok "00000800".toList)) :=
  ⟨ready_consistent, rfl⟩

theorem witness_StepKeepsWellAnswered :
    (∀ p ∈ [(asmS "HLT", Response.ok "00000800".toList), (disM "0", .err .malformedInstruction)],
      wellAnswered (defaultConfig .reject) p.1 p.2 = true) ∧
    step { twoRequests with exchanges := [(asmS "HLT", .ok "00000800".toList), (disM "0", .err .malformedInstruction)] } =
      .next { ready .reject [asmS "HLT"] with exchanges := [(asmS "HLT", .ok "00000800".toList),
        (disM "0", .err .malformedInstruction), (asmM "mul $zz", .err .unknownMnemonic)] } :=
  ⟨by decide, rfl⟩

theorem witness_TablesAreReadOnly :
    step twoRequests = .next (twoRequests.after (asmM "mul $zz") [asmS "HLT"] (.err .unknownMnemonic)) ∧
    exec .hlt (ready .reject [asmS "HLT"]) =
      .next ((ready .reject [asmS "HLT"]).after (asmS "HLT") [] (.ok "00000800".toList)) := ⟨rfl, rfl⟩

theorem witness_StepAnswersRequest : twoRequests.requests = asmM "mul $zz" :: [asmS "HLT"] := rfl

theorem witness_RequestsAreIndependent :
    twoRequests.cfg = (ready .reject [asmS "HLT", asmM "mul $zz"]).cfg ∧ twoRequests.exchanges = [] ∧
    (ready .reject [asmS "HLT", asmM "mul $zz"]).exchanges = [] ∧
    twoRequests.requests.Perm (ready .reject [asmS "HLT", asmM "mul $zz"]).requests :=
  ⟨rfl, rfl, rfl, List.Perm.swap _ _ _⟩

theorem witness_HistoryDoesNotInterfere :
    (ready .reject [asmS "HLT"]).cfg = twoRequests.cfg ∧
    (ready .reject [asmS "HLT"]).requests = asmS "HLT" :: [] ∧
    { twoRequests with requests := [asmS "HLT", disM "0"], exchanges := [(disM "", .err .malformedInstruction)] }.requests
      = asmS "HLT" :: [disM "0"] ∧
    twoRequests.requests ≠ [] ∧
    step twoRequests = .next (twoRequests.after (asmM "mul $zz") [asmS "HLT"] (.err .unknownMnemonic)) :=
  ⟨rfl, rfl, rfl, by decide, rfl⟩

theorem witness_ErrorsStopNothing :
    twoRequests.requests = asmM "mul $zz" :: [asmS "HLT"] ∧
    respond twoRequests.cfg (asmM "mul $zz") = .err .unknownMnemonic ∧
    step twoRequests = .next (twoRequests.after (asmM "mul $zz") [asmS "HLT"] (.err .unknownMnemonic)) ∧
    [asmS "HLT"] = asmS "HLT" :: [] := ⟨rfl, rfl, rfl, rfl⟩

theorem witness_IdleStepChangesNothing : State.reset.requests = [] := rfl

/-- A configuration with a mnemonic that is no row of the opcode table. -/
def extended : Config := { defaultConfig .reject with
  m := { configM .reject with opc := opcM ++ [("jr".toList, 0)], fn := fnM ++ [("jr".toList, 0x08)] } }

theorem witness_StepRunsDecodedInstruction :
    (parseRequest (defaultConfig .reject) (asmM "lw $t0, 0x8($s1)") = .ok (Instr.lw 8 17 8).toAbstract ∧
      (Instr.lw 8 17 8).toAbstract.toInstr = some (.lw 8 17 8)) ∧
    (decode (defaultConfig .reject) .s "ffffc8ff".toList = .ok Instr.hlt.toAbstract ∧
      Instr.hlt.toAbstract.toInstr = some .hlt) ∧
    (State.reset.cfg = defaultConfig .reject ∧ decodeTableWord 32 0xffffffff = none ∧
      decodeTableWord 32 0x8e280008 = some (.lw 8 17 8)) ∧
    (extended.WellFormed ∧ parseRequest extended (asmM "jr $t0, $t1, $t2") = .ok (.r3 "jr".toList 8 9 10) ∧
      (AbstractInstr.r3 "jr".toList 8 9 10).toInstr = none) :=
  ⟨⟨by decide, by decide⟩, ⟨by decide, by decide⟩, ⟨rfl, by decide, by decide⟩,
    ⟨⟨by decide, by decide⟩, by decide, by decide⟩⟩

theorem witness_DecodeEncodeEveryInstr :
    [Instr.add 31 0 31, .sll 31 31 31, .addi 31 0 0xffff, .sw 0 31 0, .j 0x3ffffff, .hlt, .jmp 255, .movRR 7 0,
      .movIR 255 7, .subLS 0 7].all Instr.wellFormed = true := by decide

theorem witness_DecodeEncodeAnyConfig : extended.WellFormed ∧
    Admissible extended (.r3 "jr".toList 31 0 31) ∧ Admissible extended (.rShift "sll".toList 0 31 31) ∧
    Admissible extended (.iType "lw".toList 31 0 0xffff) ∧ Admissible extended (.jType "jal".toList 0x3ffffff) ∧
    Admissible extended (.noOperand "HLT".toList) ∧ Admissible extended (.singleTarget "JMP".toList 255) ∧
    Admissible extended (.regReg "MOV".toList 255 15) ∧ Admissible extended (.immReg "ADD".toList 255 0) ∧
    Admissible extended (.loadStore "SUB".toList 0 15) :=
  ⟨⟨by decide, by decide⟩, ⟨⟨by decide, by decide⟩, by decide, by decide⟩, ⟨⟨by decide, by decide⟩, by decide, by decide⟩,
    ⟨⟨0x23, by decide, by decide, by decide⟩, by decide, by decide⟩, ⟨⟨3, by decide, by decide⟩, by decide, by decide⟩,
    ⟨(by decide : (_, 8) ∈ extended.s.opc), by decide, by decide⟩, ⟨⟨4, by decide, by decide⟩, by decide, by decide⟩,
    ⟨⟨1, by decide, by decide, by decide⟩, by decide, by decide⟩,
    ⟨⟨2, by decide, by decide, by decide⟩, by decide, by decide⟩,
    ⟨⟨3, by decide, by decide, by decide⟩, by decide, by decide⟩⟩

/-- A word of each instruction set with its don't-care fields set, and with them clear. -/
theorem witness_EncodeDecodeClearsDontCare : extended.WellFormed ∧
    decodeWord extended .m 0x023287e0 = .ok (Instr.add 16 17 18).toAbstract ∧
    clearDontCare extended (Instr.add 16 17 18).toAbstract 0x023287e0 = 0x02328020 ∧
    decodeWord extended .s 0xffffc8ff = .ok Instr.hlt.toAbstract ∧
    clearDontCare extended Instr.hlt.toAbstract 0xffffc8ff = 0x800 :=
  ⟨⟨by decide, by decide⟩, by decide, by decide, by decide, by decide⟩

theorem witness_DontCareFieldsIgnored : extended.WellFormed ∧
    assemble extended .m "add $s0, $s1, $s2".toList = .ok "02328020".toList ∧
    0x02328020 < 2 ^ extended.wordBits .m ∧ 0x023287e0 < 2 ^ extended.wordBits .m ∧
    decodeWord extended .m 0x02328020 = .ok (Instr.add 16 17 18).toAbstract ∧
    clearDontCare extended (Instr.add 16 17 18).toAbstract 0x023287e0 =
      clearDontCare extended (Instr.add 16 17 18).toAbstract 0x02328020 :=
  ⟨⟨by decide, by decide⟩, by decide, by decide, by decide, by decide, by decide⟩

theorem witness_RoundTripText : (extended.WellFormed ∧ extended.overflow .m = .reject ∧
      assemble extended .m "lw $ra 65535($zero)".toList = .ok "8c1fffff".toList) ∧
    ((defaultConfig .truncate).WellFormed ∧
      assemble (defaultConfig .truncate) .s "MOV #255, R7".toList = .ok "000171ff".toList ∧
      parse (defaultConfig .truncate) .s "MOV #255, R7".toList = .ok (.immReg "MOV".toList 255 7) ∧
      numericOperand (.immReg "MOV".toList 255 7) = some (255, .operand) ∧ (255 : Int) < 2 ^ layoutSW.width .operand) :=
  ⟨⟨⟨by decide, by decide⟩, rfl, by decide⟩, ⟨⟨by decide, by decide⟩, by decide, by decide, rfl, by decide⟩⟩

theorem witness_ReassemblyIsStable : (defaultConfig .truncate).WellFormed ∧
    assemble (defaultConfig .truncate) .m "addi $t0, $t1, -1".toList = .ok "2128ffff".toList :=
  ⟨⟨by decide, by decide⟩, by decide⟩

theorem witness_CanonicalTextIsFixedPoint : 0x0003f8ff < 2 ^ 32 ∧
    disassemble (defaultConfig .reject) .s (renderHex 8 0x0003f8ff) = .ok "HLT".toList ∧
    disassemble (defaultConfig .reject) .m (renderHex 8 0xafffffff) = .ok "sw $ra, 0xffff($ra)".toList := by decide

theorem witness_ClassifiersAreInverse : extended.WellFormed ∧
    (assemble extended .m "sll $t0, $t1, 31".toList = .ok "000947c0".toList ∧
      tokenize "sll $t0, $t1, 31".toList = "sll".toList :: ["$t0", "$t1", "31"].map String.toList ∧
      classifyEncodeM extended.m "sll".toList (["$t0", "$t1", "31"].map String.toList) = .ok .rShift) ∧
    (assemble extended .s "MOV [R7], R0".toList = .ok "00020107".toList ∧
      tokenize "MOV [R7], R0".toList = "MOV".toList :: ["[R7]", "R0"].map String.toList ∧
      classifyEncodeS extended.s "MOV".toList (["[R7]", "R0"].map String.toList) = .ok .loadStore) :=
  ⟨⟨by decide, by decide⟩, ⟨by decide, by decide, by decide⟩, ⟨by decide, by decide, by decide⟩⟩

/-- Every field of layout `R` at its largest value. -/
theorem witness_PackIsDisjointSum : layoutR.tiles 32 = true ∧ layoutR.names.Nodup ∧
    (∀ f ∈ layoutR, (fun n => 2 ^ layoutR.width n - 1) f.name < 2 ^ f.width) ∧ ⟨.rs, 5, 21⟩ ∈ layoutR ∧
    31 < 2 ^ 5 ∧ ⟨.rt, 5, 16⟩ ∈ layoutR ∧ FieldName.rt ≠ .rs := by decide

theorem witness_ExtractInvertsPack : layoutSW.tiles 32 = true ∧ layoutSW.names.Nodup ∧
    (∀ f ∈ layoutSW, (fun n => 2 ^ layoutSW.width n - 1) f.name < 2 ^ f.width) ∧ ⟨.pad, 14, 18⟩ ∈ layoutSW ∧
    0xffffffff < 2 ^ 32 := by decide

theorem witness_FitFollowsPolicy : ((-1 : Int) < 0 ∧ fit .reject (-1) 5 = .error .fieldOverflow) ∧
    ((2 : Int) ^ 5 ≤ 32 ∧ fit .reject 32 5 = .error .fieldOverflow) ∧
    ((0 : Int) ≤ 31 ∧ (31 : Int) < 2 ^ 5 ∧ fit .reject 31 5 = .ok 31) ∧
    fit .truncate (-1) 16 = .ok 0xffff ∧ fit .truncate 32 5 = .ok 0 := by decide

theorem witness_RenderHexDigits : (7 < 8 ∧ (renderHex 8 0xae280012)[7]? = some '2') ∧ 0xffffffff < 16 ^ 8 := by
  decide

theorem witness_HexInputExactLength : parseHex 8 "8E28fffF".toList = .ok 0x8e28ffff ∧
    parseHex 8 "8e28008".toList = .error .malformedInstruction ∧
    parseHex 8 "0x8e2800".toList = .error .malformedInstruction ∧ parseHex 0 [] = .ok 0 := by decide

theorem witness_NumeralGrammar : (∀ v, ¬ Numeral "".toList v) ∧ parseNumeral "-0XfF".toList = .ok (-255) ∧
    parseNumeral "007".toList = .ok 7 ∧ parseNumeral "0x".toList = .error .malformedInstruction := by
  refine ⟨?_, by decide, by decide, by decide⟩
  rintro v (⟨u, n, h, -⟩ | ⟨n, ⟨x, ds, -, h, -⟩ | ⟨h, -⟩, -⟩)
  · exact absurd h (by simp)
  · exact absurd h.symm (by simp)
  · exact h rfl

theorem witness_NumeralRendering : renderNumeral 0 = "0x0".toList ∧ renderNumeral 0xffff = "0xffff".toList ∧
    (31 : Nat) ≠ 0 ∧ renderNumeral 31 = "0x1f".toList := by decide

theorem witness_OperandSyntaxM : "s1".toList.head? ≠ some '$' ∧ ([] : Text).head? ≠ some '$' ∧
    "$zz".toList.head? = some '$' ∧ '(' ∉ "$s1".toList ∧ "0x8($s1".toList.getLast? ≠ some ')' ∧
    ('(' ∈ "0x8($s1)".toList ∧ "0x8($s1)".toList.getLast? = some ')') ∧
    parseNumeral "x".toList = .error .malformedInstruction ∧ parseNumeral "0x8".toList = .ok 8 ∧
    parseRegM (configM .reject) [] = .error .invalidOperandSyntax ∧ parseRegM (configM .reject) "$s1".toList = .ok 17 := by
  decide

theorem witness_OperandSyntaxS : "r7".toList.head? ≠ some 'R' ∧ "R8".toList.head? = some 'R' ∧
    ("[".toList.head? = some '[' ∧ "[".toList.getLast? ≠ some ']') ∧
    parseIndS (configS .reject) "[R7]".toList = .ok 7 ∧ parseImmS "#-1".toList = .ok (-1) := by decide

theorem witness_ForwardLookups : lookupOpcode opcM "lw".toList = .ok 0x23 ∧
    lookupFunction fnM "sra".toList = .ok 3 ∧ lookupRegisterCode regTableM "$ra".toList = .ok 31 ∧
    "LW".toList ∉ Table.keys opcM ∧ "$s8".toList ∉ Table.keys regTableM := by decide

theorem witness_ReverseLookups : opcodeToMnemonic opcM 0 = .ok "add".toList ∧
    functionToMnemonic fnM 0 = .ok "sll".toList ∧ codeToRegisterName regTableS 7 = .ok "R7".toList ∧
    8 ∉ Table.values regTableS := by decide

theorem witness_ReverseAfterForward : extended.WellFormed ∧ ("$ra".toList, 31) ∈ extended.m.reg ∧
    ("R7".toList, 7) ∈ extended.s.reg ∧ ("jr".toList, 8) ∈ extended.m.fn ∧
    (("jal".toList, 3) ∈ extended.m.opc ∧ 3 ≠ 0) ∧ ("HLT".toList, 8) ∈ extended.s.opc :=
  ⟨⟨by decide, by decide⟩, by decide, by decide, by decide, by decide, by decide⟩

theorem witness_TableTotality : "add".toList ∈ opcM.keys ∧
    ("HLT".toList ∈ opcS.keys ∧ "JMP".toList ∈ opcS.keys ∧ "SUB".toList ∈ opcS.keys) ∧
    "SUB".toList ∈ ["MOV", "ADD", "SUB"].map String.toList ∧ "R9".toList.head? = some 'R' ∧
    "#".toList.head? = some '#' ∧ "[".toList.head? = some '[' := by decide

/-- What the clauses of an instruction rule of `M` assume of an assembly request. -/
abbrev AsksM (p : Overflow) (rows : Table) (m : String) (code : Nat) (text : String) (ops : List String) : Prop :=
  (ready p [asmM text]).cfg.m = configM p ∧ (m.toList, code) ∈ rows ∧
  tokenize text.toList = m.toList :: ops.map String.toList ∧ (ready p [asmM text]).requests = asmM text :: []

/-- The same of a disassembly request. -/
abbrev ReadsM (p : Overflow) (rows : Table) (m : String) (code : Nat) (hex : String) (W : Word) : Prop :=
  (ready p [disM hex]).cfg.m = configM p ∧ (m.toList, code) ∈ rows ∧ parseHex 8 hex.toList = .ok W ∧
  (ready p [disM hex]).requests = disM hex :: []

/-- The same for the instruction rules of `S`. -/
abbrev AsksS (p : Overflow) (m : String) (code : Nat) (text : String) (ops : List String) : Prop :=
  (ready p [asmS text]).cfg.s = configS p ∧ (m.toList, code) ∈ opcS ∧
  tokenize text.toList = m.toList :: ops.map String.toList ∧ (ready p [asmS text]).requests = asmS text :: []

@[inherit_doc AsksS]
abbrev ReadsS (p : Overflow) (m : String) (code : Nat) (hex : String) (W : Word) : Prop :=
  (ready p [disS hex]).cfg.s = configS p ∧ (m.toList, code) ∈ opcS ∧ parseHex 8 hex.toList = .ok W ∧
  (ready p [disS hex]).requests = disS hex :: []

theorem witness_R3Rules :
    (AsksM .reject fnM "nor" 0x27 "nor $ra, $zero" ["$ra", "$zero"] ∧ 2 ≠ 3) ∧
    (AsksM .reject fnM "add" 0x20 "add $ra, $zz, 5" ["$ra", "$zz", "5"] ∧ firstFault [regFaultM "$ra".toList, regFaultM "$zz".toList, regFaultM "5".toList] = some .unknownRegister) ∧
    (AsksM .truncate fnM "sltu" 0x2b "sltu $ra, $zero, $ra" ["$ra", "$zero", "$ra"] ∧ ("$ra".toList, 31) ∈ regTableM ∧ ("$zero".toList, 0) ∈ regTableM) ∧
    (ReadsM .reject fnM "add" 0x20 "03fffFE0" 0x03ffffe0 ∧ slice 0x03ffffe0 31 26 = 0 ∧ slice 0x03ffffe0 5 0 = 0x20) :=
  ⟨⟨⟨rfl, by decide, by decide, rfl⟩, by decide⟩,
    ⟨⟨rfl, by decide, by decide, rfl⟩, by decide⟩,
    ⟨⟨rfl, by decide, by decide, rfl⟩, by decide, by decide⟩,
    ⟨⟨rfl, by decide, by decide, rfl⟩, by decide, by decide⟩⟩

theorem witness_RShiftRules :
    (AsksM .reject fnM "srl" 0x02 "srl" [] ∧ 0 ≠ 3) ∧
    (AsksM .reject fnM "sll" 0x00 "sll $ra $zero x" ["$ra", "$zero", "x"] ∧ firstFault [regFaultM "$ra".toList, regFaultM "$zero".toList, numeralFault "x".toList] = some .malformedInstruction) ∧
    (AsksM .reject fnM "sra" 0x03 "sra $ra $zero 31" ["$ra", "$zero", "31"] ∧ ("$ra".toList, 31) ∈ regTableM ∧ ("$zero".toList, 0) ∈ regTableM ∧ parseNumeral "31".toList = .ok 31 ∧ fit .reject 31 5 = .ok 31) ∧
    (AsksM .reject fnM "sra" 0x03 "sra $ra $zero 32" ["$ra", "$zero", "32"] ∧ parseNumeral "32".toList = .ok 32 ∧ fit .reject 32 5 = .error .fieldOverflow) ∧
    (AsksM .truncate fnM "sra" 0x03 "sra $ra $zero -1" ["$ra", "$zero", "-1"] ∧ parseNumeral "-1".toList = .ok (-1) ∧ fit .truncate (-1) 5 = .ok 31) ∧
    (ReadsM .reject fnM "sll" 0x00 "03ffffc0" 0x03ffffc0 ∧ slice 0x03ffffc0 31 26 = 0 ∧ slice 0x03ffffc0 5 0 = 0) :=
  ⟨⟨⟨rfl, by decide, by decide, rfl⟩, by decide⟩,
    ⟨⟨rfl, by decide, by decide, rfl⟩, by decide⟩,
    ⟨⟨rfl, by decide, by decide, rfl⟩, by decide, by decide, by decide, by decide⟩,
    ⟨⟨rfl, by decide, by decide, rfl⟩, by decide, by decide⟩,
    ⟨⟨rfl, by decide, by decide, rfl⟩, by decide, by decide⟩,
    ⟨⟨rfl, by decide, by decide, rfl⟩, by decide, by decide⟩⟩

theorem witness_ITypeArithmeticRules :
    (AsksM .reject opcM "xori" 0x0e "xori $ra $zero" ["$ra", "$zero"] ∧ 2 ≠ 3) ∧
    (AsksM .reject opcM "addi" 0x08 "addi $ra 5 x" ["$ra", "5", "x"] ∧ firstFault [regFaultM "$ra".toList, regFaultM "5".toList, numeralFault "x".toList] = some .invalidOperandSyntax) ∧
    (AsksM .reject opcM "ori" 0x0d "ori $ra $zero 0xffff" ["$ra", "$zero", "0xffff"] ∧ ("$ra".toList, 31) ∈ regTableM ∧ ("$zero".toList, 0) ∈ regTableM ∧ parseNumeral "0xffff".toList = .ok 65535 ∧ fit .reject 65535 16 = .ok 65535) ∧
    (AsksM .reject opcM "ori" 0x0d "ori $ra $zero 65536" ["$ra", "$zero", "65536"] ∧ parseNumeral "65536".toList = .ok 65536 ∧ fit .reject 65536 16 = .error .fieldOverflow) ∧
    (AsksM .truncate opcM "ori" 0x0d "ori $ra $zero -1" ["$ra", "$zero", "-1"] ∧ parseNumeral "-1".toList = .ok (-1) ∧ fit .truncate (-1) 16 = .ok 65535) ∧
    (ReadsM .reject opcM "addi" 0x08 "23ffffff" 0x23ffffff ∧ slice 0x23ffffff 31 26 = 0x08) :=
  ⟨⟨⟨rfl, by decide, by decide, rfl⟩, by decide⟩,
    ⟨⟨rfl, by decide, by decide, rfl⟩, by decide⟩,
    ⟨⟨rfl, by decide, by decide, rfl⟩, by decide, by decide, by decide, by decide⟩,
    ⟨⟨rfl, by decide, by decide, rfl⟩, by decide, by decide⟩,
    ⟨⟨rfl, by decide, by decide, rfl⟩, by decide, by decide⟩,
    ⟨⟨rfl, by decide, by decide, rfl⟩, by decide⟩⟩

theorem witness_ITypeMemoryRules :
    (AsksM .reject opcM "lw" 0x23 "lw $t0, $s1, 0x8" ["$t0", "$s1", "0x8"] ∧ 3 ≠ 2) ∧
    (AsksM .reject opcM "lb" 0x20 "lb t0 0x8($s1)" ["t0", "0x8($s1)"] ∧ regFaultM "t0".toList = some .invalidOperandSyntax) ∧
    (AsksM .reject opcM "lh" 0x21 "lh $t0 0x8" ["$t0", "0x8"] ∧ regFaultM "$t0".toList = none ∧ '(' ∉ "0x8".toList) ∧
    (AsksM .reject opcM "lh" 0x21 "lh $t0 0x8($s1" ["$t0", "0x8($s1"] ∧ regFaultM "$t0".toList = none ∧ "0x8($s1".toList.getLast? ≠ some ')') ∧
    (AsksM .reject opcM "lhu" 0x25 "lhu $t0 x($zz)" ["$t0", "x($zz)"] ∧ "x($zz)".toList = "x".toList ++ '(' :: ("$zz".toList ++ [')']) ∧ '(' ∉ "x".toList ∧ firstFault [regFaultM "$t0".toList, numeralFault "x".toList, regFaultM "$zz".toList] = some .malformedInstruction) ∧
    (AsksM .reject opcM "sb" 0x28 "sb $zero 0xffff($ra)" ["$zero", "0xffff($ra)"] ∧ "0xffff($ra)".toList = "0xffff".toList ++ '(' :: ("$ra".toList ++ [')']) ∧ '(' ∉ "0xffff".toList ∧ ("$zero".toList, 0) ∈ regTableM ∧ ("$ra".toList, 31) ∈ regTableM ∧ parseNumeral "0xffff".toList = .ok 65535 ∧ fit .reject 65535 16 = .ok 65535) ∧
    (AsksM .reject opcM "sw" 0x2b "sw $zero -1($ra)" ["$zero", "-1($ra)"] ∧ '(' ∉ "-1".toList ∧ parseNumeral "-1".toList = .ok (-1) ∧ fit .reject (-1) 16 = .error .fieldOverflow) ∧
    (ReadsM .reject opcM "sw" 0x2b "afffffff" 0xafffffff ∧ slice 0xafffffff 31 26 = 0x2b) :=
  ⟨⟨⟨rfl, by decide, by decide, rfl⟩, by decide⟩,
    ⟨⟨rfl, by decide, by decide, rfl⟩, by decide⟩,
    ⟨⟨rfl, by decide, by decide, rfl⟩, by decide, by decide⟩,
    ⟨⟨rfl, by decide, by decide, rfl⟩, by decide, by decide⟩,
    ⟨⟨rfl, by decide, by decide, rfl⟩, by decide, by decide, by decide⟩,
    ⟨⟨rfl, by decide, by decide, rfl⟩, by decide, by decide, by decide, by decide, by decide, by decide⟩,
    ⟨⟨rfl, by decide, by decide, rfl⟩, by decide, by decide, by decide⟩,
    ⟨⟨rfl, by decide, by decide, rfl⟩, by decide⟩⟩

theorem witness_JTypeRules :
    (AsksM .reject opcM "j" 0x02 "j" [] ∧ 0 ≠ 1) ∧
    (AsksM .reject opcM "j" 0x02 "j loop" ["loop"] ∧ numeralFault "loop".toList = some .malformedInstruction) ∧
    (AsksM .reject opcM "jal" 0x03 "jal 0x3ffffff" ["0x3ffffff"] ∧ parseNumeral "0x3ffffff".toList = .ok 67108863 ∧ fit .reject 67108863 26 = .ok 67108863) ∧
    (AsksM .reject opcM "jal" 0x03 "jal 0x4000000" ["0x4000000"] ∧ parseNumeral "0x4000000".toList = .ok 67108864 ∧ fit .reject 67108864 26 = .error .fieldOverflow) ∧
    (ReadsM .reject opcM "jal" 0x03 "0fffffff" 0x0fffffff ∧ slice 0x0fffffff 31 26 = 0x03) :=
  ⟨⟨⟨rfl, by decide, by decide, rfl⟩, by decide⟩,
    ⟨⟨rfl, by decide, by decide, rfl⟩, by decide⟩,
    ⟨⟨rfl, by decide, by decide, rfl⟩, by decide, by decide⟩,
    ⟨⟨rfl, by decide, by decide, rfl⟩, by decide, by decide⟩,
    ⟨⟨rfl, by decide, by decide, rfl⟩, by decide⟩⟩

theorem witness_HaltRule :
    (AsksS .reject "HLT" 8 "HLT R1" ["R1"] ∧ ["R1"] ≠ []) ∧
    AsksS .reject "HLT" 8 "  HLT ," [] ∧
    (ReadsS .reject "HLT" 8 "ffffc8ff" 0xffffc8ff ∧ slice 0xffffc8ff 11 8 = 8) :=
  ⟨⟨⟨rfl, by decide, by decide, rfl⟩, by decide⟩,
    ⟨rfl, by decide, by decide, rfl⟩,
    ⟨⟨rfl, by decide, by decide, rfl⟩, by decide⟩⟩

theorem witness_JumpRuleS :
    (AsksS .reject "JMP" 4 "JMP 1 2" ["1", "2"] ∧ 2 ≠ 1) ∧
    (AsksS .reject "JMP" 4 "JMP #5" ["#5"] ∧ numeralFault "#5".toList = some .malformedInstruction) ∧
    (AsksS .reject "JMP" 4 "JMP 255" ["255"] ∧ parseNumeral "255".toList = .ok 255 ∧ fit .reject 255 8 = .ok 255) ∧
    (AsksS .reject "JMP" 4 "JMP 256" ["256"] ∧ parseNumeral "256".toList = .ok 256 ∧ fit .reject 256 8 = .error .fieldOverflow) ∧
    (ReadsS .reject "JMP" 4 "fffff4ff" 0xfffff4ff ∧ slice 0xfffff4ff 11 8 = 4) :=
  ⟨⟨⟨rfl, by decide, by decide, rfl⟩, by decide⟩,
    ⟨⟨rfl, by decide, by decide, rfl⟩, by decide⟩,
    ⟨⟨rfl, by decide, by decide, rfl⟩, by decide, by decide⟩,
    ⟨⟨rfl, by decide, by decide, rfl⟩, by decide, by decide⟩,
    ⟨⟨rfl, by decide, by decide, rfl⟩, by decide⟩⟩

theorem witness_TwoOperandRules_encode :
    (AsksS .reject "MOV" 1 "MOV R1" ["R1"] ∧ 1 ≠ 2) ∧
    (AsksS .reject "MOV" 1 "MOV R9, 5" ["R9", "5"] ∧ "5".toList.head? ≠ some 'R') ∧
    (AsksS .reject "ADD" 2 "ADD 5, R1" ["5", "R1"] ∧ "R1".toList.head? = some 'R' ∧ "5".toList.head? ∉ [some 'R', some '#', some '[']) ∧
    (AsksS .reject "ADD" 2 "ADD R8, R1" ["R8", "R1"] ∧ "R1".toList.head? = some 'R' ∧ "R8".toList.head? = some 'R' ∧ firstFault [regFaultS "R8".toList, regFaultS "R1".toList] = some .unknownRegister) ∧
    (AsksS .reject "SUB" 3 "SUB R7, R0" ["R7", "R0"] ∧ ("R7".toList, 7) ∈ regTableS ∧ ("R0".toList, 0) ∈ regTableS) ∧
    (AsksS .reject "SUB" 3 "SUB #, R8" ["#", "R8"] ∧ "#".toList = '#' :: [] ∧ firstFault [numeralFault [], regFaultS "R8".toList] = some .malformedInstruction) ∧
    (AsksS .reject "SUB" 3 "SUB #255, R7" ["#255", "R7"] ∧ "#255".toList = '#' :: "255".toList ∧ parseNumeral "255".toList = .ok 255 ∧ ("R7".toList, 7) ∈ regTableS ∧ fit .reject 255 8 = .ok 255) ∧
    (AsksS .reject "SUB" 3 "SUB #256, R7" ["#256", "R7"] ∧ parseNumeral "256".toList = .ok 256 ∧ ("R7".toList, 7) ∈ regTableS ∧ fit .reject 256 8 = .error .fieldOverflow) ∧
    (AsksS .reject "MOV" 1 "MOV [, R7" ["[", "R7"] ∧ "[".toList.head? = some '[' ∧ "[".toList.getLast? ≠ some ']') ∧
    (AsksS .reject "MOV" 1 "MOV [], R7" ["[]", "R7"] ∧ "[]".toList = '[' :: ([] ++ [']']) ∧ firstFault [regFaultS [], regFaultS "R7".toList] = some .invalidOperandSyntax) ∧
    (AsksS .reject "MOV" 1 "MOV [R7], R0" ["[R7]", "R0"] ∧ "[R7]".toList = '[' :: ("R7".toList ++ [']']) ∧ ("R7".toList, 7) ∈ regTableS ∧ ("R0".toList, 0) ∈ regTableS) :=
  ⟨⟨⟨rfl, by decide, by decide, rfl⟩, by decide⟩,
    ⟨⟨rfl, by decide, by decide, rfl⟩, by decide⟩,
    ⟨⟨rfl, by decide, by decide, rfl⟩, by decide, by decide⟩,
    ⟨⟨rfl, by decide, by decide, rfl⟩, by decide, by decide, by decide⟩,
    ⟨⟨rfl, by decide, by decide, rfl⟩, by decide, by decide⟩,
    ⟨⟨rfl, by decide, by decide, rfl⟩, by decide, by decide⟩,
    ⟨⟨rfl, by decide, by decide, rfl⟩, by decide, by decide, by decide, by decide⟩,
    ⟨⟨rfl, by decide, by decide, rfl⟩, by decide, by decide, by decide⟩,
    ⟨⟨rfl, by decide, by decide, rfl⟩, by decide, by decide⟩,
    ⟨⟨rfl, by decide, by decide, rfl⟩, by decide, by decide⟩,
    ⟨⟨rfl, by decide, by decide, rfl⟩, by decide, by decide, by decide⟩⟩

theorem witness_TwoOperandRules_decode :
    (ReadsS .reject "SUB" 3 "00030300" 0x00030300 ∧ slice 0x00030300 11 8 = 3 ∧ slice 0x00030300 17 16 = 3) ∧
    (ReadsS .reject "SUB" 3 "00018300" 0x00018300 ∧ slice 0x00018300 11 8 = 3 ∧ 8 ≤ slice 0x00018300 15 12) ∧
    (ReadsS .reject "SUB" 3 "00000308" 0x00000308 ∧ slice 0x00000308 11 8 = 3 ∧ slice 0x00000308 17 16 ≠ 1 ∧ 8 ≤ slice 0x00000308 7 0) ∧
    (ReadsS .reject "SUB" 3 "fffc7307" 0xfffc7307 ∧ slice 0xfffc7307 11 8 = 3 ∧ slice 0xfffc7307 17 16 = 0 ∧ slice 0xfffc7307 15 12 < 8 ∧ slice 0xfffc7307 7 0 < 8) ∧
    (ReadsS .reject "SUB" 3 "fffd73ff" 0xfffd73ff ∧ slice 0xfffd73ff 11 8 = 3 ∧ slice 0xfffd73ff 17 16 = 1 ∧ slice 0xfffd73ff 15 12 < 8) ∧
    (ReadsS .reject "SUB" 3 "fffe7307" 0xfffe7307 ∧ slice 0xfffe7307 11 8 = 3 ∧ slice 0xfffe7307 17 16 = 2 ∧ slice 0xfffe7307 15 12 < 8 ∧ slice 0xfffe7307 7 0 < 8) :=
  ⟨⟨⟨rfl, by decide, by decide, rfl⟩, by decide, by decide⟩,
    ⟨⟨rfl, by decide, by decide, rfl⟩, by decide, by decide⟩,
    ⟨⟨rfl, by decide, by decide, rfl⟩, by decide, by decide⟩,
    ⟨⟨rfl, by decide, by decide, rfl⟩, by decide, by decide, by decide, by decide⟩,
    ⟨⟨rfl, by decide, by decide, rfl⟩, by decide, by decide, by decide⟩,
    ⟨⟨rfl, by decide, by decide, rfl⟩, by decide, by decide, by decide, by decide⟩⟩

theorem witness_ErrorKindsByOperation :
    disassemble (defaultConfig .reject) .m "10000000".toList = .err .unknownEncoding ∧
    disassemble (defaultConfig .reject) .s [] = .err .malformedInstruction := by decide

theorem witness_UnknownMnemonicExactly : (defaultConfig .reject).WellFormed ∧
    assemble (defaultConfig .reject) .m "ADD $s0".toList = .err .unknownMnemonic ∧
    assemble (defaultConfig .reject) .s "NOP R9".toList = .err .unknownMnemonic ∧
    "addi".toList ∉ Table.keys fnM :=
  ⟨⟨by decide, by decide⟩, by decide, by decide, by decide⟩

theorem witness_UnknownEncodingExactly :
    parseHex (configM .reject).hexDigits "0000002c".toList = .ok 0x2c ∧
    disassemble (defaultConfig .reject) .m "0000002c".toList = .err .unknownEncoding ∧
    parseHex (configS .reject).hexDigits "00000108".toList = .ok 0x108 ∧
    disassemble (defaultConfig .reject) .s "00000108".toList = .err .unknownEncoding := by decide

theorem witness_EmptyTextMalformed : (∀ ch ∈ " ,\t".toList, isSpace ch = true ∨ ch = ',') ∧
    ∀ ch ∈ ([] : Text), isSpace ch = true ∨ ch = ',' := by simp [isSpace]

theorem witness_FieldOverflowExactly :
    assemble (defaultConfig .reject) .m "sll $t0, $t1, 32".toList = .err .fieldOverflow ∧
    assemble (defaultConfig .reject) .m "j 0x4000000".toList = .err .fieldOverflow ∧
    assemble (defaultConfig .reject) .s "ADD #-1, R0".toList = .err .fieldOverflow ∧
    assemble (defaultConfig .truncate) .s "ADD #-1, R0".toList = .ok "000102ff".toList := by decide

theorem witness_IllegalWords : 0xffffffff < 2 ^ 32 ∧
    disassemble (defaultConfig .reject) .m (renderHex 8 0x2c) = .err .unknownEncoding ∧
    disassemble (defaultConfig .reject) .m (renderHex 8 0x2b) = .ok "sltu $zero, $zero, $zero".toList ∧
    disassemble (defaultConfig .reject) .s (renderHex 8 0x18100) = .err .unknownEncoding ∧
    disassemble (defaultConfig .reject) .s (renderHex 8 0x171ff) = .ok "MOV #0xff, R7".toList := by decide

/-- For the completion statements: a state of either policy with a request in either direction. -/
theorem witness_completions :
    ((ready .reject [asmM "x"]).cfg.m = configM .reject ∧ (ready .reject [asmM "x"]).requests = asmM "x" :: []) ∧
    ((ready .truncate [disM "x"]).cfg.m = configM .truncate ∧
      (ready .truncate [disM "x"]).requests = disM "x" :: []) ∧
    ((ready .reject [asmS "x"]).cfg.s = configS .reject ∧ (ready .reject [asmS "x"]).requests = asmS "x" :: []) ∧
    ((ready .truncate [disS "x"]).cfg.s = configS .truncate ∧
      (ready .truncate [disS "x"]).requests = disS "x" :: []) := ⟨⟨rfl, rfl⟩, ⟨rfl, rfl⟩, ⟨rfl, rfl⟩, ⟨rfl, rfl⟩⟩

theorem witness_R3Completes : (ready .reject [asmM "x"]).cfg.m = configM .reject ∧ 31 < 32 ∧ 0 < 32 ∧
    (ready .reject [asmM "x"]).requests = asmM "x" :: [] ∧ (ready .reject [disM "x"]).requests = disM "x" :: [] ∧
    exec (.nor 31 0 31) (ready .reject [asmM "x"]) =
      .next ((ready .reject [asmM "x"]).after (asmM "x") [] (.ok "001ff827".toList)) ∧
    exec (.nor 31 0 31) (ready .reject [disM "x"]) =
      .next ((ready .reject [disM "x"]).after (disM "x") [] (.ok "nor $ra, $zero, $ra".toList)) :=
  ⟨rfl, by decide, by decide, rfl, rfl, rfl, rfl⟩

theorem witness_RShiftCompletes : (ready .reject [asmM "x"]).cfg.m = configM .reject ∧ 31 < 32 ∧ 0 < 32 ∧
    (ready .reject [asmM "x"]).requests = asmM "x" :: [] ∧ (ready .reject [disM "x"]).requests = disM "x" :: [] ∧
    exec (.sra 31 0 31) (ready .reject [asmM "x"]) =
      .next ((ready .reject [asmM "x"]).after (asmM "x") [] (.ok "0000ffc3".toList)) ∧
    exec (.sra 31 0 31) (ready .reject [disM "x"]) =
      .next ((ready .reject [disM "x"]).after (disM "x") [] (.ok "sra $ra, $zero, 0x1f".toList)) :=
  ⟨rfl, by decide, by decide, rfl, rfl, rfl, rfl⟩

theorem witness_ITypeArithmeticCompletes : (ready .reject [asmM "x"]).cfg.m = configM .reject ∧ 31 < 32 ∧ 0 < 32 ∧ 0xffff < 2 ^ 16 ∧
    (ready .reject [asmM "x"]).requests = asmM "x" :: [] ∧ (ready .reject [disM "x"]).requests = disM "x" :: [] ∧
    exec (.xori 0 31 0xffff) (ready .reject [asmM "x"]) =
      .next ((ready .reject [asmM "x"]).after (asmM "x") [] (.ok "3be0ffff".toList)) ∧
    exec (.xori 0 31 0xffff) (ready .reject [disM "x"]) =
      .next ((ready .reject [disM "x"]).after (disM "x") [] (.ok "xori $zero, $ra, 0xffff".toList)) :=
  ⟨rfl, by decide, by decide, by decide, rfl, rfl, rfl, rfl⟩

theorem witness_ITypeMemoryCompletes : (ready .reject [asmM "x"]).cfg.m = configM .reject ∧ 31 < 32 ∧ 0 < 32 ∧ 0xffff < 2 ^ 16 ∧
    (ready .reject [asmM "x"]).requests = asmM "x" :: [] ∧ (ready .reject [disM "x"]).requests = disM "x" :: [] ∧
    exec (.sb 0 31 0xffff) (ready .reject [asmM "x"]) =
      .next ((ready .reject [asmM "x"]).after (asmM "x") [] (.ok "a3e0ffff".toList)) ∧
    exec (.sb 0 31 0xffff) (ready .reject [disM "x"]) =
      .next ((ready .reject [disM "x"]).after (disM "x") [] (.ok "sb $zero, 0xffff($ra)".toList)) :=
  ⟨rfl, by decide, by decide, by decide, rfl, rfl, rfl, rfl⟩

theorem witness_JTypeCompletes : (ready .reject [asmM "x"]).cfg.m = configM .reject ∧ 0x3ffffff < 2 ^ 26 ∧
    (ready .reject [asmM "x"]).requests = asmM "x" :: [] ∧ (ready .reject [disM "x"]).requests = disM "x" :: [] ∧
    exec (.jal 0x3ffffff) (ready .reject [asmM "x"]) =
      .next ((ready .reject [asmM "x"]).after (asmM "x") [] (.ok "0fffffff".toList)) ∧
    exec (.jal 0x3ffffff) (ready .reject [disM "x"]) =
      .next ((ready .reject [disM "x"]).after (disM "x") [] (.ok "jal 0x3ffffff".toList)) :=
  ⟨rfl, by decide, rfl, rfl, rfl, rfl⟩

theorem witness_HaltAndJumpComplete : (ready .reject [asmS "x"]).cfg.s = configS .reject ∧ 255 < 256 ∧
    (ready .reject [asmS "x"]).requests = asmS "x" :: [] ∧ (ready .reject [disS "x"]).requests = disS "x" :: [] ∧
    exec (.jmp 255) (ready .reject [asmS "x"]) =
      .next ((ready .reject [asmS "x"]).after (asmS "x") [] (.ok "000004ff".toList)) ∧
    exec (.jmp 255) (ready .reject [disS "x"]) =
      .next ((ready .reject [disS "x"]).after (disS "x") [] (.ok "JMP 0xff".toList)) :=
  ⟨rfl, by decide, rfl, rfl, rfl, rfl⟩

theorem witness_RegRegAndLoadStoreComplete : (ready .reject [asmS "x"]).cfg.s = configS .reject ∧ 7 < 8 ∧ 0 < 8 ∧
    (ready .reject [asmS "x"]).requests = asmS "x" :: [] ∧ (ready .reject [disS "x"]).requests = disS "x" :: [] ∧
    exec (.subLS 0 7) (ready .reject [asmS "x"]) =
      .next ((ready .reject [asmS "x"]).after (asmS "x") [] (.ok "00027300".toList)) ∧
    exec (.subLS 0 7) (ready .reject [disS "x"]) =
      .next ((ready .reject [disS "x"]).after (disS "x") [] (.ok "SUB [R0], R7".toList)) :=
  ⟨rfl, by decide, by decide, rfl, rfl, rfl, rfl⟩

theorem witness_ImmRegCompletes : (ready .reject [asmS "x"]).cfg.s = configS .reject ∧ 255 < 256 ∧ 7 < 8 ∧
    (ready .reject [asmS "x"]).requests = asmS "x" :: [] ∧ (ready .reject [disS "x"]).requests = disS "x" :: [] ∧
    exec (.addIR 255 7) (ready .reject [asmS "x"]) =
      .next ((ready .reject [asmS "x"]).after (asmS "x") [] (.ok "000172ff".toList)) ∧
    exec (.addIR 255 7) (ready .reject [disS "x"]) =
      .next ((ready .reject [disS "x"]).after (disS "x") [] (.ok "ADD #0xff, R7".toList)) :=
  ⟨rfl, by decide, by decide, rfl, rfl, rfl, rfl⟩

theorem witness_OverflowTrapsOrWraps :
    ((ready .reject [asmM "x"]).cfg = defaultConfig .reject ∧ (ready .reject [asmM "x"]).requests = asmM "x" :: [] ∧
      (-1 : Int) < 0 ∧ (2 : Int) ^ 16 ≤ 65536 ∧
      exec (.lw 0 0 65536) (ready .reject [asmM "x"]) =
        .next ((ready .reject [asmM "x"]).after (asmM "x") [] (.err .fieldOverflow))) ∧
    ((ready .truncate [asmS "x"]).cfg = defaultConfig .truncate ∧
      exec (.jmp 256) (ready .truncate [asmS "x"]) =
        .next ((ready .truncate [asmS "x"]).after (asmS "x") [] (.ok "00000400".toList))) :=
  ⟨⟨rfl, rfl, by decide, by decide, rfl⟩, ⟨rfl, rfl⟩⟩

end Sys2Proof.Tests
end

section
/-!
SUPPORT and PROOF for 00_scope.md: over any well-formed configuration the decoder inverts the encoder
(R5, R95 to R98). An admissible instruction is packed from its field values, every field of the packed word
is extracted again, and a word with these fields classifies and decodes as that instruction.
-/

namespace Sys2Proof

/-! ## Fields of a packed word, by name -/

/-- Every named field of the layout can hold the value given for it. -/
def Layout.Holds (l : Layout) (v : FieldName → Nat) : Prop := ∀ n ∈ l.names, v n < 2 ^ l.width n

theorem Layout.Holds.lt_width {l : Layout} {v : FieldName → Nat} (hv : l.Holds v) (hd : l.names.Nodup) :
    ∀ f ∈ l, v f.name < 2 ^ f.width := fun f hf => by
  have h := hv f.name (List.mem_map_of_mem hf)
  rwa [width_of_mem hd hf] at h

/-- The first field of a tiling lies directly below the top, whatever follows it. -/
theorem extract_first {l : Layout} {top : Nat} {n : FieldName} {ns : List FieldName} (ht : l.tiles top = true)
    (hn : l.names = n :: ns) (W : Word) :
    extract l n W = (W >>> (top - l.width n)) % 2 ^ l.width n := by
  cases l with
  | nil => cases hn
  | cons f fs =>
    obtain ⟨hf, -⟩ := tiles_cons ht
    obtain ⟨rfl, -⟩ := List.cons.inj hn
    have hoff : top - f.width = f.offset := by omega
    simp [extract, Layout.width, hoff]

/-- Two tilings of one word width with the same first field read it alike. -/
theorem extract_first_congr {l l' : Layout} {top : Nat} {n : FieldName} {ns ns' : List FieldName}
    (ht : l.tiles top = true) (hn : l.names = n :: ns) (ht' : l'.tiles top = true) (hn' : l'.names = n :: ns')
    (hw : l'.width n = l.width n) (W : Word) : extract l n W = extract l' n W := by
  rw [extract_first ht hn, extract_first ht' hn', hw]

/-! ## Classifying and decoding a word by its fields -/

/-- A word of opcode 0 is the mnemonic of its function code (R82). -/
theorem classifyDecodeM_function {c : ConfigM} {m : Text} {fn : Nat} {W : Word} (hc : c.ClassesOk)
    (hop : extract c.layoutR .opcode W = 0) (hfn : extract c.layoutR .funct W = fn) (hm : (m, fn) ∈ c.fn) :
    classifyDecodeM c W = .ok (m, if m ∈ c.shiftList then .rShift else .r3) := by
  obtain ⟨-, -, hnodup, -⟩ := hc
  have hrev := reverseLookup_of_nodup hnodup hm
  simp only [classifyDecodeM, hop, hfn, if_true, functionToMnemonic, hrev, bind, Except.bind]

/-- A word of any other opcode is the mnemonic of that opcode (R82). -/
theorem classifyDecodeM_opcode {c : ConfigM} {m : Text} {op : Nat} {W : Word} (hc : c.ClassesOk)
    (hop : extract c.layoutR .opcode W = op) (h0 : op ≠ 0) (hm : (m, op) ∈ c.opc) :
    classifyDecodeM c W = .ok (m, if op ∈ c.jumpCodes then .jType else .iType) := by
  obtain ⟨-, -, -, hnodup, -⟩ := hc
  have hrev := reverseLookup_of_filter_nodup hnodup h0 hm
  simp only [classifyDecodeM, hop, h0, if_false, opcodeToMnemonic, hrev, bind, Except.bind]
  split <;> rfl

/-- A word of `S` is the mnemonic of its opcode; its format is given by the class of the opcode, and by the
`mode` field where that class has two operands (R83). -/
theorem classifyDecodeS_opcode {c : ConfigS} {m : Text} {op : Nat} {W : Word} (hc : c.ClassesOk)
    (hop : extract c.layoutSW .opcode W = op) (hm : (m, op) ∈ c.opc) :
    classifyDecodeS c W =
      if op = c.haltOpcode then .ok (m, .noOperand)
      else if op ∈ c.jumpCodes then .ok (m, .singleTarget)
      else (modeFormat (extract c.layoutSW .mode W)).map (Prod.mk m) := by
  have hrev := reverseLookup_of_nodup hc.1 hm
  simp only [classifyDecodeS, hop, opcodeToMnemonic, hrev, bind, Except.bind]
  rfl

theorem classifyDecodeS_mode {c : ConfigS} {m : Text} {op : Nat} {W : Word} {f : FormatS} (hc : c.ClassesOk)
    (hop : extract c.layoutSW .opcode W = op) (hm : (m, op) ∈ c.opc) (hhalt : op ≠ c.haltOpcode)
    (hjump : op ∉ c.jumpCodes) (hf : modeFormat (extract c.layoutSW .mode W) = .ok f) :
    classifyDecodeS c W = .ok (m, f) := by
  rw [classifyDecodeS_opcode hc hop hm, if_neg hhalt, if_neg hjump, hf]
  rfl

/-- The instruction of `M` that the fields of `W` give under a format (R96). -/
def readM (c : ConfigM) (W : Word) (m : Text) : FormatM → AbstractInstr
  | .r3 => .r3 m (extract c.layoutR .rd W) (extract c.layoutR .rs W) (extract c.layoutR .rt W)
  | .rShift => .rShift m (extract c.layoutR .rd W) (extract c.layoutR .rt W) (extract c.layoutR .shamt W)
  | .iType => .iType m (extract c.layoutI .rt W) (extract c.layoutI .rs W) (extract c.layoutI .imm W)
  | .jType => .jType m (extract c.layoutJ .target W)

theorem decodeM_of_classify {c : ConfigM} {W : Word} {m : Text} {f : FormatM}
    (h : classifyDecodeM c W = .ok (m, f)) : decodeM c W = .ok (readM c W m f) := by
  unfold decodeM
  rw [h]
  cases f <;> rfl

/-- The instruction of `S` that the fields of `W` give under a format (R98). -/
def readS (c : ConfigS) (W : Word) (m : Text) : FormatS → AbstractInstr
  | .noOperand => .noOperand m
  | .singleTarget => .singleTarget m (extract c.layoutSW .operand W)
  | .regReg => .regReg m (extract c.layoutSW .operand W) (extract c.layoutSW .dst W)
  | .immReg => .immReg m (extract c.layoutSW .operand W) (extract c.layoutSW .dst W)
  | .loadStore => .loadStore m (extract c.layoutSW .operand W) (extract c.layoutSW .dst W)

theorem decodeS_of_classify {c : ConfigS} {W : Word} {m : Text} {f : FormatS}
    (h : classifyDecodeS c W = .ok (m, f)) : decodeS c W = .ok (readS c W m f) := by
  unfold decodeS
  rw [h]
  cases f <;> rfl

end Sys2Proof

namespace Sys2Proof.Machine

/-! ## The layout, the code and the field values of an instruction -/

/-- The field names of an instruction's layout (R43 to R45, R47). -/
def fieldNames : AbstractInstr → List FieldName
  | .r3 .. | .rShift .. => [.opcode, .rs, .rt, .rd, .shamt, .funct]
  | .iType .. => [.opcode, .rs, .rt, .imm]
  | .jType .. => [.opcode, .target]
  | .noOperand .. | .singleTarget .. | .regReg .. | .immReg .. | .loadStore .. =>
    [.pad, .mode, .dst, .opcode, .operand]

theorem fieldNames_nodup (a : AbstractInstr) : (fieldNames a).Nodup := by
  cases a <;> simp [fieldNames]

/-- In a well-formed configuration every layout has its names and tiles the word (R40, R42). -/
theorem layoutOf_wellFormed {c : Config} (hc : c.WellFormed) (a : AbstractInstr) :
    (layoutOf c a).names = fieldNames a ∧ (layoutOf c a).tiles (c.wordBits a.isa) = true := by
  obtain ⟨⟨-, -, -, -, -, hR, hI, hJ, -⟩, -, -, -, hnS, htS, -⟩ := hc
  cases a with
  | r3 | rShift => exact hR
  | iType => exact hI
  | jType => exact hJ
  | noOperand | singleTarget | regReg | immReg | loadStore => exact ⟨hnS, htS⟩

/-- The mnemonic of `a` has the format of `a`, and `code` is the code it is packed with: its function code
for the formats `R3` and `RShift`, its opcode for every other (R80, R81). -/
def HasCode (c : Config) (code : Nat) : AbstractInstr → Prop
  | .r3 m .. => (m, code) ∈ c.m.fn ∧ m ∉ c.m.shiftList
  | .rShift m .. => (m, code) ∈ c.m.fn ∧ m ∈ c.m.shiftList
  | .iType m .. => (m, code) ∈ c.m.opc ∧ code ≠ 0 ∧ code ∉ c.m.jumpCodes
  | .jType m .. => (m, code) ∈ c.m.opc ∧ code ∈ c.m.jumpCodes
  | .noOperand m => (m, code) ∈ c.s.opc ∧ code = c.s.haltOpcode
  | .singleTarget m .. => (m, code) ∈ c.s.opc ∧ code ∈ c.s.jumpCodes
  | .regReg m .. | .immReg m .. | .loadStore m .. =>
    (m, code) ∈ c.s.opc ∧ code ≠ c.s.haltOpcode ∧ code ∉ c.s.jumpCodes

theorem formatMatches_iff_hasCode {c : Config} {a : AbstractInstr} :
    FormatMatches c a ↔ ∃ code, HasCode c code a := by
  have key_iff {m : Text} {T : Table} {p : Prop} : (m ∈ T.keys ∧ p) ↔ ∃ v, (m, v) ∈ T ∧ p :=
    ⟨fun ⟨hk, hp⟩ => (exists_mem_of_key hk).imp fun _ hv => ⟨hv, hp⟩, fun ⟨_, hv, hp⟩ => ⟨mem_keys hv, hp⟩⟩
  cases a with
  | r3 | rShift => exact key_iff
  | noOperand => exact ⟨fun h => ⟨_, h, rfl⟩, fun ⟨_, h, rfl⟩ => h⟩
  | iType | jType | singleTarget | regReg | immReg | loadStore => exact Iff.rfl

/-- The value of every field of the word of `a`, whose code is `code`; a don't-care field is 0 (R54). -/
def fieldValues (code : Nat) : AbstractInstr → FieldName → Nat
  | .r3 _ rd rs rt => fun
    | .rs => rs | .rt => rt | .rd => rd | .funct => code | _ => 0
  | .rShift _ rd rt sh => fun
    | .rt => rt | .rd => rd | .shamt => sh.toNat | .funct => code | _ => 0
  | .iType _ rt rs imm => fun
    | .opcode => code | .rs => rs | .rt => rt | .imm => imm.toNat | _ => 0
  | .jType _ tg => fun
    | .opcode => code | .target => tg.toNat | _ => 0
  | .noOperand _ => fun
    | .opcode => code | _ => 0
  | .singleTarget _ tg => fun
    | .opcode => code | .operand => tg.toNat | _ => 0
  | .regReg _ src dst => fun
    | .mode => modeRegReg | .dst => dst | .opcode => code | .operand => src | _ => 0
  | .immReg _ imm dst => fun
    | .mode => modeImmReg | .dst => dst | .opcode => code | .operand => imm.toNat | _ => 0
  | .loadStore _ base dst => fun
    | .mode => modeLoadStore | .dst => dst | .opcode => code | .operand => base | _ => 0

/-- Every field of the word `W`, in the layout of `a`, has the value `a` gives it. -/
def HasFields (c : Config) (code : Nat) (a : AbstractInstr) (W : Word) : Prop :=
  ∀ n ∈ fieldNames a, extract (layoutOf c a) n W = fieldValues code a n

/-! ## Encoding an admissible instruction -/

/-- The numeric operand of an admissible instruction, if it has one, is stored as it is. -/
theorem fit_of_admissible {c : Config} {a : AbstractInstr} {v : Int} {f : FieldName} (h : Admissible c a)
    (hv : numericOperand a = some (v, f)) (p : Overflow) :
    fit p v ((layoutOf c a).width f) = .ok v.toNat := by
  obtain ⟨-, -, hnum⟩ := h
  exact fit_of_inField (inField_iff.mpr (hnum _ hv))

/-- R95 and R97 on an admissible instruction: its field values are packed, none refused and none wrapped. -/
theorem encode_of_admissible {c : Config} {a : AbstractInstr} {code : Nat} (hc : c.WellFormed)
    (hcode : HasCode c code a) (ha : Admissible c a) :
    encode c a = .ok (pack (layoutOf c a) (fieldValues code a)) := by
  obtain ⟨⟨⟨hopcM, hfnM, -⟩, -⟩, ⟨hopcS, -⟩, -⟩ := hc
  have hfit {v : Int} {f : FieldName} (h : numericOperand a = some (v, f)) := fit_of_admissible ha h
  cases a with
  | r3 => exact bind_eq_ok.mpr ⟨code, lookup_of_mem hfnM hcode.1, rfl⟩
  | rShift =>
    exact bind_eq_ok.mpr ⟨code, lookup_of_mem hfnM hcode.1, bind_eq_ok.mpr ⟨_, hfit rfl _, rfl⟩⟩
  | iType | jType =>
    exact bind_eq_ok.mpr ⟨code, lookup_of_mem hopcM hcode.1, bind_eq_ok.mpr ⟨_, hfit rfl _, rfl⟩⟩
  | noOperand | regReg | loadStore => exact bind_eq_ok.mpr ⟨code, lookup_of_mem hopcS hcode.1, rfl⟩
  | singleTarget | immReg =>
    exact bind_eq_ok.mpr ⟨code, lookup_of_mem hopcS hcode.1, bind_eq_ok.mpr ⟨_, hfit rfl _, rfl⟩⟩

/-- The field the code of an instruction is packed into. -/
def codeField : AbstractInstr → FieldName
  | .r3 .. | .rShift .. => .funct
  | .iType .. | .jType .. | .noOperand .. | .singleTarget .. | .regReg .. | .immReg .. | .loadStore .. => .opcode

/-- The code of a mnemonic fits its field in the layout of every format (R19 point 2). -/
theorem code_lt_width {c : Config} {a : AbstractInstr} {code : Nat} (hc : c.WellFormed)
    (hcode : HasCode c code a) : code < 2 ^ (layoutOf c a).width (codeField a) := by
  obtain ⟨⟨-, ⟨hopM, -, hfn, -⟩, -, -, -, -, -, -, hwI, hwJ⟩, ⟨-, -, -, hopS, -⟩, -⟩ := hc
  cases a with
  | r3 | rShift => exact hfn _ (mem_values hcode.1)
  | iType => exact hwI ▸ hopM _ (mem_values hcode.1)
  | jType => exact hwJ ▸ hopM _ (mem_values hcode.1)
  | noOperand | singleTarget | regReg | immReg | loadStore => exact hopS _ (mem_values hcode.1)

/-- The three codes of the `mode` field fit it (R47; log entry 4). -/
theorem mode_lt_width {c : ConfigS} (hc : c.LayoutsOk) {k : Nat} (hk : k < 4) :
    k < 2 ^ c.layoutSW.width .mode := by
  obtain ⟨-, -, -, hmode⟩ := hc
  calc k < 2 ^ 2 := hk
    _ ≤ 2 ^ c.layoutSW.width .mode := Nat.pow_le_pow_right (by decide) hmode

/-- Every field of the layout can hold the value an admissible instruction gives it. -/
theorem fieldValues_holds {c : Config} {a : AbstractInstr} {code : Nat} (hc : c.WellFormed)
    (hcode : HasCode c code a) (ha : Admissible c a) : (layoutOf c a).Holds (fieldValues code a) := by
  have hcodeLt := code_lt_width hc hcode
  have hmode {k : Nat} (hk : k < 4) := mode_lt_width hc.2.2.2 hk
  have hnum {v : Int} {f : FieldName} (h : numericOperand a = some (v, f)) :=
    fit_lt (fit_of_admissible ha h .reject)
  obtain ⟨-, hreg, -⟩ := ha
  unfold Layout.Holds
  rw [(layoutOf_wellFormed hc a).1]
  cases a with
  | r3 | noOperand => simp_all [fieldNames, fieldValues, codeField, registerOperands]
  | rShift | iType | jType | singleTarget =>
    have hnumLt := hnum rfl
    simp_all [fieldNames, fieldValues, codeField, registerOperands]
  | regReg | loadStore =>
    simp_all [fieldNames, fieldValues, codeField, registerOperands, layoutOf, modeRegReg, modeLoadStore]
  | immReg =>
    have hnumLt := hnum rfl
    simp_all [fieldNames, fieldValues, codeField, registerOperands, layoutOf, modeImmReg]

/-- Packing the field values of an admissible instruction gives a word of the word width that has them. -/
theorem pack_fieldValues {c : Config} {a : AbstractInstr} {code : Nat} (hc : c.WellFormed)
    (hcode : HasCode c code a) (ha : Admissible c a) :
    pack (layoutOf c a) (fieldValues code a) < 2 ^ c.wordBits a.isa ∧
      HasFields c code a (pack (layoutOf c a) (fieldValues code a)) := by
  obtain ⟨hnames, htiles⟩ := layoutOf_wellFormed hc a
  have hnodup : (layoutOf c a).names.Nodup := hnames ▸ fieldNames_nodup a
  have hfits := (fieldValues_holds hc hcode ha).lt_width hnodup
  exact ⟨pack_lt htiles hfits, fun _ hn => extract_pack' htiles hnodup hfits (hnames ▸ hn)⟩

/-! ## Decoding a word by the field values of an instruction -/

/-- A word of layout `I` or `J` has its opcode where the decoder looks for it, in layout `R` (R82; log
entry 4). -/
theorem extract_opcode_layoutR {c : Config} {a : AbstractInstr} (hc : c.WellFormed) (ha : a.isa = .m) (W : Word) :
    extract c.m.layoutR .opcode W = extract (layoutOf c a) .opcode W := by
  obtain ⟨-, -, -, -, -, ⟨hnR, htR⟩, ⟨hnI, htI⟩, ⟨hnJ, htJ⟩, hwI, hwJ⟩ := hc.1
  cases a with
  | r3 | rShift => rfl
  | iType => exact extract_first_congr htR hnR htI hnI hwI W
  | jType => exact extract_first_congr htR hnR htJ hnJ hwJ W
  | noOperand | singleTarget | regReg | immReg | loadStore => cases ha

/-- The numeric operand of an admissible instruction is the integer its field is read as. -/
theorem natCast_numericOperand {c : Config} {a : AbstractInstr} {v : Int} {f : FieldName} (h : Admissible c a)
    (hv : numericOperand a = some (v, f)) : (v.toNat : Int) = v := by
  obtain ⟨-, -, hnum⟩ := h
  exact Int.toNat_of_nonneg (hnum _ hv).1

/-- A word of `M` with the field values of an admissible instruction decodes to it (R96). -/
theorem decodeM_of_fields {c : Config} {a : AbstractInstr} {code : Nat} {W : Word} (hc : c.WellFormed)
    (hcode : HasCode c code a) (ha : Admissible c a) (hisa : a.isa = .m)
    (hW : HasFields c code a W) :
    decodeM c.m W = .ok a := by
  have hint {v : Int} {f : FieldName} (h : numericOperand a = some (v, f)) := natCast_numericOperand ha h
  have hopR := extract_opcode_layoutR hc hisa W
  obtain ⟨-, -, -, hcls, -⟩ := hc.1
  cases a with
  | r3 m rd rs rt =>
    simp only [HasFields, fieldNames, fieldValues, layoutOf, List.forall_mem_cons] at hW
    obtain ⟨hop, hrs, hrt, hrd, -, hfn, -⟩ := hW
    have hclass : classifyDecodeM c.m W = .ok (m, .r3) := by
      rw [classifyDecodeM_function hcls hop hfn hcode.1, if_neg hcode.2]
    rw [decodeM_of_classify hclass, readM, hrd, hrs, hrt]
  | rShift m rd rt sh =>
    simp only [HasFields, fieldNames, fieldValues, layoutOf, List.forall_mem_cons] at hW
    obtain ⟨hop, -, hrt, hrd, hsh, hfn, -⟩ := hW
    have hclass : classifyDecodeM c.m W = .ok (m, .rShift) := by
      rw [classifyDecodeM_function hcls hop hfn hcode.1, if_pos hcode.2]
    rw [decodeM_of_classify hclass, readM, hrd, hrt, hsh, hint rfl]
  | iType m rt rs imm =>
    obtain ⟨hmem, h0, hj⟩ := hcode
    simp only [HasFields, fieldNames, fieldValues, layoutOf, List.forall_mem_cons] at hW hopR
    obtain ⟨hop, hrs, hrt, himm, -⟩ := hW
    have hclass : classifyDecodeM c.m W = .ok (m, .iType) := by
      rw [classifyDecodeM_opcode hcls (hopR.trans hop) h0 hmem, if_neg hj]
    rw [decodeM_of_classify hclass, readM, hrt, hrs, himm, hint rfl]
  | jType m tg =>
    obtain ⟨hmem, hj⟩ := hcode
    have h0 : code ≠ 0 := by
      obtain ⟨-, -, -, -, -, -, hzero⟩ := hcls
      exact fun h => hzero (h ▸ hj)
    simp only [HasFields, fieldNames, fieldValues, layoutOf, List.forall_mem_cons] at hW hopR
    obtain ⟨hop, htg, -⟩ := hW
    have hclass : classifyDecodeM c.m W = .ok (m, .jType) := by
      rw [classifyDecodeM_opcode hcls (hopR.trans hop) h0 hmem, if_pos hj]
    rw [decodeM_of_classify hclass, readM, htg, hint rfl]
  | noOperand | singleTarget | regReg | immReg | loadStore => cases hisa

/-- A word of `S` with the field values of an admissible instruction decodes to it (R98). -/
theorem decodeS_of_fields {c : Config} {a : AbstractInstr} {code : Nat} {W : Word} (hc : c.WellFormed)
    (hcode : HasCode c code a) (ha : Admissible c a) (hisa : a.isa = .s)
    (hW : HasFields c code a W) :
    decodeS c.s W = .ok a := by
  have hint {v : Int} {f : FieldName} (h : numericOperand a = some (v, f)) := natCast_numericOperand ha h
  obtain ⟨-, hcls, -⟩ := hc.2
  cases a with
  | noOperand m =>
    obtain ⟨hmem, hhalt⟩ := hcode
    have hclass : classifyDecodeS c.s W = .ok (m, .noOperand) := by
      rw [classifyDecodeS_opcode hcls (hW .opcode (by simp [fieldNames])) hmem]
      exact if_pos hhalt
    rw [decodeS_of_classify hclass, readS]
  | singleTarget m tg =>
    obtain ⟨hmem, hjump⟩ := hcode
    have hhalt : code ≠ c.s.haltOpcode := by
      obtain ⟨-, -, hdisjoint⟩ := hcls
      exact fun h => hdisjoint (h ▸ hjump)
    simp only [HasFields, fieldNames, fieldValues, layoutOf, List.forall_mem_cons] at hW
    obtain ⟨-, -, -, hop, hoperand, -⟩ := hW
    have hclass : classifyDecodeS c.s W = .ok (m, .singleTarget) := by
      rw [classifyDecodeS_opcode hcls hop hmem, if_neg hhalt, if_pos hjump]
    rw [decodeS_of_classify hclass, readS, hoperand, hint rfl]
  | regReg m src dst =>
    obtain ⟨hmem, hhalt, hjump⟩ := hcode
    simp only [HasFields, fieldNames, fieldValues, layoutOf, List.forall_mem_cons] at hW
    obtain ⟨-, hmode, hdst, hop, hoperand, -⟩ := hW
    have hclass := classifyDecodeS_mode hcls hop hmem hhalt hjump (hmode ▸ rfl : modeFormat _ = .ok .regReg)
    rw [decodeS_of_classify hclass, readS, hoperand, hdst]
  | immReg m imm dst =>
    obtain ⟨hmem, hhalt, hjump⟩ := hcode
    simp only [HasFields, fieldNames, fieldValues, layoutOf, List.forall_mem_cons] at hW
    obtain ⟨-, hmode, hdst, hop, hoperand, -⟩ := hW
    have hclass := classifyDecodeS_mode hcls hop hmem hhalt hjump (hmode ▸ rfl : modeFormat _ = .ok .immReg)
    rw [decodeS_of_classify hclass, readS, hoperand, hdst, hint rfl]
  | loadStore m base dst =>
    obtain ⟨hmem, hhalt, hjump⟩ := hcode
    simp only [HasFields, fieldNames, fieldValues, layoutOf, List.forall_mem_cons] at hW
    obtain ⟨-, hmode, hdst, hop, hoperand, -⟩ := hW
    have hclass := classifyDecodeS_mode hcls hop hmem hhalt hjump (hmode ▸ rfl : modeFormat _ = .ok .loadStore)
    rw [decodeS_of_classify hclass, readS, hoperand, hdst]
  | r3 | rShift | iType | jType => cases hisa

/-- A word with the field values of an admissible instruction in the fields of its layout decodes to it. -/
theorem decodeWord_of_fields {c : Config} {a : AbstractInstr} {code : Nat} {W : Word} (hc : c.WellFormed)
    (hcode : HasCode c code a) (ha : Admissible c a)
    (hW : HasFields c code a W) :
    decodeWord c a.isa W = .ok a := by
  cases hisa : a.isa with
  | m => exact decodeM_of_fields hc hcode ha hisa hW
  | s => exact decodeS_of_fields hc hcode ha hisa hW

/-- Settles O13: the encoded word has the instruction's field values, and a word that has them decodes to the
instruction. -/
theorem decodeEncodeAnyConfig : Obligations.DecodeEncodeAnyConfig := by
  unfold Obligations.DecodeEncodeAnyConfig
  intro c a hc ha
  obtain ⟨code, hcode⟩ := formatMatches_iff_hasCode.mp ha.1
  obtain ⟨hlt, hfields⟩ := pack_fieldValues hc hcode ha
  exact ⟨_, encode_of_admissible hc hcode ha, hlt, decodeWord_of_fields hc hcode ha hfields⟩

end Sys2Proof.Machine
end

section
/-!
SUPPORT and PROOF for 10_state.md: what the state holds after reset (R12 to R18, R26), what a step changes
(R27, R34) and what nothing writes (R10), and the invariant of every run. A step either finds no request and
leaves the state alone, or answers the first request with the codec's response: every statement about steps is
read off these two cases.
-/

namespace Sys2Proof.Machine

/-! ## The state after a request -/

@[simp] theorem State.after_cfg (s : State) (r : Request) (rest : List Request) (a : Response) :
    (s.after r rest a).cfg = s.cfg := rfl
@[simp] theorem State.after_requests (s : State) (r : Request) (rest : List Request) (a : Response) :
    (s.after r rest a).requests = rest := rfl
@[simp] theorem State.after_exchanges (s : State) (r : Request) (rest : List Request) (a : Response) :
    (s.after r rest a).exchanges = s.exchanges ++ [(r, a)] := rfl

/-- Ending the request in progress leaves the state the claims speak of. -/
theorem State.answer_eq_after {s : State} {r : Request} {rest : List Request} (h : s.requests = r :: rest)
    (a : Response) : s.answer r a = s.after r rest a := by
  simp only [State.answer, State.after, h, List.tail_cons]

/-! ## What a step can do -/

/-- The instruction `a`, run on the request in progress, ends it with its translation. -/
theorem translate_eq_after {a : AbstractInstr} {s : State} {r : Request} {rest : List Request}
    (h : s.requests = r :: rest) :
    translate a s = .next (s.after r rest (responseOf (outputOf s.cfg a r))) := by
  rw [translate_cons h, State.answer_eq_after h]

/-- A step answers the request in progress with the codec's response, whether it parses or not. -/
theorem step_answers {s : State} {r : Request} {rest : List Request} (h : s.requests = r :: rest) :
    Answers s r rest (respond s.cfg r) := by
  unfold Answers
  cases hp : parseRequest s.cfg r with
  | error e => rw [step_parse_error h hp, respond_of_parse_error hp, State.answer_eq_after h]
  | ok a => rw [step_parse_ok h hp, respond_of_parse_ok hp, translate_eq_after h]

/-- Between `s` and `s'` at most the first request is served, with the response `f` gives it: without a request
nothing changes. -/
def Serves (f : Request → Response) (s s' : State) : Prop :=
  (s.requests = [] ∧ s' = s) ∨ ∃ r rest, s.requests = r :: rest ∧ s' = s.after r rest (f r)

/-- All a step can do: serve the first request with the codec's response. -/
theorem step_serves {s s' : State} (h : step s = .next s') : Serves (respond s.cfg) s s' := by
  cases hs : s.requests with
  | nil =>
    rw [step_nil hs] at h
    exact .inl ⟨hs, (Host.Outcome.next.inj h).symm⟩
  | cons r rest =>
    rw [step_answers hs] at h
    exact .inr ⟨r, rest, hs, (Host.Outcome.next.inj h).symm⟩

/-- All an instruction can do: serve the first request with the instruction's translation. -/
theorem exec_serves {i : Instr} {s s' : State} (h : exec i s = .next s') :
    Serves (fun r => responseOf (outputOf s.cfg i.toAbstract r)) s s' := by
  rw [exec_eq_translate] at h
  cases hs : s.requests with
  | nil =>
    rw [translate_nil hs] at h
    exact .inl ⟨hs, (Host.Outcome.next.inj h).symm⟩
  | cons r rest =>
    rw [translate_eq_after hs] at h
    exact .inr ⟨r, rest, hs, (Host.Outcome.next.inj h).symm⟩

/-- Serving a request writes no table, constant, layout or policy (R10). -/
theorem Serves.cfg_eq {f : Request → Response} {s s' : State} (h : Serves f s s') : s'.cfg = s.cfg := by
  obtain ⟨-, rfl⟩ | ⟨r, rest, -, rfl⟩ := h
  · rfl
  · exact s.after_cfg r rest (f r)

/-! ## The default configuration is well formed -/

/-- R19 for the default tables of `M`; the policy plays no part. -/
theorem configM_wellFormed (p : Overflow) : (configM p).WellFormed := by
  have hkeys : (configM p).KeysDistinct :=
    ⟨(by decide : opcM.keys.Nodup), (by decide : fnM.keys.Nodup), (by decide : regTableM.keys.Nodup)⟩
  have hreg : (configM p).RegInjective := (by decide : regTableM.values.Nodup)
  have hcodes : (configM p).CodesFit := by cases p <;> decide
  have hclasses : (configM p).ClassesOk := by cases p <;> decide
  have hlayouts : (configM p).LayoutsOk := by cases p <;> decide
  exact ⟨hkeys, hcodes, hreg, hclasses, hlayouts⟩

/-- R19 for the default tables of `S`; the policy plays no part. -/
theorem configS_wellFormed (p : Overflow) : (configS p).WellFormed := by
  have htables : (configS p).TablesOk := by cases p <;> decide
  have hclasses : (configS p).ClassesOk := by cases p <;> decide
  have hlayouts : (configS p).LayoutsOk := by cases p <;> decide
  exact ⟨htables, hclasses, hlayouts⟩

theorem defaultConfig_wellFormed (p : Overflow) : (defaultConfig p).WellFormed :=
  ⟨configM_wellFormed p, configS_wellFormed p⟩

/-! ## The invariant -/

/-- A state that holds no exchange is consistent as soon as its configuration is well formed. -/
theorem State.consistent_of_no_exchanges {s : State} (hc : s.cfg.WellFormed) (h : s.exchanges = []) :
    s.Consistent := by
  refine ⟨hc, ?_⟩
  simp [h]

/-- The codec's own response keeps a state consistent: the configuration that answered the exchanges held
before is the one that answers this. -/
theorem State.Consistent.after_respond {s : State} (hs : s.Consistent) (r : Request) (rest : List Request) :
    (s.after r rest (respond s.cfg r)).Consistent := by
  obtain ⟨hc, hex⟩ := hs
  refine ⟨hc, fun p hp => ?_⟩
  rw [State.after_exchanges, List.mem_append, List.mem_singleton] at hp
  obtain hold | rfl := hp
  · exact hex p hold
  · rfl

/-! ## The statements -/

/-- Settles O3, by the two cases of a step. -/
theorem stepKeepsConsistent : Obligations.StepKeepsConsistent := by
  unfold Obligations.StepKeepsConsistent
  intro s s' hs hstep
  obtain ⟨-, rfl⟩ | ⟨r, rest, -, rfl⟩ := step_serves hstep
  · exact hs
  · exact hs.after_respond r rest

/-- Settles O5: a step and an instruction do no more than serve a request. -/
theorem tablesAreReadOnly : Obligations.TablesAreReadOnly := by
  unfold Obligations.TablesAreReadOnly
  exact ⟨fun _ _ hstep => (step_serves hstep).cfg_eq, fun _ _ _ hexec => (exec_serves hexec).cfg_eq⟩

/-- Settles O1: the reset state is written out, so each of its tables, lists and layouts is compared with the
rules' contents by evaluation. -/
theorem resetContents : Obligations.ResetContents := by
  unfold Obligations.ResetContents
  refine ⟨?opcM, ?fnM, ?regM, rfl, ?shiftList, ?memList, rfl, rfl, rfl, rfl, rfl, rfl, ?opcS, ?regS, rfl, rfl, rfl,
    rfl, rfl, rfl, rfl⟩
  case opcM | fnM | regM | shiftList | memList | opcS | regS => decide

/-- Settles O2: the default configuration is well formed and nothing has been served. -/
theorem resetConsistent : Obligations.ResetConsistent := by
  unfold Obligations.ResetConsistent
  exact ⟨State.consistent_of_no_exchanges (defaultConfig_wellFormed .reject) rfl, rfl, rfl⟩

/-- Settles O6: parsed or not, the request in progress is answered with the codec's response. -/
theorem stepAnswersRequest : Obligations.StepAnswersRequest := by
  unfold Obligations.StepAnswersRequest
  exact fun _ _ _ h => step_answers h

end Sys2Proof.Machine
end

section
/-!
SUPPORT and PROOF for 20_memory.md: requests are independent (R36) and neither what was served nor what is yet
to come shows in a response (R34). A run of as many steps as there are requests is computed once
(`run_serves_all`): it appends each request with its own response, in order, so a reordering of the requests is a
reordering of the exchanges.
-/

namespace Sys2Proof.Machine

/-! ## All requests served -/

/-- A request and the response the configuration `c` gives it. -/
def exchangeOf (c : Config) (r : Request) : Request × Response := (r, respond c r)

/-- `s` once every request it holds has been answered: what a run of `s.requests.length` steps comes to, by
`run_serves_all`. -/
def State.allServed (s : State) : State where
  cfg := s.cfg
  requests := []
  exchanges := s.exchanges ++ s.requests.map (exchangeOf s.cfg)

theorem State.allServed_of_nil {s : State} (h : s.requests = []) : s.allServed = s := by
  obtain ⟨c, rs, es⟩ := s
  obtain rfl : rs = [] := h
  simp only [State.allServed, List.map_nil, List.append_nil]

/-- Serving the first request with the codec's response takes nothing from what is served in the end. -/
theorem State.allServed_after {s : State} {r : Request} {rest : List Request} (h : s.requests = r :: rest) :
    (s.after r rest (respond s.cfg r)).allServed = s.allServed := by
  simp only [State.allServed, State.after, h, List.map_cons, exchangeOf, List.append_assoc, List.singleton_append]

/-- States without exchanges whose requests are reorderings of each other come to hold reordered exchanges. -/
theorem State.allServed_exchanges_perm {s t : State} (hcfg : s.cfg = t.cfg) (hs : s.exchanges = [])
    (ht : t.exchanges = []) (hperm : s.requests.Perm t.requests) :
    s.allServed.exchanges.Perm t.allServed.exchanges := by
  simp only [State.allServed, hs, ht, hcfg, List.nil_append]
  exact hperm.map (exchangeOf t.cfg)

/-! ## Running the machine -/

theorem run_zero (s : State) : Host.Core.run core 0 s = .next s := rfl

/-- A run of any machine goes on from the state its first step gives. -/
theorem run_succ_of_step (M : Host.Core) {s s' : M.State} (h : M.step s = .next s') (k : Nat) :
    M.run (k + 1) s = M.run k s' := by
  rw [Host.Core.run, h]

/-- As many steps as there are requests serve them all, by induction on the requests: each step answers the
first and leaves the others. -/
theorem run_serves_all {rs : List Request} :
    ∀ {s : State}, s.requests = rs → Host.Core.run core rs.length s = .next s.allServed := by
  induction rs with
  | nil =>
    intro s h
    rw [List.length_nil, run_zero, State.allServed_of_nil h]
  | cons r rest ih =>
    intro s h
    rw [List.length_cons, run_succ_of_step core (step_answers h), ih (s.after_requests r rest _), State.allServed_after h]

/-! ## Issuing a request -/

/-- The host may issue a request before the request in progress ends or after. -/
theorem State.after_issue (s : State) (q r : Request) (rest : List Request) (a : Response) :
    (s.issue q).after r (rest ++ [q]) a = (s.after r rest a).issue q := rfl

/-- Issuing a request leaves the request in progress first. -/
theorem State.issue_requests_cons {s : State} {r : Request} {rest : List Request} (h : s.requests = r :: rest)
    (q : Request) : (s.issue q).requests = r :: (rest ++ [q]) := by
  rw [State.issue_requests, h, List.cons_append]

/-! ## The statements -/

/-- Settles O7: a run serves every request with its own response, and the exchanges it adds follow the order of
the requests. -/
theorem requestsAreIndependent : Obligations.RequestsAreIndependent := by
  unfold Obligations.RequestsAreIndependent
  refine ⟨fun s => run_serves_all rfl, fun s t hcfg hs ht hperm => ?_⟩
  exact ⟨s.allServed, t.allServed, run_serves_all rfl, run_serves_all rfl,
    State.allServed_exchanges_perm hcfg hs ht hperm⟩

/-- Settles O8: the response is the codec's response to the request under the configuration, which the two
states share and issuing a request keeps. -/
theorem historyDoesNotInterfere : Obligations.HistoryDoesNotInterfere := by
  unfold Obligations.HistoryDoesNotInterfere
  constructor
  · intro s t r u v hcfg hs ht
    have hstep : step t = .next (t.after r v (respond s.cfg r)) := hcfg ▸ step_answers ht
    exact ⟨respond s.cfg r, step_answers hs, hstep⟩
  · intro s s' q hne hstep
    obtain ⟨hnil, -⟩ | ⟨r, rest, hs, rfl⟩ := step_serves hstep
    · exact absurd hnil hne
    · rw [← State.after_issue]
      exact step_answers (State.issue_requests_cons hs q)

end Sys2Proof.Machine
end

section
/-!
SUPPORT and PROOF for 30_encoding.md: the don't-care fields of a format (R54). A text reads as an instruction whose
mnemonic has its format and whose registers have names, and `encode` packs 0 into the fields its format does not
show; a decoded word has a classification, which needs none of these fields.
-/

namespace Sys2Proof

/-! ## What the decoder can answer -/

/-- The opcode alone tells the formats with a function code from the others (R82). -/
theorem classifyDecodeM_ok {c : ConfigM} {W : Word} {m : Text} {f : FormatM}
    (h : classifyDecodeM c W = .ok (m, f)) : extract c.layoutR .opcode W = 0 ↔ f = .r3 ∨ f = .rShift := by
  unfold classifyDecodeM at h
  split at h
  case isTrue h0 =>
    obtain ⟨k, -, hk⟩ := bind_eq_ok.mp h
    cases hk
    refine ⟨fun _ => ?_, fun _ => h0⟩
    split
    · exact .inr rfl
    · exact .inl rfl
  case isFalse h0 =>
    split at h
    all_goals
      obtain ⟨k, -, hk⟩ := bind_eq_ok.mp h
      cases hk
      simp [h0]

/-- The codes of the `mode` field, each with its format (R47). -/
theorem modeFormat_eq_ok {k : Nat} {f : FormatS} (h : modeFormat k = .ok f) :
    (k = modeRegReg ∧ f = .regReg) ∨ (k = modeImmReg ∧ f = .immReg) ∨ (k = modeLoadStore ∧ f = .loadStore) := by
  unfold modeFormat at h
  split at h <;> cases h
  · exact .inl ⟨rfl, rfl⟩
  · exact .inr (.inl ⟨rfl, rfl⟩)
  · exact .inr (.inr ⟨rfl, rfl⟩)

/-- The opcode of a word of `S` is that of a two-operand mnemonic: neither halt nor jump (R83). -/
def ConfigS.TwoOperandWord (c : ConfigS) (W : Word) : Prop :=
  extract c.layoutSW .opcode W ≠ c.haltOpcode ∧ extract c.layoutSW .opcode W ∉ c.jumpCodes

/-- Everything the classifier of `S` can answer for a word: the format is that of the opcode's class, or the one
the `mode` field selects (R83). -/
theorem classifyDecodeS_ok {c : ConfigS} {W : Word} {m : Text} {f : FormatS}
    (h : classifyDecodeS c W = .ok (m, f)) :
    (f = .noOperand ∧ extract c.layoutSW .opcode W = c.haltOpcode) ∨
    (f = .singleTarget ∧ extract c.layoutSW .opcode W ∈ c.jumpCodes) ∨
    (c.TwoOperandWord W ∧ modeFormat (extract c.layoutSW .mode W) = .ok f) := by
  unfold classifyDecodeS at h
  obtain ⟨k, -, h⟩ := bind_eq_ok.mp h
  split at h
  case isTrue hhalt =>
    cases h
    exact .inl ⟨rfl, hhalt⟩
  case isFalse hhalt =>
    split at h
    case isTrue hjump =>
      cases h
      exact .inr (.inl ⟨rfl, hjump⟩)
    case isFalse hjump =>
      obtain ⟨g, hg, h⟩ := bind_eq_ok.mp h
      cases h
      exact .inr (.inr ⟨⟨hhalt, hjump⟩, hg⟩)

/-- A word of `M` that decodes has a classification, and the instruction is read under it. -/
theorem decodeM_eq_ok {c : ConfigM} {W : Word} {a : AbstractInstr} (h : decodeM c W = .ok a) :
    ∃ m f, classifyDecodeM c W = .ok (m, f) ∧ a = readM c W m f := by
  obtain ⟨⟨m, f⟩, hcl, -⟩ := bind_eq_ok.mp h
  rw [decodeM_of_classify hcl] at h
  cases h
  exact ⟨m, f, hcl, rfl⟩

/-- A word of `S` that decodes has a classification, and the instruction is read under it. -/
theorem decodeS_eq_ok {c : ConfigS} {W : Word} {a : AbstractInstr} (h : decodeS c W = .ok a) :
    ∃ m f, classifyDecodeS c W = .ok (m, f) ∧ a = readS c W m f := by
  obtain ⟨⟨m, f⟩, hcl, -⟩ := bind_eq_ok.mp h
  rw [decodeS_of_classify hcl] at h
  cases h
  exact ⟨m, f, hcl, rfl⟩

/-- The classifier of `M` looks at the opcode, and at the function code where the opcode is 0. -/
theorem classifyDecodeM_congr {c : ConfigM} {W W' : Word}
    (hop : extract c.layoutR .opcode W' = extract c.layoutR .opcode W)
    (hfn : extract c.layoutR .opcode W = 0 → extract c.layoutR .funct W' = extract c.layoutR .funct W) :
    classifyDecodeM c W' = classifyDecodeM c W := by
  unfold classifyDecodeM
  rw [hop]
  by_cases h0 : extract c.layoutR .opcode W = 0
  · rw [if_pos h0, if_pos h0, hfn h0]
  · rw [if_neg h0, if_neg h0]

/-- The classifier of `S` looks at the opcode, and at the mode where the opcode is that of two operands. -/
theorem classifyDecodeS_congr {c : ConfigS} {W W' : Word}
    (hop : extract c.layoutSW .opcode W' = extract c.layoutSW .opcode W)
    (hmode : c.TwoOperandWord W → extract c.layoutSW .mode W' = extract c.layoutSW .mode W) :
    classifyDecodeS c W' = classifyDecodeS c W := by
  unfold classifyDecodeS
  rw [hop]
  by_cases hhalt : extract c.layoutSW .opcode W = c.haltOpcode
  · simp only [if_pos hhalt]
  · by_cases hjump : extract c.layoutSW .opcode W ∈ c.jumpCodes
    · simp only [if_pos hjump]
    · rw [hmode ⟨hhalt, hjump⟩]

end Sys2Proof

namespace Sys2Proof.Machine

/-! ## A request from its input to its output -/

theorem responseOf_eq_ok {res : Except ErrorKind Text} {out : Text} : responseOf res = .ok out ↔ res = .ok out := by
  cases res <;> simp

/-- What `assemble` answers is the hex string of the word of the instruction the text reads as. -/
theorem assemble_eq_ok {c : Config} {isa : Isa} {text h : Text} (ha : assemble c isa text = .ok h) :
    ∃ a W, parse c isa text = .ok a ∧ encode c a = .ok W ∧ h = renderHex (c.hexDigits a.isa) W := by
  unfold assemble at ha
  cases hp : parseRequest c (.assemble isa text) with
  | error e =>
    rw [respond_of_parse_error hp] at ha
    cases ha
  | ok a =>
    rw [respond_of_parse_ok hp, responseOf_eq_ok] at ha
    obtain ⟨W, hW, ha⟩ := bind_eq_ok.mp ha
    cases ha
    exact ⟨a, W, hp, hW, rfl⟩

/-- A word of either instruction set is read back from its hex string (R40, R93, R94). -/
theorem parseHex_renderHex_of_wellFormed {c : Config} {isa : Isa} {W : Word} (hc : c.WellFormed)
    (hW : W < 2 ^ c.wordBits isa) : parseHex (c.hexDigits isa) (renderHex (c.hexDigits isa) W) = .ok W := by
  have hbits : c.wordBits isa = 4 * c.hexDigits isa := by
    obtain ⟨⟨-, -, -, -, hM, -⟩, -, -, hS, -⟩ := hc
    cases isa with
    | m => exact hM
    | s => exact hS
  rw [hbits, Nat.pow_mul] at hW
  exact parseHex_renderHex hW

/-- `disassemble` of a word's hex string decodes the word and writes the text of what it decodes to. -/
theorem disassemble_renderHex {c : Config} {isa : Isa} {W : Word} (hc : c.WellFormed)
    (hW : W < 2 ^ c.wordBits isa) :
    disassemble c isa (renderHex (c.hexDigits isa) W) = responseOf (decodeWord c isa W >>= renderText c) := by
  have hdecode : parseRequest c (.disassemble isa (renderHex (c.hexDigits isa) W)) = decodeWord c isa W := by
    simp only [parseRequest, decode, parseHex_renderHex_of_wellFormed hc hW, bind, Except.bind]
  unfold disassemble
  cases hd : decodeWord c isa W with
  | error e => rw [respond_of_parse_error (hdecode.trans hd)]; rfl
  | ok a => rw [respond_of_parse_ok (hdecode.trans hd)]; rfl

/-! ## What a text reads as -/

/-- The register table of an instruction set. -/
def regTable (c : Config) : Isa → Table
  | .m => c.m.reg
  | .s => c.s.reg

/-- Every register operand of `a` has a name. -/
def RegistersNamed (c : Config) (a : AbstractInstr) : Prop :=
  ∀ q ∈ registerOperands a, q.1 ∈ (regTable c a.isa).values

theorem parseRegM_mem_values {c : ConfigM} {t : Text} {v : Nat} (h : parseRegM c t = .ok v) : v ∈ c.reg.values :=
  mem_values (parseRegM_ok h).2

theorem parseRegS_mem_values {c : ConfigS} {t : Text} {v : Nat} (h : parseRegS c t = .ok v) : v ∈ c.reg.values :=
  mem_values (parseRegS_ok h).2

/-- A text of `M` reads as an instruction of `M` whose mnemonic has its format and whose registers have names. -/
theorem parseM_formatMatches {c : Config} {text : Text} {a : AbstractInstr} (h : parseM c.m text = .ok a) :
    a.isa = .m ∧ FormatMatches c a ∧ RegistersNamed c a := by
  have hspell := parseM_eq_ok.mp h
  cases a with
  | r3 m rd rs rt =>
    obtain ⟨hf, x, y, z, -, hx, hy, hz⟩ := hspell
    obtain ⟨-, hkey, hshift⟩ := formatM_ok hf
    refine ⟨rfl, ⟨hkey, hshift⟩, ?_⟩
    simp only [RegistersNamed, registerOperands, List.forall_mem_cons]
    exact ⟨parseRegM_mem_values hx, parseRegM_mem_values hy, parseRegM_mem_values hz, by simp⟩
  | rShift m rd rt sh =>
    obtain ⟨hf, x, y, z, -, hx, hy, -⟩ := hspell
    obtain ⟨-, hkey, hshift⟩ := formatM_ok hf
    refine ⟨rfl, ⟨hkey, hshift⟩, ?_⟩
    simp only [RegistersNamed, registerOperands, List.forall_mem_cons]
    exact ⟨parseRegM_mem_values hx, parseRegM_mem_values hy, by simp⟩
  | iType m rt rs imm =>
    obtain ⟨hf, hops⟩ := hspell
    refine ⟨rfl, formatM_ok hf, ?_⟩
    simp only [RegistersNamed, registerOperands, List.forall_mem_cons]
    obtain ⟨-, x, y, z, -, hx, hy, -⟩ | ⟨-, x, y, -, hx, hy⟩ := hops
    · exact ⟨parseRegM_mem_values hx, parseRegM_mem_values hy, by simp⟩
    · obtain ⟨num, reg, -, -, -, hreg⟩ := parseMemM_ok hy
      exact ⟨parseRegM_mem_values hx, parseRegM_mem_values hreg, by simp⟩
  | jType m tg =>
    obtain ⟨hf, -⟩ := hspell
    obtain ⟨op, hmem, -, hjump⟩ := formatM_ok hf
    exact ⟨rfl, ⟨op, hmem, hjump⟩, by simp [RegistersNamed, registerOperands]⟩
  | noOperand | singleTarget | regReg | immReg | loadStore => exact hspell.elim

/-- The same for a text of `S`. -/
theorem parseS_formatMatches {c : Config} {text : Text} {a : AbstractInstr} (h : parseS c.s text = .ok a) :
    a.isa = .s ∧ FormatMatches c a ∧ RegistersNamed c a := by
  have hspell := parseS_eq_ok.mp h
  have hformat {m : Text} : TwoOperandS c.s m →
      ∃ op, (m, op) ∈ c.s.opc ∧ op ≠ c.s.haltOpcode ∧ op ∉ c.s.jumpCodes :=
    fun ⟨op, hop, hclass⟩ => ⟨op, lookup_mem hop, hclass⟩
  cases a with
  | noOperand m => exact ⟨rfl, lookup_mem hspell.1, by simp [RegistersNamed, registerOperands]⟩
  | singleTarget m tg =>
    obtain ⟨⟨op, hop, -, hjump⟩, -⟩ := hspell
    exact ⟨rfl, ⟨op, lookup_mem hop, hjump⟩, by simp [RegistersNamed, registerOperands]⟩
  | regReg m src dst =>
    obtain ⟨htwo, x, y, -, -, -, hx, hy⟩ := hspell
    refine ⟨rfl, hformat htwo, ?_⟩
    simp only [RegistersNamed, registerOperands, List.forall_mem_cons]
    exact ⟨parseRegS_mem_values hx, parseRegS_mem_values hy, by simp⟩
  | immReg m imm dst =>
    obtain ⟨htwo, x, y, -, -, -, -, hy⟩ := hspell
    refine ⟨rfl, hformat htwo, ?_⟩
    simp only [RegistersNamed, registerOperands, List.forall_mem_cons]
    exact ⟨parseRegS_mem_values hy, by simp⟩
  | loadStore m base dst =>
    obtain ⟨htwo, x, y, -, hshape, -, hx, hy⟩ := hspell
    obtain ⟨reg, -, hreg⟩ := parseIndS_ok (shape_eq_indirect.mp hshape) hx
    refine ⟨rfl, hformat htwo, ?_⟩
    simp only [RegistersNamed, registerOperands, List.forall_mem_cons]
    exact ⟨parseRegS_mem_values hreg, parseRegS_mem_values hy, by simp⟩
  | r3 | rShift | iType | jType => exact hspell.elim

theorem parse_formatMatches {c : Config} {isa : Isa} {text : Text} {a : AbstractInstr}
    (h : parse c isa text = .ok a) : a.isa = isa ∧ FormatMatches c a ∧ RegistersNamed c a := by
  cases isa with
  | m => exact parseM_formatMatches h
  | s => exact parseS_formatMatches h

/-- A register with a name fits the field it goes to (R19 point 2). -/
theorem RegistersNamed.lt_width {c : Config} {a : AbstractInstr} (hc : c.WellFormed) (h : RegistersNamed c a) :
    ∀ q ∈ registerOperands a, q.1 < 2 ^ (layoutOf c a).width q.2 := by
  obtain ⟨⟨-, ⟨-, -, -, hregM⟩, -⟩, ⟨-, -, -, -, -, hregS, -⟩, -⟩ := hc
  intro q hq
  have hname := h q hq
  cases a with
  | r3 | rShift | iType =>
    obtain ⟨hrs, hrt, hrd, hrsI, hrtI⟩ := hregM _ hname
    simp only [registerOperands, List.mem_cons, List.not_mem_nil, or_false] at hq
    rcases hq with rfl | rfl | rfl <;> assumption
  | regReg | immReg | loadStore =>
    obtain ⟨hdst, hoperand⟩ := hregS _ hname
    simp only [registerOperands, List.mem_cons, List.not_mem_nil, or_false] at hq
    rcases hq with rfl | rfl <;> assumption
  | jType | noOperand | singleTarget => cases hq

/-! ## What an encoded word decodes to -/

/-- `a` with its numeric operand, if it has one, replaced by `v`. -/
def withNumeric (v : Int) : AbstractInstr → AbstractInstr
  | .rShift m rd rt _ => .rShift m rd rt v
  | .iType m rt rs _ => .iType m rt rs v
  | .jType m _ => .jType m v
  | .singleTarget m _ => .singleTarget m v
  | .immReg m _ dst => .immReg m v dst
  | a => a

theorem withNumeric_isa (v : Int) (a : AbstractInstr) : (withNumeric v a).isa = a.isa := by
  cases a <;> rfl

/-- What is encoded is the word of an admissible instruction: the same one, with the value `fit` stores for its
numeric operand. -/
theorem exists_admissible_of_encode {c : Config} {a : AbstractInstr} {W : Word} (hc : c.WellFormed)
    (hf : FormatMatches c a) (hr : RegistersNamed c a) (h : encode c a = .ok W) :
    ∃ n : Nat, Admissible c (withNumeric n a) ∧ encode c (withNumeric n a) = .ok W := by
  have hreg := hr.lt_width hc
  have hfits {n w : Nat} (hn : n < 2 ^ w) : 0 ≤ (n : Int) ∧ (n : Int) < 2 ^ w := ⟨by omega, by exact_mod_cast hn⟩
  cases a with
  | r3 | noOperand | regReg | loadStore => exact ⟨0, ⟨hf, hreg, fun _ hp => nomatch hp⟩, h⟩
  | rShift | iType | jType | singleTarget | immReg =>
    obtain ⟨code, hcode, h⟩ := bind_eq_ok.mp h
    obtain ⟨n, hn, h⟩ := bind_eq_ok.mp h
    refine ⟨n, ⟨hf, hreg, fun p hp => ?_⟩, ?_⟩
    · cases hp
      exact hfits (fit_lt hn)
    · exact bind_eq_ok.mpr ⟨code, hcode, bind_eq_ok.mpr ⟨n, fit_natCast (fit_lt hn), h⟩⟩

/-! ## Don't-care fields -/

/-- An instruction gives each of its don't-care fields the value 0 (R54). -/
theorem fieldValues_dontCare (code : Nat) (a : AbstractInstr) : ∀ n ∈ dontCare a, fieldValues code a n = 0 := by
  cases a <;> simp [dontCare, fieldValues]

/-- A word with its don't-care fields cleared has 0 in these and its own values in the others. -/
theorem extract_clearDontCare {c : Config} {a : AbstractInstr} (hc : c.WellFormed) (W : Word) {n : FieldName}
    (hn : n ∈ fieldNames a) : extract (layoutOf c a) n (clearDontCare c a W) =
      if n ∈ dontCare a then 0 else extract (layoutOf c a) n W := by
  obtain ⟨hnames, htiles⟩ := layoutOf_wellFormed hc a
  have hnodup : (layoutOf c a).names.Nodup := hnames ▸ fieldNames_nodup a
  have hholds : (layoutOf c a).Holds fun k => if k ∈ dontCare a then 0 else extract (layoutOf c a) k W := by
    intro k _
    dsimp only
    split
    · exact Nat.two_pow_pos _
    · exact extract_lt W k _
  exact extract_pack' htiles hnodup (hholds.lt_width hnodup) (hnames ▸ hn)

/-- The word of an admissible instruction has its don't-care fields 0 (R54). -/
theorem clearDontCare_of_encode {c : Config} {a : AbstractInstr} {W : Word} (hc : c.WellFormed)
    (ha : Admissible c a) (h : encode c a = .ok W) : clearDontCare c a W = W := by
  obtain ⟨code, hcode⟩ := formatMatches_iff_hasCode.mp ha.1
  obtain ⟨-, hfields⟩ := pack_fieldValues hc hcode ha
  obtain ⟨hnames, -⟩ := layoutOf_wellFormed hc a
  obtain rfl : pack (layoutOf c a) (fieldValues code a) = W :=
    Except.ok.inj ((encode_of_admissible hc hcode ha).symm.trans h)
  refine pack_congr fun f hf => ?_
  split
  case isTrue hdc => exact (fieldValues_dontCare code a f.name hdc).symm
  case isFalse => exact hfields f.name (hnames ▸ List.mem_map_of_mem hf)

/-- The fields that the text of `a` shows have the same values in both words. -/
def AgreeOnShown (c : Config) (a : AbstractInstr) (W W' : Word) : Prop :=
  ∀ n ∈ fieldNames a, n ∉ dontCare a → extract (layoutOf c a) n W' = extract (layoutOf c a) n W

/-- Words that are alike once their don't-care fields are cleared agree on the fields shown. -/
theorem agreeOnShown_of_clearDontCare {c : Config} {a : AbstractInstr} {W W' : Word} (hc : c.WellFormed)
    (h : clearDontCare c a W' = clearDontCare c a W) : AgreeOnShown c a W W' := by
  intro n hn hshown
  have hfield := congrArg (extract (layoutOf c a) n) h
  rwa [extract_clearDontCare hc W' hn, extract_clearDontCare hc W hn, if_neg hshown, if_neg hshown] at hfield

/-- A word of `M` decodes like any other with the same shown fields: no other field is looked at. -/
theorem decodeM_of_agreeOnShown {c : Config} {W W' : Word} {a : AbstractInstr} (hc : c.WellFormed)
    (h : decodeM c.m W = .ok a) (hagree : AgreeOnShown c a W W') : decodeM c.m W' = .ok a := by
  obtain ⟨m, f, hclass, rfl⟩ := decodeM_eq_ok h
  have hzero := classifyDecodeM_ok hclass
  have hisa : (readM c.m W m f).isa = .m := by cases f <;> rfl
  have hop : extract c.m.layoutR .opcode W' = extract c.m.layoutR .opcode W := by
    rw [extract_opcode_layoutR hc hisa, extract_opcode_layoutR hc hisa]
    exact hagree .opcode (by cases f <;> simp [readM, fieldNames]) (by cases f <;> simp [readM, dontCare])
  have hfn (h0 : extract c.m.layoutR .opcode W = 0) :
      extract c.m.layoutR .funct W' = extract c.m.layoutR .funct W := by
    obtain rfl | rfl := hzero.mp h0 <;>
      exact hagree .funct (by simp [readM, fieldNames]) (by simp [readM, dontCare])
  have hread : readM c.m W' m f = readM c.m W m f := by
    cases f <;> simp_all [AgreeOnShown, readM, fieldNames, dontCare, layoutOf]
  rw [decodeM_of_classify ((classifyDecodeM_congr hop hfn).trans hclass), hread]

/-- The same for a word of `S`. -/
theorem decodeS_of_agreeOnShown {c : Config} {W W' : Word} {a : AbstractInstr} (h : decodeS c.s W = .ok a)
    (hagree : AgreeOnShown c a W W') : decodeS c.s W' = .ok a := by
  obtain ⟨m, f, hclass, rfl⟩ := decodeS_eq_ok h
  have hop : extract c.s.layoutSW .opcode W' = extract c.s.layoutSW .opcode W := by
    cases f <;> exact hagree .opcode (by simp [readS, fieldNames]) (by simp [readS, dontCare])
  have hmode (htwo : c.s.TwoOperandWord W) :
      extract c.s.layoutSW .mode W' = extract c.s.layoutSW .mode W := by
    obtain ⟨hhalt, hjump⟩ := htwo
    obtain ⟨-, hhalt'⟩ | ⟨-, hjump'⟩ | ⟨-, hf⟩ := classifyDecodeS_ok hclass
    · exact absurd hhalt' hhalt
    · exact absurd hjump' hjump
    · obtain ⟨-, rfl⟩ | ⟨-, rfl⟩ | ⟨-, rfl⟩ := modeFormat_eq_ok hf <;>
        exact hagree .mode (by simp [readS, fieldNames]) (by simp [readS, dontCare])
  have hread : readS c.s W' m f = readS c.s W m f := by
    cases f <;> simp_all [AgreeOnShown, readS, fieldNames, dontCare, layoutOf]
  rw [decodeS_of_classify ((classifyDecodeS_congr hop hmode).trans hclass), hread]

theorem decodeWord_of_agreeOnShown {c : Config} {isa : Isa} {W W' : Word} {a : AbstractInstr} (hc : c.WellFormed)
    (h : decodeWord c isa W = .ok a) (hagree : AgreeOnShown c a W W') : decodeWord c isa W' = .ok a := by
  cases isa with
  | m => exact decodeM_of_agreeOnShown hc h hagree
  | s => exact decodeS_of_agreeOnShown h hagree

/-- Settles O15: an assembled word is the word of an admissible instruction, whose don't-care fields are packed as
0; and the decoder looks at no don't-care field of the format it finds. -/
theorem dontCareFieldsIgnored : Obligations.DontCareFieldsIgnored := by
  unfold Obligations.DontCareFieldsIgnored
  constructor
  · intro c isa text h hc hassemble
    obtain ⟨a, W, hparse, hencode, rfl⟩ := assemble_eq_ok hassemble
    obtain ⟨rfl, hformat, hnamed⟩ := parse_formatMatches hparse
    obtain ⟨n, hadm, hencode'⟩ := exists_admissible_of_encode hc hformat hnamed hencode
    obtain ⟨V, hV, hlt, hdecode⟩ := decodeEncodeAnyConfig c _ hc hadm
    obtain rfl : W = V := Except.ok.inj (hencode'.symm.trans hV)
    rw [withNumeric_isa] at hlt hdecode
    exact ⟨W, withNumeric n a, parseHex_renderHex_of_wellFormed hc hlt, hdecode,
      clearDontCare_of_encode hc hadm hencode'⟩
  · intro c isa W W' a hc hW hW' hdecode hclear
    have hdecode' := decodeWord_of_agreeOnShown hc hdecode (agreeOnShown_of_clearDontCare hc hclear)
    rw [disassemble_renderHex hc hW', disassemble_renderHex hc hW, hdecode', hdecode]

end Sys2Proof.Machine
end

section
/-!
SUPPORT and PROOF for 30_encoding.md: the illegal words (R52, R53) and the sample words of R43 to R47. A word has
no text only where a code cut from it has no entry. Every stage of `disassemble`, over any configuration, says once
when it fails and that it then answers `UnknownEncoding` (`UnknownWhen`); the lists by value are these conditions
for the default tables.
-/

namespace Sys2Proof

/-! ## Failing with `UnknownEncoding` -/

/-- `x` is `UnknownEncoding` when `illegal` holds, and a result otherwise. -/
def UnknownWhen {α : Type} (illegal : Prop) (x : Except ErrorKind α) : Prop :=
  (illegal → x = .error .unknownEncoding) ∧ (¬ illegal → ∃ b, x = .ok b)

namespace UnknownWhen

variable {α β : Type} {P Q : Prop} {x : Except ErrorKind α} {f : α → Except ErrorKind β}

theorem congr (h : UnknownWhen P x) (hiff : P ↔ Q) : UnknownWhen Q x := propext hiff ▸ h

theorem of_ok (b : α) (h : ¬ P) : UnknownWhen P (.ok b) := ⟨fun hP => absurd hP h, fun _ => ⟨b, rfl⟩⟩

/-- A sequence of two steps fails when the first fails or else the second. -/
theorem bind (hx : UnknownWhen P x) (hf : ∀ b, x = .ok b → UnknownWhen Q (f b)) : UnknownWhen (P ∨ Q) (x >>= f) := by
  obtain ⟨hbad, hgood⟩ := hx
  by_cases hP : P
  · have hx := hbad hP
    exact ⟨fun _ => by rw [hx]; rfl, fun h => absurd (.inl hP) h⟩
  · obtain ⟨b, rfl⟩ := hgood hP
    exact (hf b rfl).congr (or_iff_right hP).symm

/-- A second step that never fails changes nothing. -/
theorem map (hx : UnknownWhen P x) (hf : ∀ b, ∃ d, f b = .ok d) : UnknownWhen P (x >>= f) := by
  refine (hx.bind (Q := False) fun b _ => ?_).congr (by simp)
  obtain ⟨d, hd⟩ := hf b
  exact hd ▸ of_ok d not_false

end UnknownWhen

/-! ## When the decoder fails -/

/-- A reverse lookup fails exactly for a value the table does not have (R73 to R75). -/
theorem unknownWhen_reverseLookup (v : Nat) (T : Table) : UnknownWhen (v ∉ T.values) (reverseLookup v T) := by
  refine ⟨reverseLookup_of_not_mem, fun h => ?_⟩
  cases hl : reverseLookup v T with
  | error e => exact absurd (reverseLookup_error hl).2 h
  | ok k => exact ⟨k, rfl⟩

/-- The code that names the mnemonic of a word of `M` has no entry: the function code where the opcode is 0, else
the opcode (R82). -/
def ConfigM.IllegalWord (c : ConfigM) (W : Word) : Prop :=
  if extract c.layoutR .opcode W = 0 then extract c.layoutR .funct W ∉ c.fn.values
  else extract c.layoutR .opcode W ∉ c.opc.values

theorem unknownWhen_decodeM (c : ConfigM) (W : Word) : UnknownWhen (c.IllegalWord W) (decodeM c W) := by
  have hclass : UnknownWhen (c.IllegalWord W) (classifyDecodeM c W) := by
    unfold ConfigM.IllegalWord classifyDecodeM
    split
    case isTrue => exact (unknownWhen_reverseLookup _ _).map fun _ => ⟨_, rfl⟩
    case isFalse =>
      split
      all_goals exact (unknownWhen_reverseLookup _ _).map fun _ => ⟨_, rfl⟩
  refine hclass.map fun ⟨m, f⟩ => ?_
  cases f <;> exact ⟨_, rfl⟩

theorem unknownWhen_modeFormat : ∀ k : Nat, UnknownWhen (3 ≤ k) (modeFormat k)
  | 0 => .of_ok _ (by decide)
  | 1 => .of_ok _ (by decide)
  | 2 => .of_ok _ (by decide)
  | k + 3 => ⟨fun _ => rfl, fun h => absurd (Nat.le_add_left 3 k) h⟩

/-- The opcode of a word of `S` has no entry, or it is that of two operands and the mode has none (R83). -/
def ConfigS.IllegalWord (c : ConfigS) (W : Word) : Prop :=
  extract c.layoutSW .opcode W ∉ c.opc.values ∨ (c.TwoOperandWord W ∧ 3 ≤ extract c.layoutSW .mode W)

theorem unknownWhen_decodeS (c : ConfigS) (W : Word) : UnknownWhen (c.IllegalWord W) (decodeS c W) := by
  have hclass : UnknownWhen (c.IllegalWord W) (classifyDecodeS c W) := by
    refine (unknownWhen_reverseLookup _ _).bind fun m _ => ?_
    split
    case isTrue hhalt => exact .of_ok _ fun ⟨⟨hne, _⟩, _⟩ => hne hhalt
    case isFalse hhalt =>
      split
      case isTrue hjump => exact .of_ok _ fun ⟨⟨_, hne⟩, _⟩ => hne hjump
      case isFalse hjump =>
        have htwo : c.TwoOperandWord W := ⟨hhalt, hjump⟩
        exact ((unknownWhen_modeFormat _).map fun _ => ⟨_, rfl⟩).congr (and_iff_right htwo).symm
  refine hclass.map fun ⟨m, f⟩ => ?_
  cases f <;> exact ⟨_, rfl⟩

end Sys2Proof

namespace Sys2Proof.Machine

/-! ## When a decoded instruction has no text -/

/-- The text of an instruction fails exactly when a register it names has no name (R120, R121). -/
theorem unknownWhen_renderText (c : Config) (a : AbstractInstr) :
    UnknownWhen (¬ RegistersNamed c a) (renderText c a) := by
  have hname := unknownWhen_reverseLookup
  have hfirst {v : Nat} {n : FieldName} {qs : List (Nat × FieldName)} {l : List Nat} :
      (v ∉ l ∨ ¬ ∀ q ∈ qs, q.1 ∈ l) ↔ ¬ ∀ q ∈ (v, n) :: qs, q.1 ∈ l := by
    rw [List.forall_mem_cons, not_and_or]
  have hlast {v : Nat} {n : FieldName} {l : List Nat} : v ∉ l ↔ ¬ ∀ q ∈ [(v, n)], q.1 ∈ l := by
    rw [List.forall_mem_singleton]
  cases a with
  | r3 m rd rs rt =>
    refine ((hname rd _).bind fun _ _ => ((hname rs _).bind fun _ _ => ?_).congr hfirst).congr hfirst
    exact ((hname rt _).map fun _ => ⟨_, rfl⟩).congr hlast
  | rShift m rd rt sh =>
    exact ((hname rd _).bind fun _ _ => ((hname rt _).map fun _ => ⟨_, rfl⟩).congr hlast).congr hfirst
  | iType m rt rs imm =>
    refine ((hname rt _).bind fun _ _ => ((hname rs _).map fun _ => ?_).congr hlast).congr hfirst
    split <;> exact ⟨_, rfl⟩
  | jType | noOperand | singleTarget => exact .of_ok _ (by simp [RegistersNamed, registerOperands])
  | regReg m src dst =>
    exact ((hname src _).bind fun _ _ => ((hname dst _).map fun _ => ⟨_, rfl⟩).congr hlast).congr hfirst
  | immReg m imm dst => exact ((hname dst _).map fun _ => ⟨_, rfl⟩).congr hlast
  | loadStore m base dst =>
    exact ((hname base _).bind fun _ _ => ((hname dst _).map fun _ => ⟨_, rfl⟩).congr hlast).congr hfirst

/-- The registers that a word of `S` names have names: none unless its opcode is that of two operands, and then
those in `dst` and, but for the mode of an immediate, in `operand`. -/
theorem registersNamed_of_decodeS {c : Config} {W : Word} {a : AbstractInstr} (h : decodeS c.s W = .ok a) :
    RegistersNamed c a ↔ (c.s.TwoOperandWord W → extract c.s.layoutSW .dst W ∈ c.s.reg.values ∧
      (extract c.s.layoutSW .mode W ≠ modeImmReg → extract c.s.layoutSW .operand W ∈ c.s.reg.values)) := by
  obtain ⟨m, f, hclass, rfl⟩ := decodeS_eq_ok h
  obtain ⟨rfl, hhalt⟩ | ⟨rfl, hjump⟩ | ⟨htwo, hf⟩ := classifyDecodeS_ok hclass
  · have hone : ¬ c.s.TwoOperandWord W := fun h => h.1 hhalt
    simp [RegistersNamed, readS, registerOperands, hone]
  · have hone : ¬ c.s.TwoOperandWord W := fun h => h.2 hjump
    simp [RegistersNamed, readS, registerOperands, hone]
  · rw [forall_prop_of_true htwo]
    obtain ⟨hmode, rfl⟩ | ⟨hmode, rfl⟩ | ⟨hmode, rfl⟩ := modeFormat_eq_ok hf <;> rw [hmode]
    · simp [RegistersNamed, readS, registerOperands, regTable, AbstractInstr.isa, modeRegReg, modeImmReg, and_comm]
    · simp [RegistersNamed, readS, registerOperands, regTable, AbstractInstr.isa]
    · simp [RegistersNamed, readS, registerOperands, regTable, AbstractInstr.isa, modeLoadStore, modeImmReg, and_comm]

/-! ## Disassembly under the default tables -/

theorem regTableM_values : regTableM.values = List.range 32 := by decide

theorem regTableS_values : regTableS.values = List.range 8 := by decide

/-- Under the default tables a field of five bits is the code of a register of `M` (R14). -/
theorem mem_regTableM_values {v : Nat} (h : v < 2 ^ 5) : v ∈ regTableM.values := by
  rw [regTableM_values]
  exact List.mem_range.mpr h

/-- Under the default tables every register that a word of `M` names has a name. -/
theorem registersNamed_of_decodeM {p : Overflow} {W : Word} {a : AbstractInstr}
    (h : decodeM (configM p) W = .ok a) : RegistersNamed (defaultConfig p) a := by
  obtain ⟨m, f, -, rfl⟩ := decodeM_eq_ok h
  have hR (n : FieldName) (hn : layoutR.width n = 5) : extract layoutR n W ∈ regTableM.values :=
    mem_regTableM_values (hn ▸ extract_lt W n layoutR)
  have hI (n : FieldName) (hn : layoutI.width n = 5) : extract layoutI n W ∈ regTableM.values :=
    mem_regTableM_values (hn ▸ extract_lt W n layoutI)
  cases f with
  | r3 =>
    simp only [RegistersNamed, readM, registerOperands, List.forall_mem_cons]
    exact ⟨hR .rd rfl, hR .rs rfl, hR .rt rfl, by simp⟩
  | rShift =>
    simp only [RegistersNamed, readM, registerOperands, List.forall_mem_cons]
    exact ⟨hR .rd rfl, hR .rt rfl, by simp⟩
  | iType =>
    simp only [RegistersNamed, readM, registerOperands, List.forall_mem_cons]
    exact ⟨hI .rt rfl, hI .rs rfl, by simp⟩
  | jType => simp [RegistersNamed, readM, registerOperands]

/-- When a word of `M` has no text, under the default tables. -/
theorem unknownWhen_textM (p : Overflow) (W : Word) :
    UnknownWhen ((configM p).IllegalWord W) (decodeM (configM p) W >>= renderText (defaultConfig p)) := by
  refine ((unknownWhen_decodeM (configM p) W).bind (Q := False) fun a ha => ?_).congr (by simp)
  exact (unknownWhen_renderText _ a).congr (by simp [registersNamed_of_decodeM ha])

/-- When a word of `S` has no text, over any configuration. -/
theorem unknownWhen_textS (c : Config) (W : Word) :
    UnknownWhen (c.s.IllegalWord W ∨ ¬ (c.s.TwoOperandWord W → extract c.s.layoutSW .dst W ∈ c.s.reg.values ∧
        (extract c.s.layoutSW .mode W ≠ modeImmReg → extract c.s.layoutSW .operand W ∈ c.s.reg.values)))
      (decodeS c.s W >>= renderText c) :=
  (unknownWhen_decodeS c.s W).bind fun a ha =>
    (unknownWhen_renderText c a).congr (not_congr (registersNamed_of_decodeS ha))

/-- What `disassemble` answers for a 32-bit word of the default configuration, by when its text fails. -/
theorem disassemble_of_unknownWhen {p : Overflow} {isa : Isa} {W : Word} {illegal : Prop} [Decidable illegal]
    (hW : W < 2 ^ 32)
    (h : UnknownWhen illegal (decodeWord (defaultConfig p) isa W >>= renderText (defaultConfig p))) :
    if illegal then disassemble (defaultConfig p) isa (renderHex 8 W) = .err .unknownEncoding
    else ∃ out, disassemble (defaultConfig p) isa (renderHex 8 W) = .ok out := by
  have hdis : disassemble (defaultConfig p) isa (renderHex 8 W) =
      responseOf (decodeWord (defaultConfig p) isa W >>= renderText (defaultConfig p)) := by
    cases isa <;> exact disassemble_renderHex (defaultConfig_wellFormed p) hW
  obtain ⟨hbad, hgood⟩ := h
  rw [hdis]
  split
  case isTrue hi => rw [hbad hi, responseOf_error]
  case isFalse hi =>
    obtain ⟨out, hout⟩ := hgood hi
    exact ⟨out, by rw [hout, responseOf_ok]⟩

/-! ## The illegal words by value -/

/-- The opcodes that `OPC_M` does not have (R52). -/
theorem not_mem_opcM_values : ∀ op < 64, (op ∉ opcM.values ↔ op ∈ [0x01, 0x22, 0x26, 0x27, 0x2a] ∨
    (0x04 ≤ op ∧ op ≤ 0x07) ∨ (0x0f ≤ op ∧ op ≤ 0x1f) ∨ 0x2c ≤ op) := by decide

/-- The function codes that `FN_M` does not have (R52). -/
theorem not_mem_fnM_values : ∀ fn < 64, (fn ∉ fnM.values ↔
    fn ∈ [0x01, 0x28, 0x29] ∨ (0x04 ≤ fn ∧ fn ≤ 0x1f) ∨ 0x2c ≤ fn) := by decide

/-- The opcodes that `OPC_S` does not have (R53). -/
theorem not_mem_opcS_values : ∀ op < 16, (op ∉ opcS.values ↔ op ∈ [0, 5, 6, 7] ∨ 9 ≤ op) := by decide

/-- The opcodes of `OPC_S` that take two operands. -/
theorem twoOperand_opcS : ∀ op ∈ opcS.values, (op ≠ haltOpcodeS ∧ op ∉ jumpCodesS ↔ op ∈ [1, 2, 3]) := by decide

theorem slice_lt (W : Word) (hi lo : Nat) : slice W hi lo < 2 ^ (hi + 1 - lo) := Nat.mod_lt _ (Nat.two_pow_pos _)

/-- R52 by value. -/
theorem illegalWord_configM {p : Overflow} {W : Word} : (configM p).IllegalWord W ↔
    slice W 31 26 ∈ [0x01, 0x22, 0x26, 0x27, 0x2a] ∨ (0x04 ≤ slice W 31 26 ∧ slice W 31 26 ≤ 0x07) ∨
      (0x0f ≤ slice W 31 26 ∧ slice W 31 26 ≤ 0x1f) ∨ 0x2c ≤ slice W 31 26 ∨
      slice W 31 26 = 0 ∧ (slice W 5 0 ∈ [0x01, 0x28, 0x29] ∨
        (0x04 ≤ slice W 5 0 ∧ slice W 5 0 ≤ 0x1f) ∨ 0x2c ≤ slice W 5 0) := by
  have hop := not_mem_opcM_values _ (slice_lt W 31 26)
  have hfn := not_mem_fnM_values _ (slice_lt W 5 0)
  rw [← hfn]
  change (if slice W 31 26 = 0 then slice W 5 0 ∉ fnM.values else slice W 31 26 ∉ opcM.values) ↔ _
  by_cases h0 : slice W 31 26 = 0
  · simp [h0]
  · rw [if_neg h0, hop]
    simp [h0]

/-- R53 by value. -/
theorem noText_configS {p : Overflow} {W : Word} :
    ((configS p).IllegalWord W ∨ ¬ ((configS p).TwoOperandWord W → extract layoutSW .dst W ∈ regTableS.values ∧
      (extract layoutSW .mode W ≠ modeImmReg → extract layoutSW .operand W ∈ regTableS.values))) ↔
    slice W 11 8 ∈ [0, 5, 6, 7] ∨ 9 ≤ slice W 11 8 ∨
      slice W 11 8 ∈ [1, 2, 3] ∧ (slice W 17 16 = 3 ∨ 8 ≤ slice W 15 12 ∨
        slice W 17 16 ≠ 1 ∧ 8 ≤ slice W 7 0) := by
  have hop := not_mem_opcS_values _ (slice_lt W 11 8)
  have hmode : slice W 17 16 < 4 := slice_lt W 17 16
  have hthree : 3 ≤ slice W 17 16 ↔ slice W 17 16 = 3 := by omega
  rw [regTableS_values, List.mem_range, List.mem_range]
  change ((slice W 11 8 ∉ opcS.values ∨
    (slice W 11 8 ≠ haltOpcodeS ∧ slice W 11 8 ∉ jumpCodesS) ∧ 3 ≤ slice W 17 16) ∨
    ¬ (slice W 11 8 ≠ haltOpcodeS ∧ slice W 11 8 ∉ jumpCodesS → slice W 15 12 < 8 ∧
      (slice W 17 16 ≠ 1 → slice W 7 0 < 8))) ↔ _
  rw [← or_assoc (b := 9 ≤ _), ← hop, hthree, ← not_lt (b := 8), ← not_lt (b := 8)]
  by_cases hknown : slice W 11 8 ∈ opcS.values
  · rw [twoOperand_opcS _ hknown]
    tauto
  · simp [hknown]

/-! ## The statements -/

/-- Settles O48: a word has no text exactly when one of the codes that the default tables are asked for is not in
them, and the lists are those codes. -/
theorem illegalWords : Obligations.IllegalWords := by
  unfold Obligations.IllegalWords
  constructor
  · intro p W hW
    exact disassemble_of_unknownWhen (isa := .m) hW ((unknownWhen_textM p W).congr illegalWord_configM)
  · intro p W hW
    exact disassemble_of_unknownWhen (isa := .s) hW ((unknownWhen_textS (defaultConfig p) W).congr noText_configS)

/-- Settles O20: the words are written out, so decoding each is an evaluation. -/
theorem sampleWordsDecode : Obligations.SampleWordsDecode := by
  unfold Obligations.SampleWordsDecode
  refine ⟨?add, ?sll, ?addi, ?lw, ?sw, ?j, ?hlt, ?movRR, ?movIR, ?movLS⟩
  case add | sll | addi | lw | sw | j | hlt | movRR | movIR | movLS => rfl

end Sys2Proof.Machine
end

section
/-!
SUPPORT and PROOF for 40_symbol_tables.md: the lookups in the symbol tables (R70 to R76). A scan answers the first
pair with the given key or value; in a table where no other pair has it, the scan in the other direction gives the
pair back.
-/

namespace Sys2Proof

/-! ## The first pair of a table -/

theorem not_mem_keys_iff {k : Text} {T : Table} : k ∉ T.keys ↔ ∀ p ∈ T, p.1 ≠ k := by
  simp only [List.mem_map, not_exists, not_and, ne_eq]

theorem not_mem_values_iff {x : Nat} {T : Table} : x ∉ T.values ↔ ∀ p ∈ T, p.2 ≠ x := by
  simp only [List.mem_map, not_exists, not_and, ne_eq]

/-- The forward scan is the search for a pair by its key. -/
theorem lookup_eq_ok_iff_find? {e : ErrorKind} {k : Text} {v : Nat} {T : Table} :
    lookup e k T = .ok v ↔ T.find? (fun p => decide (p.1 = k)) = some (k, v) := by
  induction T with
  | nil => simp [lookup]
  | cons p T ih =>
    obtain ⟨k', v'⟩ := p
    by_cases hk : k' = k
    · simp [lookup, hk]
    · simp [lookup, hk, ih]

/-- The reverse scan is the search for a pair by its value. -/
theorem reverseLookup_eq_ok_iff_find? {k : Text} {x : Nat} {T : Table} :
    reverseLookup x T = .ok k ↔ T.find? (fun p => decide (p.2 = x)) = some (k, x) := by
  induction T with
  | nil => simp [reverseLookup]
  | cons p T ih =>
    obtain ⟨k', v'⟩ := p
    by_cases hx : v' = x
    · simp [reverseLookup, hx]
    · simp [reverseLookup, hx, ih]

/-- A forward lookup answers the value of the first pair with the key, in any table (R70 to R72). -/
theorem lookup_eq_ok_iff_first {e : ErrorKind} {k : Text} {v : Nat} {T : Table} :
    lookup e k T = .ok v ↔ ∃ pre post, T = pre ++ (k, v) :: post ∧ k ∉ Table.keys pre := by
  rw [lookup_eq_ok_iff_find?, List.find?_eq_some_iff_append]
  simp only [not_mem_keys_iff, decide_true, true_and, Bool.not_eq_true', decide_eq_false_iff_not, ne_eq]

/-- A reverse lookup answers the key of the first pair with the value, in any table (R73 to R75). -/
theorem reverseLookup_eq_ok_iff_first {k : Text} {x : Nat} {T : Table} :
    reverseLookup x T = .ok k ↔ ∃ pre post, T = pre ++ (k, x) :: post ∧ x ∉ Table.values pre := by
  rw [reverseLookup_eq_ok_iff_find?, List.find?_eq_some_iff_append]
  simp only [not_mem_values_iff, decide_true, true_and, Bool.not_eq_true', decide_eq_false_iff_not, ne_eq]

/-! ## Both directions -/

/-- In a table with distinct keys and distinct values the two lookups invert each other on every pair (R76). -/
theorem lookup_and_reverseLookup {e : ErrorKind} {T : Table} (hkeys : T.keys.Nodup) (hvalues : T.values.Nodup)
    (k : Text) (v : Nat) (hm : (k, v) ∈ T) : lookup e k T = .ok v ∧ reverseLookup v T = .ok k :=
  ⟨lookup_of_mem hkeys hm, reverseLookup_of_nodup hvalues hm⟩

/-! ## The statements -/

/-- Settles O31: the three forward lookups are one scan, which differs only in its error. -/
theorem forwardLookups : Obligations.ForwardLookups := by
  unfold Obligations.ForwardLookups
  intro T k
  refine ⟨?opcode, ?function, ?register, ?missing⟩
  case opcode | function | register => exact fun _ => lookup_eq_ok_iff_first
  case missing => exact fun hk => ⟨lookup_of_not_mem hk, lookup_of_not_mem hk, lookup_of_not_mem hk⟩

/-- Settles O32: the three reverse lookups are one scan. -/
theorem reverseLookups : Obligations.ReverseLookups := by
  unfold Obligations.ReverseLookups
  intro T x
  refine ⟨?opcode, ?function, ?register, ?missing⟩
  case opcode | function | register => exact fun _ => reverseLookup_eq_ok_iff_first
  case missing =>
    exact fun hx => ⟨reverseLookup_of_not_mem hx, reverseLookup_of_not_mem hx, reverseLookup_of_not_mem hx⟩

/-- Settles O33: R19 makes every table injective, except that the mnemonics of `M` with a function code share
opcode 0. -/
theorem reverseAfterForward : Obligations.ReverseAfterForward := by
  unfold Obligations.ReverseAfterForward
  rintro c ⟨⟨⟨hopcKeysM, hfnKeysM, hregKeysM⟩, -, hregM, ⟨-, -, hfnM, hopcM, -⟩, -⟩,
    ⟨hopcKeysS, -, hregKeysS, -, -, -, hregS⟩, ⟨hopcS, -⟩, -⟩
  refine ⟨?regM, ?regS, ?fnM, ?opcM, ?opcS⟩
  case regM => exact lookup_and_reverseLookup hregKeysM hregM
  case regS => exact lookup_and_reverseLookup hregKeysS hregS
  case fnM => exact lookup_and_reverseLookup hfnKeysM hfnM
  case opcM => exact fun k v hm h0 => ⟨lookup_of_mem hopcKeysM hm, reverseLookup_of_filter_nodup hopcM h0 hm⟩
  case opcS => exact lookup_and_reverseLookup hopcKeysS hopcS

end Sys2Proof
end

section
/-!
SUPPORT and PROOF for 41_classifier.md: the classifier of either instruction set, on both sides (R80 to R85). The word
a text assembles to decodes to the instruction the text reads as, up to the value stored for a numeric operand, and
either side's classification is that instruction's mnemonic and format. In a well-formed configuration the mnemonic
alone has a class, which fixes its format and its operand count in `M` and selects the shapes it allows in `S`.
-/

namespace Sys2Proof

/-! ## The mnemonic and the format of an instruction -/

/-- What a classifier answers for `a`: its mnemonic and its format (R41). -/
def classification : AbstractInstr → Text × (FormatM ⊕ FormatS)
  | .r3 m .. => (m, .inl .r3)
  | .rShift m .. => (m, .inl .rShift)
  | .iType m .. => (m, .inl .iType)
  | .jType m .. => (m, .inl .jType)
  | .noOperand m => (m, .inr .noOperand)
  | .singleTarget m .. => (m, .inr .singleTarget)
  | .regReg m .. => (m, .inr .regReg)
  | .immReg m .. => (m, .inr .immReg)
  | .loadStore m .. => (m, .inr .loadStore)

@[simp] theorem classification_readM (c : ConfigM) (W : Word) (m : Text) (f : FormatM) :
    classification (readM c W m f) = (m, .inl f) := by
  cases f <;> rfl

@[simp] theorem classification_readS (c : ConfigS) (W : Word) (m : Text) (f : FormatS) :
    classification (readS c W m f) = (m, .inr f) := by
  cases f <;> rfl

/-- A word of `M` that decodes is classified as the instruction it decodes to (R82, R96). -/
theorem classifyDecodeM_of_decodeM {c : ConfigM} {W : Word} {a : AbstractInstr} {m : Text} {f : FormatM}
    (h : decodeM c W = .ok a) (ha : classification a = (m, .inl f)) : classifyDecodeM c W = .ok (m, f) := by
  obtain ⟨m', f', hclass, rfl⟩ := decodeM_eq_ok h
  rw [classification_readM] at ha
  cases ha
  exact hclass

/-- A word of `S` that decodes is classified as the instruction it decodes to (R83, R98). -/
theorem classifyDecodeS_of_decodeS {c : ConfigS} {W : Word} {a : AbstractInstr} {m : Text} {f : FormatS}
    (h : decodeS c W = .ok a) (ha : classification a = (m, .inr f)) : classifyDecodeS c W = .ok (m, f) := by
  obtain ⟨m', f', hclass, rfl⟩ := decodeS_eq_ok h
  rw [classification_readS] at ha
  cases ha
  exact hclass

end Sys2Proof

namespace Sys2Proof.Machine

@[simp] theorem classification_withNumeric (v : Int) (a : AbstractInstr) :
    classification (withNumeric v a) = classification a := by
  cases a <;> rfl

/-! ## The encode side, class by class -/

/-- The only answers of `classify_encode` for a mnemonic of `M` whose format and operand count are known (R80). -/
theorem classifyEncodeM_of_formatM {c : ConfigM} {m : Text} {f : FormatM} {n : Nat} (hf : formatM c m = .ok f)
    (hn : operandCountM c f m = n) (ops : List Text) :
    classifyEncodeM c m ops = if ops.length = n then .ok f else .error .malformedInstruction := by
  subst hn
  simp only [classifyEncodeM, hf, bind, Except.bind]

section ClassesOfM

variable {c : ConfigM} {m : Text} (hc : c.WellFormed) (ops : List Text)

include hc

/-- A mnemonic with a function code that does not shift takes three registers. -/
theorem classifyEncodeM_r3 (hfn : m ∈ c.fn.keys) (hshift : m ∉ c.shiftList) :
    classifyEncodeM c m ops = if ops.length = 3 then .ok .r3 else .error .malformedInstruction := by
  obtain ⟨⟨hkeys, -⟩, -, -, ⟨hzero, -⟩, -⟩ := hc
  exact classifyEncodeM_of_formatM (formatM_r3 hkeys (hzero m hfn) hfn hshift) rfl ops

/-- A shift mnemonic takes two registers and an amount. -/
theorem classifyEncodeM_rShift (hshift : m ∈ c.shiftList) :
    classifyEncodeM c m ops = if ops.length = 3 then .ok .rShift else .error .malformedInstruction := by
  obtain ⟨⟨hkeys, -⟩, -, -, ⟨hzero, -, -, -, hshiftFn, -⟩, -⟩ := hc
  have hfn := hshiftFn m hshift
  exact classifyEncodeM_of_formatM (formatM_rShift hkeys (hzero m hfn) hfn hshift) rfl ops

/-- A jump mnemonic takes its target. -/
theorem classifyEncodeM_jType (hjump : ∃ r ∈ c.opc, r.1 = m ∧ r.2 ∈ c.jumpCodes) :
    classifyEncodeM c m ops = if ops.length = 1 then .ok .jType else .error .malformedInstruction := by
  obtain ⟨⟨hkeys, -⟩, -, -, ⟨-, -, -, -, -, -, hzero⟩, -⟩ := hc
  obtain ⟨⟨m, op⟩, hmem, rfl, hj⟩ := hjump
  exact classifyEncodeM_of_formatM (formatM_jType hkeys hmem (ne_of_mem_of_not_mem hj hzero) hj) rfl ops

/-- A memory mnemonic takes a register and a memory operand. -/
theorem classifyEncodeM_memory (hmemory : m ∈ c.memList) :
    classifyEncodeM c m ops = if ops.length = 2 then .ok .iType else .error .malformedInstruction := by
  obtain ⟨⟨hkeys, -⟩, -, -, ⟨-, -, -, -, -, hmemOpc, -⟩, -⟩ := hc
  obtain ⟨⟨m, op⟩, hmem, rfl, h0, hj⟩ := hmemOpc m hmemory
  exact classifyEncodeM_of_formatM (formatM_iType hkeys hmem h0 hj) (if_pos hmemory) ops

/-- Any other mnemonic with an opcode of its own takes two registers and an immediate. -/
theorem classifyEncodeM_immediate (himm : ∃ r ∈ c.opc, r.1 = m ∧ r.2 ≠ 0 ∧ r.2 ∉ c.jumpCodes)
    (hmemory : m ∉ c.memList) :
    classifyEncodeM c m ops = if ops.length = 3 then .ok .iType else .error .malformedInstruction := by
  obtain ⟨⟨hkeys, -⟩, -⟩ := hc
  obtain ⟨⟨m, op⟩, hmem, rfl, h0, hj⟩ := himm
  exact classifyEncodeM_of_formatM (formatM_iType hkeys hmem h0 hj) (if_neg hmemory) ops

end ClassesOfM

/-- The halt mnemonic of `S` stands alone (R81). -/
theorem classifyEncodeS_halt {c : ConfigS} {m : Text} (h : lookupOpcode c.opc m = .ok c.haltOpcode) :
    classifyEncodeS c m [] = .ok .noOperand := by
  simp only [classifyEncodeS, h, bind, Except.bind, if_true, List.length_nil]

/-- A jump mnemonic of `S` takes one operand of any shape (R81). -/
theorem classifyEncodeS_jump {c : ConfigS} {m : Text} {op : Nat} (h : lookupOpcode c.opc m = .ok op)
    (hhalt : op ≠ c.haltOpcode) (hjump : op ∈ c.jumpCodes) (x : Text) :
    classifyEncodeS c m [x] = .ok .singleTarget := by
  simp only [classifyEncodeS, h, bind, Except.bind, hhalt, hjump, if_true, if_false, List.length_singleton]

/-! ## The classification of a text -/

/-- What a token list of `M` spells has the first token as its mnemonic, and that mnemonic's format. -/
theorem SpellsM.formatM_eq {c : ConfigM} {m : Text} {ops : List Text} {a : AbstractInstr}
    (h : SpellsM c (m :: ops) a) : ∃ f, classification a = (m, .inl f) ∧ formatM c m = .ok f := by
  cases a with
  | r3 | rShift =>
    obtain ⟨hf, x, y, z, htoks, -⟩ := h
    cases htoks
    exact ⟨_, rfl, hf⟩
  | iType =>
    obtain ⟨hf, ⟨-, x, y, z, htoks, -⟩ | ⟨-, x, y, htoks, -⟩⟩ := h <;> cases htoks <;> exact ⟨_, rfl, hf⟩
  | jType =>
    obtain ⟨hf, x, htoks, -⟩ := h
    cases htoks
    exact ⟨_, rfl, hf⟩
  | noOperand | singleTarget | regReg | immReg | loadStore => exact h.elim

/-- What a token list of `S` spells has the first token as its mnemonic, and the format the list is classified as. -/
theorem SpellsS.classifyEncodeS_eq {c : ConfigS} {m : Text} {ops : List Text} {a : AbstractInstr}
    (h : SpellsS c (m :: ops) a) : ∃ f, classification a = (m, .inr f) ∧ classifyEncodeS c m ops = .ok f := by
  cases a with
  | noOperand =>
    obtain ⟨hop, htoks⟩ := h
    cases htoks
    exact ⟨_, rfl, classifyEncodeS_halt hop⟩
  | singleTarget =>
    obtain ⟨⟨op, hop, hhalt, hjump⟩, x, htoks, -⟩ := h
    cases htoks
    exact ⟨_, rfl, classifyEncodeS_jump hop hhalt hjump x⟩
  | regReg | immReg | loadStore =>
    obtain ⟨htwo, x, y, htoks, hx, hy, -⟩ := h
    cases htoks
    exact ⟨_, rfl, by rw [classifyEncodeS_two htwo, hx, hy]; rfl⟩
  | r3 | rShift | iType | jType => exact h.elim

/-- The instruction a text of `M` reads as has the mnemonic and the format the text was classified as (R116). -/
theorem classification_of_parseM {c : ConfigM} {text m : Text} {ops : List Text} {f : FormatM} {a : AbstractInstr}
    (htok : tokenize text = m :: ops) (hclass : classifyEncodeM c m ops = .ok f) (h : parseM c text = .ok a) :
    classification a = (m, .inl f) := by
  obtain ⟨f', ha, hf'⟩ := SpellsM.formatM_eq (htok ▸ parseM_eq_ok.mp h)
  obtain ⟨hf, -⟩ := classifyEncodeM_eq_ok.mp hclass
  obtain rfl : f' = f := Except.ok.inj (hf'.symm.trans hf)
  exact ha

/-- The same for a text of `S` (R117). -/
theorem classification_of_parseS {c : ConfigS} {text m : Text} {ops : List Text} {f : FormatS} {a : AbstractInstr}
    (htok : tokenize text = m :: ops) (hclass : classifyEncodeS c m ops = .ok f) (h : parseS c text = .ok a) :
    classification a = (m, .inr f) := by
  obtain ⟨f', ha, hf'⟩ := SpellsS.classifyEncodeS_eq (htok ▸ parseS_eq_ok.mp h)
  obtain rfl : f' = f := Except.ok.inj (hf'.symm.trans hclass)
  exact ha

/-! ## The word of a text -/

/-- What `assemble` answers spells a word that decodes to the instruction the text reads as, with the value `fit`
stores in place of its numeric operand. -/
theorem exists_decodeWord_of_assemble {c : Config} {isa : Isa} {text h : Text} (hc : c.WellFormed)
    (hassemble : assemble c isa text = .ok h) :
    ∃ a W, ∃ n : Nat, parse c isa text = .ok a ∧ parseHex (c.hexDigits isa) h = .ok W ∧
      decodeWord c isa W = .ok (withNumeric n a) := by
  obtain ⟨a, W, hparse, hencode, rfl⟩ := assemble_eq_ok hassemble
  obtain ⟨rfl, hformat, hnamed⟩ := parse_formatMatches hparse
  obtain ⟨n, hadm, hencode'⟩ := exists_admissible_of_encode hc hformat hnamed hencode
  obtain ⟨V, hV, hlt, hdecode⟩ := decodeEncodeAnyConfig c _ hc hadm
  obtain rfl : W = V := Except.ok.inj (hencode'.symm.trans hV)
  rw [withNumeric_isa] at hlt hdecode
  exact ⟨a, W, n, hparse, parseHex_renderHex_of_wellFormed hc hlt, hdecode⟩

/-- Settles O19: both classifications are the mnemonic and the format of one instruction, which a wrapped numeric
operand does not change. -/
theorem classifiersAreInverse : Obligations.ClassifiersAreInverse := by
  unfold Obligations.ClassifiersAreInverse
  refine ⟨?m, ?s⟩
  case m =>
    intro c text h m ops f hc hassemble htok hclass
    obtain ⟨a, W, n, hparse, hhex, hdecode⟩ := exists_decodeWord_of_assemble hc hassemble
    have ha := classification_of_parseM htok hclass hparse
    exact ⟨W, hhex, classifyDecodeM_of_decodeM hdecode ((classification_withNumeric n a).trans ha)⟩
  case s =>
    intro c text h m ops f hc hassemble htok hclass
    obtain ⟨a, W, n, hparse, hhex, hdecode⟩ := exists_decodeWord_of_assemble hc hassemble
    have ha := classification_of_parseS htok hclass hparse
    exact ⟨W, hhex, classifyDecodeS_of_decodeS hdecode ((classification_withNumeric n a).trans ha)⟩

/-! ## The classes of the default tables -/

/-- The jump mnemonics of the default `M`. -/
abbrev jumpNamesM : List Text := ["j", "jal"].map String.toList

/-- The mnemonics of the default `M` with two registers and an immediate. -/
abbrev immediateNamesM : List Text :=
  ["addi", "addiu", "slti", "sltiu", "andi", "ori", "xori"].map String.toList

theorem jumpNamesM_rows : ∀ m ∈ jumpNamesM, ∃ r ∈ opcM, r.1 = m ∧ r.2 ∈ jumpCodesM := by decide

theorem immediateNamesM_rows : ∀ m ∈ immediateNamesM,
    (∃ r ∈ opcM, r.1 = m ∧ r.2 ≠ 0 ∧ r.2 ∉ jumpCodesM) ∧ m ∉ memListM := by decide

/-- A mnemonic of `OPC_M` that is none of the shift, jump, memory and immediate mnemonics has a function code. -/
theorem mem_fnM_keys : ∀ m ∈ opcM.keys, m ∉ shiftListM → m ∉ jumpNamesM → m ∉ memListM →
    m ∉ immediateNamesM → m ∈ fnM.keys := by decide

/-- The mnemonics of the default `S` that are neither halt nor jump. -/
theorem twoOperandS_configS (p : Overflow) :
    ∀ m ∈ ["MOV", "ADD", "SUB"].map String.toList, TwoOperandS (configS p) m := by
  have hrows : ∀ m ∈ ["MOV", "ADD", "SUB"].map String.toList,
      ∃ r ∈ opcS, r.1 = m ∧ r.2 ≠ haltOpcodeS ∧ r.2 ∉ jumpCodesS := by decide
  obtain ⟨⟨hkeys, -⟩, -⟩ := configS_wellFormed p
  intro m hm
  obtain ⟨⟨m, op⟩, hmem, rfl, hclass⟩ := hrows m hm
  exact ⟨op, lookup_of_mem hkeys hmem, hclass⟩

/-- Settles O34: each mnemonic of `M` is in one of five classes, and each class has one format and one count; those of
`S` are in three. -/
theorem tableTotality : Obligations.TableTotality := by
  unfold Obligations.TableTotality
  refine ⟨?m, ?s⟩
  case m =>
    intro p m ops hm
    have hc := configM_wellFormed p
    have hshiftNames : ["sll", "srl", "sra"].map String.toList = shiftListM := by decide
    have hmemNames : ["lb", "lh", "lw", "lbu", "lhu", "sb", "sh", "sw"].map String.toList = memListM := by decide
    rw [hshiftNames, hmemNames]
    by_cases hshift : m ∈ shiftListM
    · rw [if_pos hshift, classifyEncodeM_rShift hc ops hshift]
    rw [if_neg hshift]
    by_cases hjump : m ∈ jumpNamesM
    · rw [if_pos hjump, classifyEncodeM_jType hc ops (jumpNamesM_rows m hjump)]
    rw [if_neg hjump]
    by_cases hmemory : m ∈ memListM
    · rw [if_pos hmemory, classifyEncodeM_memory hc ops hmemory]
    rw [if_neg hmemory]
    by_cases himm : m ∈ immediateNamesM
    · obtain ⟨hrow, hother⟩ := immediateNamesM_rows m himm
      rw [if_pos himm, classifyEncodeM_immediate hc ops hrow hother]
    rw [if_neg himm, classifyEncodeM_r3 hc ops (mem_fnM_keys m hm hshift hjump hmemory himm) hshift]
  case s =>
    intro p m a b _
    refine ⟨?halt, ?jump, ?two⟩
    case halt =>
      rintro rfl
      exact classifyEncodeS_halt (by decide : lookupOpcode opcS "HLT".toList = .ok haltOpcodeS)
    case jump =>
      rintro rfl
      have hop : lookupOpcode opcS "JMP".toList = .ok 4 := by decide
      exact classifyEncodeS_jump hop (by decide : 4 ≠ haltOpcodeS) (by decide : 4 ∈ jumpCodesS) a
    case two =>
      intro hm hb
      rw [classifyEncodeS_two (twoOperandS_configS p m hm), shape_eq_register.mpr hb]
      refine ⟨fun ha => ?regReg, fun ha => ?immReg, fun ha => ?loadStore⟩
      case regReg => rw [shape_eq_register.mpr ha]; rfl
      case immReg => rw [shape_eq_immediate.mpr ha]; rfl
      case loadStore => rw [shape_eq_indirect.mpr ha]; rfl

end Sys2Proof.Machine
end

section
/-!
SUPPORT and PROOF for 42_field_codec.md: the field codec (R90 to R94). Under a tiling the packed fields lie side by
side, so `pack` is their sum and `extract` takes each back; `fit` keeps a value in range; the digits of a hex string
are the four-bit slices of its word, and a string is read exactly when every character is a digit.
-/

namespace Sys2Proof

open Sys2Proof.Machine

/-! ## Pack and extract (R90, R92) -/

theorem pack_eq_foldr (l : Layout) (v : FieldName → Nat) :
    pack l v = (l.map fun f => v f.name <<< f.offset).foldr (· ||| ·) 0 := by
  induction l with
  | nil => rfl
  | cons f fs ih => rw [pack_cons, ih, List.map_cons, List.foldr_cons]

/-- Under a tiling the OR of the shifted values is their sum. -/
theorem pack_eq_sum {v : FieldName → Nat} {l : Layout} {top : Nat} (ht : l.tiles top = true)
    (hv : ∀ f ∈ l, v f.name < 2 ^ f.width) : pack l v = (l.map fun f => v f.name * 2 ^ f.offset).sum := by
  induction l generalizing top with
  | nil => rfl
  | cons f fs ih =>
    have hvs : ∀ g ∈ fs, v g.name < 2 ^ g.width := fun g hg => hv g (List.mem_cons_of_mem _ hg)
    rw [pack_cons_eq_add ht hvs, ih (tiles_cons ht).2 hvs, List.map_cons, List.sum_cons]

theorem extract_pack_of_mem {v : FieldName → Nat} {l : Layout} {top : Nat} (ht : l.tiles top = true)
    (hd : l.names.Nodup) (hv : ∀ f ∈ l, v f.name < 2 ^ f.width) {f : Field} (hf : f ∈ l) :
    extract l f.name (pack l v) = v f.name :=
  extract_pack' ht hd hv (List.mem_map_of_mem hf)

/-- In a layout with distinct names, changing the value of one field to another that fits keeps all values below
their bounds. -/
theorem lt_width_of_change {v : FieldName → Nat} {l : Layout} (hd : l.names.Nodup)
    (hv : ∀ f ∈ l, v f.name < 2 ^ f.width) {f : Field} (hf : f ∈ l) {x : Nat} (hx : x < 2 ^ f.width) :
    ∀ g ∈ l, (if g.name = f.name then x else v g.name) < 2 ^ g.width := by
  intro g hg
  split
  case isTrue hname => rwa [← width_of_mem hd hg, hname, width_of_mem hd hf]
  case isFalse => exact hv g hg

/-- Settles O21: under a tiling each value lies below the offset of the field before it, so the OR carries nothing
from one field into another. -/
theorem packIsDisjointSum : Obligations.PackIsDisjointSum := by
  unfold Obligations.PackIsDisjointSum
  intro l n v ht hd hv
  refine ⟨pack_eq_foldr l v, pack_eq_sum ht hv, pack_lt ht hv, fun f hf x hx g hg hne => ?_⟩
  rw [extract_pack_of_mem ht hd (lt_width_of_change hd hv hf hx) hg, if_neg hne]

/-- Settles O22: in a layout with distinct names a field is found by its name, and under a tiling the fields
together are all the bits of the word. -/
theorem extractInvertsPack : Obligations.ExtractInvertsPack := by
  unfold Obligations.ExtractInvertsPack
  intro l n ht hd
  refine ⟨fun f hf W => extract_of_mem hd hf, fun v hv f hf => extract_pack_of_mem ht hd hv hf, fun W hW => ?_⟩
  rw [pack_extract_mod ht hd, Nat.mod_eq_of_lt hW]

/-! ## The overflow policy (R91) -/

theorem fit_reject_of_out_of_range {v : Int} {w : Nat} (h : v < 0 ∨ (2 : Int) ^ w ≤ v) :
    fit .reject v w = .error .fieldOverflow := if_pos h

/-- Wrapping changes a value by a multiple of 2 to the width. -/
theorem fit_truncate_congr {v : Int} {w n : Nat} (h : fit .truncate v w = .ok n) : (2 : Int) ^ w ∣ v - n := by
  have hn : (v % 2 ^ w).toNat = n := Except.ok.inj h
  have hpos : (0 : Int) < 2 ^ w := by positivity
  rw [← hn, Int.toNat_of_nonneg (Int.emod_nonneg v hpos.ne')]
  exact Int.dvd_self_sub_emod

/-- Settles O23: `reject` tests the range, `truncate` takes the remainder. -/
theorem fitFollowsPolicy : Obligations.FitFollowsPolicy := by
  unfold Obligations.FitFollowsPolicy
  intro v w
  have htruncate : fit .truncate v w = .ok (v % 2 ^ w).toNat := rfl
  refine ⟨fit_reject_of_out_of_range, fun h0 h1 => ⟨v.toNat, ?_, Int.toNat_of_nonneg h0⟩, ?_⟩
  · exact fit_of_inField (inField_iff.mpr ⟨h0, h1⟩)
  · exact ⟨_, htruncate, fit_lt htruncate, fit_truncate_congr htruncate⟩

/-! ## Hexadecimal digits (R93) -/

/-- `hexDigit` writes the lower-case digit. -/
theorem lowerHex_getElem? : ∀ d < 16, lowerHex[d]? = some (hexDigit d) := by decide

/-- The character of a rendered word at a position: the digit of its four bits, counted from the top. -/
theorem renderHex_getElem? {digits i : Nat} (W : Word) (hi : i < digits) :
    (renderHex digits W)[i]? = some (hexDigit (slice W (4 * digits - 1 - 4 * i) (4 * digits - 4 - 4 * i))) := by
  have hlo : 4 * (digits - 1 - i) = 4 * digits - 4 - 4 * i := by omega
  have hhi : 4 * digits - 4 - 4 * i + 3 = 4 * digits - 1 - 4 * i := by omega
  simp only [renderHex, hexChars, List.getElem?_map, List.getElem?_range hi, Option.map_some, hlo, hhi]

/-- Settles O24: each character is the digit of a four-bit slice, and the digits of a word that fits are read back
as the word. -/
theorem renderHexDigits : Obligations.RenderHexDigits := by
  unfold Obligations.RenderHexDigits
  intro digits W
  refine ⟨hexChars_length digits W, fun i hi => ⟨_, renderHex_getElem? W hi, lowerHex_getElem? _ ?_⟩,
    parseHex_renderHex⟩
  have hwidth : 4 * digits - 1 - 4 * i + 1 - (4 * digits - 4 - 4 * i) = 4 := by omega
  have hlt := slice_lt W (4 * digits - 1 - 4 * i) (4 * digits - 4 - 4 * i)
  rwa [hwidth] at hlt

/-! ## Reading digits (R94) -/

/-- The characters `hexValue?` gives a value are the hex digits of that value, in either case. -/
theorem hexValue_eq_some_iff {ch : Char} {d : Nat} : hexValue? ch = some d ↔ IsHexDigit ch d := by
  constructor
  · intro h
    have hascii : ∀ n < 103, ∀ d ∈ hexValue? (Char.ofNat n),
        lowerHex[d]? = some (Char.ofNat n) ∨ upperHex[d]? = some (Char.ofNat n) := by decide
    have hlt : ch.toNat < 103 := by
      by_contra hge
      simp only [hexValue?] at h
      rw [if_neg (by omega), if_neg (by omega), if_neg (by omega)] at h
      cases h
    have hdigit := hascii ch.toNat hlt d
    rw [Char.ofNat_toNat] at hdigit
    exact hdigit h
  · have hlower : ∀ d < 16, lowerHex[d]?.bind hexValue? = some d := by decide
    have hupper : ∀ d < 16, upperHex[d]?.bind hexValue? = some d := by decide
    rintro (h | h)
    · have hd := hlower d (List.getElem?_eq_some_iff.mp h).1
      rwa [h] at hd
    · have hd := hupper d (List.getElem?_eq_some_iff.mp h).1
      rwa [h] at hd

/-- What `readDigits` answers: the value of the digits, below the value read before them. -/
theorem readDigits_eq_ok_iff {digit? : Char → Option Nat} {digit : Char → Nat → Prop} {base : Nat}
    (hdigit : ∀ ch d, digit? ch = some d ↔ digit ch d) {t : Text} {acc v : Nat} :
    readDigits digit? base acc t = .ok v ↔ ∃ r, Spells digit base t r ∧ v = acc * base ^ t.length + r := by
  induction t generalizing acc with
  | nil => simp [readDigits, Spells, eq_comm]
  | cons ch cs ih =>
    cases hch : digit? ch with
    | none =>
      have hno : ∀ d, ¬ digit ch d := fun d hd => by simp [(hdigit ch d).mpr hd] at hch
      simp [readDigits, Spells, hch, hno]
    | some d =>
      have hd := (hdigit ch d).mp hch
      have huniq : ∀ d', digit ch d' → d' = d := fun d' hd' =>
        Option.some.inj (((hdigit ch d').mpr hd').symm.trans hch)
      have hvalue (r : Nat) : (acc * base + d) * base ^ cs.length + r =
          acc * base ^ (ch :: cs).length + (d * base ^ cs.length + r) := by
        rw [List.length_cons, Nat.pow_succ]; ring
      simp only [readDigits, hch, ih, hvalue]
      constructor
      · rintro ⟨r, hr, rfl⟩
        exact ⟨_, ⟨d, r, hd, hr, rfl⟩, rfl⟩
      · rintro ⟨_, ⟨d', r, hd', hr, rfl⟩, rfl⟩
        exact ⟨r, hr, by rw [huniq d' hd']⟩

/-- `readDigits` fails exactly on a character that is no digit. -/
theorem readDigits_eq_error_iff {digit? : Char → Option Nat} {base acc : Nat} {t : Text} :
    readDigits digit? base acc t = .error .malformedInstruction ↔ ∃ ch ∈ t, digit? ch = none := by
  induction t generalizing acc with
  | nil => simp [readDigits]
  | cons ch cs ih =>
    cases hch : digit? ch with
    | none => simp [readDigits, hch]
    | some d => simp [readDigits, hch, ih]

theorem parseHex_eq_ok_iff {digits : Nat} {h : Text} {W : Word} :
    parseHex digits h = .ok W ↔ h.length = digits ∧ Spells IsHexDigit 16 h W := by
  have hread := readDigits_eq_ok_iff (base := 16) (@hexValue_eq_some_iff) (t := h) (acc := 0) (v := W)
  unfold parseHex
  split
  case isTrue hl => simp [hl, hread]
  case isFalse hl => simp [hl]

theorem hexValue_eq_none_iff {ch : Char} : hexValue? ch = none ↔ ∀ d, ¬ IsHexDigit ch d := by
  simp only [Option.eq_none_iff_forall_ne_some, ne_eq, hexValue_eq_some_iff]

theorem parseHex_eq_error_iff {digits : Nat} {h : Text} : parseHex digits h = .error .malformedInstruction ↔
    h.length ≠ digits ∨ ∃ ch ∈ h, ∀ d, ¬ IsHexDigit ch d := by
  unfold parseHex
  simp only [← hexValue_eq_none_iff]
  split
  case isTrue hl => simp [hl, readDigits_eq_error_iff]
  case isFalse hl => simp [hl]

/-! ## The errors of `disassemble` -/

theorem UnknownWhen.error_eq {α : Type} {P : Prop} {x : Except ErrorKind α} (h : UnknownWhen P x) {e : ErrorKind}
    (he : x = .error e) : e = .unknownEncoding := by
  obtain ⟨hbad, hgood⟩ := h
  by_cases hP : P
  · exact Except.error.inj (he.symm.trans (hbad hP))
  · obtain ⟨b, hb⟩ := hgood hP
    cases he.symm.trans hb

/-- A word that does not decode, or has no text, is `UnknownEncoding`. -/
theorem textOfWord_error {c : Config} {isa : Isa} {W : Word} {e : ErrorKind}
    (h : (decodeWord c isa W >>= renderText c) = .error e) : e = .unknownEncoding := by
  obtain h | ⟨a, -, h⟩ := bind_eq_error.mp h
  · cases isa with
    | m => exact (unknownWhen_decodeM c.m W).error_eq h
    | s => exact (unknownWhen_decodeS c.s W).error_eq h
  · exact (unknownWhen_renderText c a).error_eq h

/-- The response to a request is its input side followed by its output side. -/
theorem respond_eq_bind (c : Config) (r : Request) :
    respond c r = responseOf (parseRequest c r >>= fun a => outputOf c a r) := by
  cases hp : parseRequest c r with
  | error e => exact respond_of_parse_error hp
  | ok a => exact respond_of_parse_ok hp

/-- `disassemble` reads the word, decodes it and writes its text (R118, R119). -/
theorem disassemble_eq (c : Config) (isa : Isa) (h : Text) : disassemble c isa h =
    responseOf (parseHex (c.hexDigits isa) h >>= fun W => decodeWord c isa W >>= renderText c) := by
  rw [← bind_assoc]
  exact respond_eq_bind c (.disassemble isa h)

theorem disassemble_eq_malformed_iff {c : Config} {isa : Isa} {h : Text} :
    disassemble c isa h = .err .malformedInstruction ↔
      parseHex (c.hexDigits isa) h = .error .malformedInstruction := by
  have hresponse {res : Except ErrorKind Text} {e : ErrorKind} : responseOf res = .err e ↔ res = .error e := by
    cases res <;> simp
  rw [disassemble_eq, hresponse, bind_eq_error]
  refine or_iff_left fun ⟨W, _, htext⟩ => ?_
  cases textOfWord_error htext

/-- Settles O25: the digits are read one by one onto the value of those before them, and only reading the hex string
fails with `MalformedInstruction`. -/
theorem hexInputExactLength : Obligations.HexInputExactLength := by
  unfold Obligations.HexInputExactLength
  exact ⟨fun _ _ _ => parseHex_eq_ok_iff, fun _ _ _ => parseHex_error,
    fun _ _ _ => disassemble_eq_malformed_iff.trans parseHex_eq_error_iff⟩

end Sys2Proof
end

section
/-!
SUPPORT and PROOF for 42_field_codec.md: encoding and decoding agree (R95 to R98, and law 3 of R100 for words). A
well-formed instruction of the opcode table is admissible in the default configuration, so it comes back from its
word; and a word that decodes has, in the fields its text shows, the values its instruction is packed from.
-/

namespace Sys2Proof.Machine

/-! ## Well-formed instructions are admissible -/

theorem toInstr_toAbstract (i : Instr) : i.toAbstract.toInstr = some i := by
  cases i <;> rfl

/-- The mnemonics of `R3` have a function code and do not shift. -/
theorem r3Rows_format : ∀ m ∈ r3Rows.map Prod.fst, m ∈ fnM.keys ∧ m ∉ shiftListM := by decide

theorem rShiftRows_format : ∀ m ∈ rShiftRows.map Prod.fst, m ∈ fnM.keys ∧ m ∈ shiftListM := by decide

theorem iTypeRows_format :
    ∀ m ∈ iTypeRows.map Prod.fst, ∃ r ∈ opcM, r.1 = m ∧ r.2 ≠ 0 ∧ r.2 ∉ jumpCodesM := by decide

theorem jTypeRows_format : ∀ m ∈ jTypeRows.map Prod.fst, ∃ r ∈ opcM, r.1 = m ∧ r.2 ∈ jumpCodesM := by decide

theorem noOperandRows_format : ∀ m ∈ noOperandRows.map Prod.fst, (m, haltOpcodeS) ∈ opcS := by decide

theorem singleTargetRows_format :
    ∀ m ∈ singleTargetRows.map Prod.fst, ∃ r ∈ opcS, r.1 = m ∧ r.2 ∈ jumpCodesS := by decide

theorem twoOperandRows_format :
    ∀ m ∈ regRegRows.map Prod.fst, ∃ r ∈ opcS, r.1 = m ∧ r.2 ≠ haltOpcodeS ∧ r.2 ∉ jumpCodesS := by decide

/-- The mnemonic of a row has the row's format under the default tables. -/
theorem formatMatches_of_toInstr {p : Overflow} {a : AbstractInstr} {i : Instr} (h : a.toInstr = some i) :
    FormatMatches (defaultConfig p) a := by
  have hkey {α : Type} {m : Text} {r : α} {rows : List (Text × α)} (hr : findRow m rows = some r) :
      m ∈ rows.map Prod.fst := List.mem_map_of_mem (findRow_mem hr)
  have hopcode {m : Text} {T : Table} {P : Nat → Prop} :
      (∃ r ∈ T, r.1 = m ∧ P r.2) → ∃ op, (m, op) ∈ T ∧ P op := by
    rintro ⟨⟨m, op⟩, hmem, rfl, hop⟩
    exact ⟨op, hmem, hop⟩
  cases a <;> simp only [AbstractInstr.toInstr, Option.map_eq_some_iff] at h
  case noOperand => exact noOperandRows_format _ (hkey h)
  all_goals obtain ⟨r, hr, -⟩ := h
  case r3 => exact r3Rows_format _ (hkey hr)
  case rShift => exact rShiftRows_format _ (hkey hr)
  case iType => exact hopcode (iTypeRows_format _ (hkey hr))
  case jType => exact hopcode (jTypeRows_format _ (hkey hr))
  case singleTarget => exact hopcode (singleTargetRows_format _ (hkey hr))
  case regReg | immReg | loadStore =>
    have hm := hkey hr
    exact hopcode (twoOperandRows_format _ hm)

/-- The operand values of `a` are those that fit the fields of its format in the default configuration:
what `Instr.wellFormed` says of each row, said once for each format. -/
def operandsFit : AbstractInstr → Bool
  | .r3 _ rd rs rt => regM rd && regM rs && regM rt
  | .rShift _ rd rt sh => regM rd && regM rt && inField sh 5
  | .iType _ rt rs imm => regM rt && regM rs && inField imm 16
  | .jType _ tg => inField tg 26
  | .noOperand _ => true
  | .singleTarget _ tg => inField tg 8
  | .regReg _ src dst => regS src && regS dst
  | .immReg _ imm dst => inField imm 8 && regS dst
  | .loadStore _ base dst => regS base && regS dst

theorem wellFormed_eq_operandsFit (i : Instr) : i.wellFormed = operandsFit i.toAbstract := by
  cases i <;> rfl

/-- A register code of `M` fits the five bits of every register field (R14, R43, R44). -/
theorem regM_iff {v : Nat} : regM v = true ↔ v < 2 ^ 5 := decide_eq_true_iff

/-- A register code of `S` fits both register fields of `SW` (R17, R47). -/
theorem lt_of_regS {v : Nat} (h : regS v = true) : v < 2 ^ 4 ∧ v < 2 ^ 8 := by
  have hv : v < 8 := of_decide_eq_true h
  omega

theorem admissible_of_operandsFit {p : Overflow} {a : AbstractInstr} (hf : FormatMatches (defaultConfig p) a)
    (h : operandsFit a = true) : Admissible (defaultConfig p) a := by
  have hnone {P : Int × FieldName → Prop} : ∀ q ∈ (none : Option (Int × FieldName)), P q := fun _ hq => nomatch hq
  have hsome {x : Int × FieldName} {P : Int × FieldName → Prop} (hx : P x) : ∀ q ∈ some x, P q :=
    fun _ hq => Option.some.inj hq ▸ hx
  cases a <;> simp only [operandsFit, Bool.and_eq_true, regM_iff, inField_iff] at h
  case r3 =>
    obtain ⟨⟨hrd, hrs⟩, hrt⟩ := h
    refine ⟨hf, ?_, hnone⟩
    simp only [registerOperands, List.forall_mem_cons]
    exact ⟨hrd, hrs, hrt, List.forall_mem_nil _⟩
  case rShift | iType =>
    obtain ⟨⟨hfirst, hsecond⟩, hnum⟩ := h
    refine ⟨hf, ?_, hsome hnum⟩
    simp only [registerOperands, List.forall_mem_cons]
    exact ⟨hfirst, hsecond, List.forall_mem_nil _⟩
  case jType | singleTarget => exact ⟨hf, List.forall_mem_nil _, hsome h⟩
  case noOperand => exact ⟨hf, List.forall_mem_nil _, hnone⟩
  case regReg | loadStore =>
    obtain ⟨hsrc, hdst⟩ := h
    refine ⟨hf, ?_, hnone⟩
    simp only [registerOperands, List.forall_mem_cons]
    exact ⟨(lt_of_regS hsrc).2, (lt_of_regS hdst).1, List.forall_mem_nil _⟩
  case immReg =>
    obtain ⟨himm, hdst⟩ := h
    refine ⟨hf, ?_, hsome himm⟩
    simp only [registerOperands, List.forall_mem_cons]
    exact ⟨(lt_of_regS hdst).1, List.forall_mem_nil _⟩

/-- A well-formed row is an admissible instruction of the default configuration. -/
theorem admissible_of_wellFormed (p : Overflow) {i : Instr} (h : i.wellFormed = true) :
    Admissible (defaultConfig p) i.toAbstract :=
  admissible_of_operandsFit (formatMatches_of_toInstr (toInstr_toAbstract i)) (wellFormed_eq_operandsFit i ▸ h)

/-- Decoding the hex string of a word is decoding the word (R31, R32). -/
theorem decode_renderHex {c : Config} {isa : Isa} {W : Word} (hc : c.WellFormed) (hW : W < 2 ^ c.wordBits isa) :
    decode c isa (renderHex (c.hexDigits isa) W) = decodeWord c isa W :=
  (congrArg (· >>= decodeWord c isa) (parseHex_renderHex_of_wellFormed hc hW)).trans rfl

@[simp] theorem defaultConfig_hexDigits (p : Overflow) (isa : Isa) : (defaultConfig p).hexDigits isa = 8 := by
  cases isa <;> rfl

@[simp] theorem defaultConfig_wordBits (p : Overflow) (isa : Isa) : (defaultConfig p).wordBits isa = 32 := by
  cases isa <;> rfl

/-- Settles O12: a well-formed row is admissible in the default configuration, where every admissible instruction
comes back from its word, and the word from its hex string. -/
theorem decodeEncodeEveryInstr : Obligations.DecodeEncodeEveryInstr := by
  unfold Obligations.DecodeEncodeEveryInstr
  intro p i hi
  have hc := defaultConfig_wellFormed p
  obtain ⟨W, hencode, hlt, hdecode⟩ := decodeEncodeAnyConfig _ _ hc (admissible_of_wellFormed p hi)
  have hhex := decode_renderHex hc hlt
  rw [defaultConfig_hexDigits] at hhex
  rw [defaultConfig_wordBits] at hlt
  exact ⟨W, hencode, hlt, hhex.trans hdecode, toInstr_toAbstract i⟩

/-! ## What a decoded word encodes to -/

/-- What the classifier of `M` answers for a word: the mnemonic is that of the function code where the format has
one, else that of the opcode, and its list or class gives the format (R82). -/
theorem classifyDecodeM_codes {c : ConfigM} {W : Word} {m : Text} {f : FormatM}
    (h : classifyDecodeM c W = .ok (m, f)) :
    match f with
    | .r3 => (m, extract c.layoutR .funct W) ∈ c.fn ∧ m ∉ c.shiftList
    | .rShift => (m, extract c.layoutR .funct W) ∈ c.fn ∧ m ∈ c.shiftList
    | .iType => (m, extract c.layoutR .opcode W) ∈ c.opc ∧ extract c.layoutR .opcode W ≠ 0 ∧
        extract c.layoutR .opcode W ∉ c.jumpCodes
    | .jType => (m, extract c.layoutR .opcode W) ∈ c.opc ∧ extract c.layoutR .opcode W ∈ c.jumpCodes := by
  unfold classifyDecodeM at h
  split at h
  case isTrue =>
    obtain ⟨k, hk, h⟩ := bind_eq_ok.mp h
    by_cases hshift : k ∈ c.shiftList
    · rw [if_pos hshift] at h; cases h; exact ⟨reverseLookup_mem hk, hshift⟩
    · rw [if_neg hshift] at h; cases h; exact ⟨reverseLookup_mem hk, hshift⟩
  case isFalse h0 =>
    split at h
    case isTrue hjump =>
      obtain ⟨k, hk, h⟩ := bind_eq_ok.mp h
      cases h
      exact ⟨reverseLookup_mem hk, hjump⟩
    case isFalse hjump =>
      obtain ⟨k, hk, h⟩ := bind_eq_ok.mp h
      cases h
      exact ⟨reverseLookup_mem hk, h0, hjump⟩

theorem classifyDecodeS_mnemonic {c : ConfigS} {W : Word} {m : Text} {f : FormatS}
    (h : classifyDecodeS c W = .ok (m, f)) : (m, extract c.layoutSW .opcode W) ∈ c.opc := by
  unfold classifyDecodeS at h
  obtain ⟨k, hk, h⟩ := bind_eq_ok.mp h
  obtain rfl : k = m := by
    split at h
    · cases h; rfl
    · split at h
      · cases h; rfl
      · obtain ⟨g, -, h⟩ := bind_eq_ok.mp h
        cases h; rfl
  exact reverseLookup_mem hk

/-- `a` is what the word `W` is read as: its mnemonic has its format, with the code that `W` has in the code field;
its operands are what `W` has in their fields; and it gives every field of its layout the value `W` has there, but 0
to the don't-care fields. -/
structure ReadFrom (c : Config) (W : Word) (a : AbstractInstr) : Prop where
  hasCode : HasCode c (extract (layoutOf c a) (codeField a) W) a
  register_eq : ∀ q ∈ registerOperands a, q.1 = extract (layoutOf c a) q.2 W
  numeric_eq : ∀ q ∈ numericOperand a, q.1 = (extract (layoutOf c a) q.2 W : Int)
  fieldValues_eq : ∀ n ∈ fieldNames a, fieldValues (extract (layoutOf c a) (codeField a) W) a n =
    if n ∈ dontCare a then 0 else extract (layoutOf c a) n W

theorem readFrom_of_decodeM {c : Config} {W : Word} {a : AbstractInstr} (hc : c.WellFormed)
    (h : decodeM c.m W = .ok a) : a.isa = .m ∧ ReadFrom c W a := by
  obtain ⟨m, f, hclass, rfl⟩ := decodeM_eq_ok h
  have hzero := classifyDecodeM_ok hclass
  have hcodes := classifyDecodeM_codes hclass
  have hopcode (f : FormatM) := extract_opcode_layoutR hc (a := readM c.m W m f) (by cases f <;> rfl) W
  cases f with
  | r3 | rShift =>
    have h0 : extract c.m.layoutR .opcode W = 0 := hzero.mpr (by simp)
    refine ⟨rfl, hcodes, ?_, ?_, ?_⟩
    · simp [readM, registerOperands, layoutOf]
    · simp [readM, numericOperand, layoutOf]
    · simp [readM, fieldNames, fieldValues, dontCare, codeField, layoutOf, h0]
  | iType | jType =>
    rw [hopcode] at hcodes
    refine ⟨rfl, hcodes, ?_, ?_, ?_⟩
    · simp [readM, registerOperands, layoutOf]
    · simp [readM, numericOperand, layoutOf]
    · simp [readM, fieldNames, fieldValues, dontCare, codeField, layoutOf]

theorem readFrom_of_decodeS {c : Config} {W : Word} {a : AbstractInstr} (h : decodeS c.s W = .ok a) :
    a.isa = .s ∧ ReadFrom c W a := by
  obtain ⟨m, f, hclass, rfl⟩ := decodeS_eq_ok h
  have hmem := classifyDecodeS_mnemonic hclass
  have hregister : ∀ q ∈ registerOperands (readS c.s W m f), q.1 = extract c.s.layoutSW q.2 W := by
    cases f <;> simp [readS, registerOperands]
  have hnumeric : ∀ q ∈ numericOperand (readS c.s W m f), q.1 = (extract c.s.layoutSW q.2 W : Int) := by
    cases f <;> simp [readS, numericOperand]
  obtain ⟨rfl, hhalt⟩ | ⟨rfl, hjump⟩ | ⟨htwo, hf⟩ := classifyDecodeS_ok hclass
  · exact ⟨rfl, ⟨hmem, hhalt⟩, hregister, hnumeric,
      by simp [readS, fieldNames, fieldValues, dontCare, codeField, layoutOf]⟩
  · exact ⟨rfl, ⟨hmem, hjump⟩, hregister, hnumeric,
      by simp [readS, fieldNames, fieldValues, dontCare, codeField, layoutOf]⟩
  · obtain ⟨hmode, rfl⟩ | ⟨hmode, rfl⟩ | ⟨hmode, rfl⟩ := modeFormat_eq_ok hf <;>
      exact ⟨rfl, ⟨hmem, htwo⟩, hregister, hnumeric,
        by simp [readS, fieldNames, fieldValues, dontCare, codeField, layoutOf, hmode]⟩

/-- Everything the decoder can answer. -/
theorem readFrom_of_decodeWord {c : Config} {isa : Isa} {W : Word} {a : AbstractInstr} (hc : c.WellFormed)
    (h : decodeWord c isa W = .ok a) : a.isa = isa ∧ ReadFrom c W a := by
  cases isa with
  | m => exact readFrom_of_decodeM hc h
  | s => exact readFrom_of_decodeS h

/-- A decoded instruction is admissible: its operands were cut from their fields. -/
theorem admissible_of_decodeWord {c : Config} {isa : Isa} {W : Word} {a : AbstractInstr} (hc : c.WellFormed)
    (h : decodeWord c isa W = .ok a) : Admissible c a := by
  obtain ⟨-, hread⟩ := readFrom_of_decodeWord hc h
  refine ⟨formatMatches_iff_hasCode.mpr ⟨_, hread.hasCode⟩, fun q hq => ?_, fun q hq => ?_⟩
  · rw [hread.register_eq q hq]
    exact extract_lt W q.2 _
  · rw [hread.numeric_eq q hq]
    exact ⟨Int.natCast_nonneg _, by exact_mod_cast extract_lt W q.2 _⟩

/-- Settles O14: a decoded instruction is packed from the fields that its word shows, and from 0 for the others. -/
theorem encodeDecodeClearsDontCare : Obligations.EncodeDecodeClearsDontCare := by
  unfold Obligations.EncodeDecodeClearsDontCare
  intro c isa W a hc hdecode
  obtain ⟨hisa, hread⟩ := readFrom_of_decodeWord hc hdecode
  refine ⟨hisa, ?_⟩
  rw [encode_of_admissible hc hread.hasCode (admissible_of_decodeWord hc hdecode), clearDontCare]
  obtain ⟨hnames, -⟩ := layoutOf_wellFormed hc a
  exact congrArg _ (pack_congr fun f hf => hread.fieldValues_eq _ (hnames ▸ List.mem_map_of_mem hf))

end Sys2Proof.Machine
end

section
/-!
SUPPORT and PROOF for 42_field_codec.md: the round trips of texts (R100). An instruction is legible when its mnemonic
is a token and its registers have names that a text can hold: an instruction read from a text is, and so is every
instruction of the default tables. The canonical text of a legible instruction reads back as it (`exists_canonical`),
and the word of an admissible one decodes to it, so the text and the word of an instruction that is both translate
into each other (`roundTrip`). Laws 1 to 4 are this one fact about three instructions.
-/

namespace Sys2Proof.Machine

/-! ## Legible instructions -/

/-- The character a register name begins with (R109, R112). -/
def regMark : Isa → Char
  | .m => '$'
  | .s => 'R'

/-- The register code `v` has a name that a text can hold: it begins as a register operand does, and holds no
whitespace and no comma. -/
def LegibleRegister (c : Config) (isa : Isa) (v : Nat) : Prop :=
  ∃ t, (t, v) ∈ regTable c isa ∧ t.head? = some (regMark isa) ∧ Solid t

/-- The mnemonic of `a` is a token and its registers have names that a text can hold. -/
structure Legible (c : Config) (a : AbstractInstr) : Prop where
  mnemonic : IsToken (classification a).1
  registers : ∀ q ∈ registerOperands a, LegibleRegister c a.isa q.1

theorem Legible.registersNamed {c : Config} {a : AbstractInstr} (h : Legible c a) : RegistersNamed c a := by
  intro q hq
  obtain ⟨t, hmem, -⟩ := h.registers q hq
  exact mem_values hmem

/-- The value of the numeric operand plays no part. -/
theorem Legible.withNumeric {c : Config} {a : AbstractInstr} (h : Legible c a) (v : Int) :
    Legible c (withNumeric v a) := by
  cases a <;> exact ⟨h.mnemonic, h.registers⟩

/-! ## A text reads as a legible instruction -/

theorem legibleRegister_of_parseRegM {c : Config} {t : Text} {v : Nat} (ht : Solid t)
    (h : parseRegM c.m t = .ok v) : LegibleRegister c .m v := by
  obtain ⟨hhead, hmem⟩ := parseRegM_ok h
  exact ⟨t, hmem, hhead, ht⟩

theorem legibleRegister_of_parseRegS {c : Config} {t : Text} {v : Nat} (ht : Solid t)
    (h : parseRegS c.s t = .ok v) : LegibleRegister c .s v := by
  obtain ⟨hhead, hmem⟩ := parseRegS_ok h
  exact ⟨t, hmem, hhead, ht⟩

/-- What stands between brackets is as solid as the whole. -/
theorem Solid.inner {pre t post : Text} (h : Solid (pre ++ t ++ post)) : Solid t := fun ch hch =>
  h ch (List.mem_append_left _ (List.mem_append_right _ hch))

theorem legible_of_parseM {c : Config} {text : Text} {a : AbstractInstr} (h : parseM c.m text = .ok a) :
    Legible c a := by
  have htoken : ∀ t ∈ tokenize text, IsToken t := fun _ => isToken_of_mem_tokenize
  have hspell := parseM_eq_ok.mp h
  cases a with
  | r3 =>
    obtain ⟨-, x, y, z, htoks, hx, hy, hz⟩ := hspell
    simp only [htoks, List.forall_mem_cons] at htoken
    obtain ⟨hm, htx, hty, htz, -⟩ := htoken
    refine ⟨hm, ?_⟩
    simp only [registerOperands, List.forall_mem_cons]
    exact ⟨legibleRegister_of_parseRegM htx.2 hx, legibleRegister_of_parseRegM hty.2 hy,
      legibleRegister_of_parseRegM htz.2 hz, List.forall_mem_nil _⟩
  | rShift =>
    obtain ⟨-, x, y, z, htoks, hx, hy, -⟩ := hspell
    simp only [htoks, List.forall_mem_cons] at htoken
    obtain ⟨hm, htx, hty, -⟩ := htoken
    refine ⟨hm, ?_⟩
    simp only [registerOperands, List.forall_mem_cons]
    exact ⟨legibleRegister_of_parseRegM htx.2 hx, legibleRegister_of_parseRegM hty.2 hy, List.forall_mem_nil _⟩
  | iType =>
    obtain ⟨-, ⟨-, x, y, z, htoks, hx, hy, -⟩ | ⟨-, x, y, htoks, hx, hy⟩⟩ := hspell
    · simp only [htoks, List.forall_mem_cons] at htoken
      obtain ⟨hm, htx, hty, -⟩ := htoken
      refine ⟨hm, ?_⟩
      simp only [registerOperands, List.forall_mem_cons]
      exact ⟨legibleRegister_of_parseRegM htx.2 hx, legibleRegister_of_parseRegM hty.2 hy, List.forall_mem_nil _⟩
    · obtain ⟨num, reg, rfl, -, -, hreg⟩ := parseMemM_ok hy
      simp only [htoks, List.forall_mem_cons] at htoken
      obtain ⟨hm, htx, hty, -⟩ := htoken
      refine ⟨hm, ?_⟩
      simp only [registerOperands, List.forall_mem_cons]
      exact ⟨legibleRegister_of_parseRegM htx.2 hx, legibleRegister_of_parseRegM hty.2.inner hreg,
        List.forall_mem_nil _⟩
  | jType =>
    obtain ⟨-, x, htoks, -⟩ := hspell
    simp only [htoks, List.forall_mem_cons] at htoken
    exact ⟨htoken.1, List.forall_mem_nil _⟩
  | noOperand | singleTarget | regReg | immReg | loadStore => exact hspell.elim

theorem legible_of_parseS {c : Config} {text : Text} {a : AbstractInstr} (h : parseS c.s text = .ok a) :
    Legible c a := by
  have htoken : ∀ t ∈ tokenize text, IsToken t := fun _ => isToken_of_mem_tokenize
  have hspell := parseS_eq_ok.mp h
  cases a with
  | noOperand =>
    obtain ⟨-, htoks⟩ := hspell
    simp only [htoks, List.forall_mem_cons] at htoken
    exact ⟨htoken.1, List.forall_mem_nil _⟩
  | singleTarget =>
    obtain ⟨-, x, htoks, -⟩ := hspell
    simp only [htoks, List.forall_mem_cons] at htoken
    exact ⟨htoken.1, List.forall_mem_nil _⟩
  | regReg =>
    obtain ⟨-, x, y, htoks, -, -, hx, hy⟩ := hspell
    simp only [htoks, List.forall_mem_cons] at htoken
    obtain ⟨hm, htx, hty, -⟩ := htoken
    refine ⟨hm, ?_⟩
    simp only [registerOperands, List.forall_mem_cons]
    exact ⟨legibleRegister_of_parseRegS htx.2 hx, legibleRegister_of_parseRegS hty.2 hy, List.forall_mem_nil _⟩
  | immReg =>
    obtain ⟨-, x, y, htoks, -, -, -, hy⟩ := hspell
    simp only [htoks, List.forall_mem_cons] at htoken
    obtain ⟨hm, -, hty, -⟩ := htoken
    refine ⟨hm, ?_⟩
    simp only [registerOperands, List.forall_mem_cons]
    exact ⟨legibleRegister_of_parseRegS hty.2 hy, List.forall_mem_nil _⟩
  | loadStore =>
    obtain ⟨-, x, y, htoks, hshape, -, hx, hy⟩ := hspell
    obtain ⟨reg, rfl, hreg⟩ := parseIndS_ok (shape_eq_indirect.mp hshape) hx
    simp only [htoks, List.forall_mem_cons] at htoken
    obtain ⟨hm, htx, hty, -⟩ := htoken
    refine ⟨hm, ?_⟩
    simp only [registerOperands, List.forall_mem_cons]
    exact ⟨legibleRegister_of_parseRegS htx.2.inner hreg, legibleRegister_of_parseRegS hty.2 hy,
      List.forall_mem_nil _⟩
  | r3 | rShift | iType | jType => exact hspell.elim

theorem legible_of_parse {c : Config} {isa : Isa} {text : Text} {a : AbstractInstr}
    (h : parse c isa text = .ok a) : Legible c a := by
  cases isa with
  | m => exact legible_of_parseM h
  | s => exact legible_of_parseS h

/-! ## The tokens of a canonical text -/

theorem isToken_of_head? {t : Text} {ch : Char} (hhead : t.head? = some ch) (h : Solid t) : IsToken t := by
  refine ⟨fun hnil => ?_, h⟩
  rw [hnil] at hhead
  cases hhead

section Tokens

variable {m x y z : Text} (hm : IsToken m) (hx : IsToken x)

include hm hx

/-- A mnemonic and one operand, as R120 and R121 write them. -/
theorem tokenize_one : tokenize (m ++ [' '] ++ x) = [m, x] := by
  rw [tokenize_cons hm, tokenize_word hx]

theorem tokenize_two (hy : IsToken y) : tokenize (m ++ [' '] ++ x ++ sep ++ y) = [m, x, y] := by
  have hassoc : m ++ [' '] ++ x ++ sep ++ y = m ++ [' '] ++ (x ++ sep ++ y) := by simp only [List.append_assoc]
  rw [hassoc, tokenize_cons hm, tokenize_sep hx, tokenize_word hy]

theorem tokenize_three (hy : IsToken y) (hz : IsToken z) :
    tokenize (m ++ [' '] ++ x ++ sep ++ y ++ sep ++ z) = [m, x, y, z] := by
  have hassoc : m ++ [' '] ++ x ++ sep ++ y ++ sep ++ z = m ++ [' '] ++ (x ++ sep ++ (y ++ sep ++ z)) := by
    simp only [List.append_assoc]
  rw [hassoc, tokenize_cons hm, tokenize_sep hx, tokenize_sep hy, tokenize_word hz]

end Tokens

/-- Every numeral that is written reads back (R107, R108). -/
theorem parseNumeral_renderNumeral (v : Int) : parseNumeral (renderNumeral v) = .ok v := by
  unfold renderNumeral
  split
  case isTrue hneg =>
    have hminus (u : Text) : parseNumeral ('-' :: u) = parseMagnitude u >>= fun n => .ok (-(n : Int)) := rfl
    have hv : -(v.natAbs : Int) = v := by omega
    rw [hminus, parseMagnitude_renderUnsigned]
    exact congrArg Except.ok hv
  case isFalse hnonneg =>
    have hv : (v.natAbs : Int) = v := by omega
    rw [parseNumeral_renderUnsigned, hv]

/-- In a table with distinct values, the name that the reverse lookup finds for a legible register is legible. -/
theorem codeToRegisterName_legible {c : Config} {isa : Isa} {v : Nat} {k : Text}
    (hd : (regTable c isa).values.Nodup) (hl : LegibleRegister c isa v)
    (h : codeToRegisterName (regTable c isa) v = .ok k) :
    (k, v) ∈ regTable c isa ∧ k.head? = some (regMark isa) ∧ IsToken k := by
  obtain ⟨t, hmem, hhead, hsolid⟩ := hl
  obtain rfl : t = k := Except.ok.inj ((reverseLookup_of_nodup hd hmem).symm.trans h)
  exact ⟨hmem, hhead, isToken_of_head? hhead hsolid⟩

/-- The name written for a legible register of `M` is a token that reads as the register. -/
theorem parseRegM_codeToRegisterName {c : Config} {v : Nat} {k : Text} (hc : c.WellFormed)
    (hl : LegibleRegister c .m v) (h : codeToRegisterName c.m.reg v = .ok k) :
    IsToken k ∧ parseRegM c.m k = .ok v := by
  obtain ⟨⟨⟨-, -, hkeys⟩, -, hvalues, -⟩, -⟩ := hc
  obtain ⟨hmem, hhead, htoken⟩ := codeToRegisterName_legible (isa := .m) hvalues hl h
  exact ⟨htoken, parseRegM_of_mem hkeys hhead hmem⟩

/-- The same for `S`, where the name also has the shape of a register. -/
theorem parseRegS_codeToRegisterName {c : Config} {v : Nat} {k : Text} (hc : c.WellFormed)
    (hl : LegibleRegister c .s v) (h : codeToRegisterName c.s.reg v = .ok k) :
    IsToken k ∧ shape k = .register ∧ parseRegS c.s k = .ok v := by
  obtain ⟨-, ⟨-, -, hkeys, -, -, -, hvalues⟩, -⟩ := hc
  obtain ⟨hmem, hhead, htoken⟩ := codeToRegisterName_legible (isa := .s) hvalues hl h
  exact ⟨htoken, shape_eq_register.mpr hhead, parseRegS_of_mem hkeys hhead hmem⟩

/-! ## The operand forms as they are written -/

theorem isToken_immediate (v : Int) : IsToken ('#' :: renderNumeral v) :=
  ⟨List.cons_ne_nil _ _, (renderNumeral_solid v).cons (by decide)⟩

theorem isToken_indirect {x : Text} (hx : IsToken x) : IsToken (['['] ++ x ++ [']']) :=
  ⟨by simp, (hx.2.cons (by decide)).append (Solid.nil.cons (by decide))⟩

theorem isToken_memoryOperand (v : Int) {x : Text} (hx : IsToken x) :
    IsToken (renderNumeral v ++ ['('] ++ x ++ [')']) := by
  have hopen : Solid ['('] := Solid.nil.cons (by decide)
  have hclose : Solid [')'] := Solid.nil.cons (by decide)
  exact ⟨by simp, (((renderNumeral_solid v).append hopen).append hx.2).append hclose⟩

/-- A memory operand reads back: the numeral that is written holds no parenthesis (R110). -/
theorem parseMemM_memoryOperand {c : ConfigM} (v : Int) {x : Text} {r : Nat} (hx : parseRegM c x = .ok r) :
    parseMemM c (renderNumeral v ++ ['('] ++ x ++ [')']) = .ok (v, r) := by
  rw [parseMemM_form fun ch hch => (renderNumeral_chars hch).2.2, parseNumeral_renderNumeral, hx]
  rfl

/-! ## The canonical text reads back -/

/-- The format of the mnemonic is that of the instruction (R80). -/
theorem formatM_of_formatMatches {c : Config} {a : AbstractInstr} {m : Text} {f : FormatM} (hc : c.WellFormed)
    (hf : FormatMatches c a) (ha : classification a = (m, .inl f)) : formatM c.m m = .ok f := by
  obtain ⟨⟨⟨hkeys, -⟩, -, -, ⟨hzero, -, -, -, -, -, hjump0⟩, -⟩, -⟩ := hc
  cases a <;> cases ha
  case r3 => exact formatM_r3 hkeys (hzero _ hf.1) hf.1 hf.2
  case rShift => exact formatM_rShift hkeys (hzero _ hf.1) hf.1 hf.2
  case iType =>
    obtain ⟨op, hmem, h0, hj⟩ := hf
    exact formatM_iType hkeys hmem h0 hj
  case jType =>
    obtain ⟨op, hmem, hj⟩ := hf
    exact formatM_jType hkeys hmem (ne_of_mem_of_not_mem hj hjump0) hj

/-- The canonical text of a legible instruction of `M` is a spelling of it. -/
theorem spellsM_renderText {c : Config} {a : AbstractInstr} {out : Text} (hc : c.WellFormed) (hisa : a.isa = .m)
    (hf : FormatMatches c a) (hl : Legible c a) (h : renderText c a = .ok out) : SpellsM c.m (tokenize out) a := by
  obtain ⟨hm, hregs⟩ := hl
  have hformat {m : Text} {f : FormatM} := formatM_of_formatMatches (m := m) (f := f) hc hf
  cases a <;> simp only [registerOperands, List.forall_mem_cons, classification] at hregs hm
  case r3 m rd rs rt =>
    obtain ⟨hrd, hrs, hrt, -⟩ := hregs
    obtain ⟨x, hx, h⟩ := bind_eq_ok.mp h
    obtain ⟨y, hy, h⟩ := bind_eq_ok.mp h
    obtain ⟨z, hz, h⟩ := bind_eq_ok.mp h
    cases h
    obtain ⟨htx, hpx⟩ := parseRegM_codeToRegisterName hc hrd hx
    obtain ⟨hty, hpy⟩ := parseRegM_codeToRegisterName hc hrs hy
    obtain ⟨htz, hpz⟩ := parseRegM_codeToRegisterName hc hrt hz
    exact ⟨hformat rfl, x, y, z, tokenize_three hm htx hty htz, hpx, hpy, hpz⟩
  case rShift m rd rt sh =>
    obtain ⟨hrd, hrt, -⟩ := hregs
    obtain ⟨x, hx, h⟩ := bind_eq_ok.mp h
    obtain ⟨y, hy, h⟩ := bind_eq_ok.mp h
    cases h
    obtain ⟨htx, hpx⟩ := parseRegM_codeToRegisterName hc hrd hx
    obtain ⟨hty, hpy⟩ := parseRegM_codeToRegisterName hc hrt hy
    exact ⟨hformat rfl, x, y, _, tokenize_three hm htx hty (renderNumeral_isToken sh), hpx, hpy,
      parseNumeral_renderNumeral sh⟩
  case iType m rt rs imm =>
    obtain ⟨hrt, hrs, -⟩ := hregs
    obtain ⟨x, hx, h⟩ := bind_eq_ok.mp h
    obtain ⟨y, hy, h⟩ := bind_eq_ok.mp h
    obtain ⟨htx, hpx⟩ := parseRegM_codeToRegisterName hc hrt hx
    obtain ⟨hty, hpy⟩ := parseRegM_codeToRegisterName hc hrs hy
    refine ⟨hformat rfl, ?_⟩
    split at h
    case isTrue hmemory =>
      have htoken := isToken_memoryOperand imm hty
      cases h
      refine .inr ⟨hmemory, x, renderNumeral imm ++ ['('] ++ y ++ [')'], ?_, hpx, parseMemM_memoryOperand imm hpy⟩
      rw [← tokenize_two hm htx htoken]
      simp only [List.append_assoc]
    case isFalse hmemory =>
      cases h
      exact .inl ⟨hmemory, x, y, _, tokenize_three hm htx hty (renderNumeral_isToken imm), hpx, hpy,
        parseNumeral_renderNumeral imm⟩
  case jType m tg =>
    cases h
    exact ⟨hformat rfl, _, tokenize_one hm (renderNumeral_isToken tg), parseNumeral_renderNumeral tg⟩
  all_goals cases hisa

/-- The opcode of a two-operand mnemonic of `S` is found by the lookup (R70, R81). -/
theorem twoOperandS_of_opcode {c : Config} {m : Text} (hc : c.WellFormed)
    (h : ∃ op, (m, op) ∈ c.s.opc ∧ op ≠ c.s.haltOpcode ∧ op ∉ c.s.jumpCodes) : TwoOperandS c.s m := by
  obtain ⟨-, ⟨hkeys, -⟩, -⟩ := hc
  obtain ⟨op, hmem, hclass⟩ := h
  exact ⟨op, lookup_of_mem hkeys hmem, hclass⟩

/-- The canonical text of a legible instruction of `S` is a spelling of it. -/
theorem spellsS_renderText {c : Config} {a : AbstractInstr} {out : Text} (hc : c.WellFormed) (hisa : a.isa = .s)
    (hf : FormatMatches c a) (hl : Legible c a) (h : renderText c a = .ok out) : SpellsS c.s (tokenize out) a := by
  obtain ⟨hm, hregs⟩ := hl
  obtain ⟨⟨hkeys, -⟩, ⟨-, -, hdisjoint⟩, -⟩ := hc.2
  cases a <;> simp only [registerOperands, List.forall_mem_cons, classification] at hregs hm
  case noOperand m =>
    cases h
    exact ⟨lookup_of_mem hkeys hf, tokenize_word hm⟩
  case singleTarget m tg =>
    obtain ⟨op, hmem, hj⟩ := hf
    cases h
    exact ⟨⟨op, lookup_of_mem hkeys hmem, ne_of_mem_of_not_mem hj hdisjoint, hj⟩, _,
      tokenize_one hm (renderNumeral_isToken tg), parseNumeral_renderNumeral tg⟩
  case regReg m src dst =>
    obtain ⟨hsrc, hdst, -⟩ := hregs
    obtain ⟨x, hx, h⟩ := bind_eq_ok.mp h
    obtain ⟨y, hy, h⟩ := bind_eq_ok.mp h
    cases h
    obtain ⟨htx, hsx, hpx⟩ := parseRegS_codeToRegisterName hc hsrc hx
    obtain ⟨hty, hsy, hpy⟩ := parseRegS_codeToRegisterName hc hdst hy
    exact ⟨twoOperandS_of_opcode hc hf, x, y, tokenize_two hm htx hty, hsx, hsy, hpx, hpy⟩
  case immReg m imm dst =>
    obtain ⟨hdst, -⟩ := hregs
    obtain ⟨y, hy, h⟩ := bind_eq_ok.mp h
    cases h
    obtain ⟨hty, hsy, hpy⟩ := parseRegS_codeToRegisterName hc hdst hy
    refine ⟨twoOperandS_of_opcode hc hf, '#' :: renderNumeral imm, y, ?_, rfl, hsy, parseNumeral_renderNumeral imm, hpy⟩
    rw [← tokenize_two hm (isToken_immediate imm) hty]
    simp only [List.append_assoc, List.cons_append, List.nil_append]
  case loadStore m base dst =>
    obtain ⟨hbase, hdst, -⟩ := hregs
    obtain ⟨x, hx, h⟩ := bind_eq_ok.mp h
    obtain ⟨y, hy, h⟩ := bind_eq_ok.mp h
    cases h
    obtain ⟨htx, -, hpx⟩ := parseRegS_codeToRegisterName hc hbase hx
    obtain ⟨hty, hsy, hpy⟩ := parseRegS_codeToRegisterName hc hdst hy
    refine ⟨twoOperandS_of_opcode hc hf, ['['] ++ x ++ [']'], y, ?_, rfl, hsy, parseIndS_form.trans hpx, hpy⟩
    rw [← tokenize_two hm (isToken_indirect htx) hty]
    simp only [List.append_assoc, List.cons_append, List.nil_append]
  all_goals cases hisa

/-- A legible instruction whose mnemonic has its format has a canonical text, which reads as the instruction. -/
theorem exists_canonical {c : Config} {a : AbstractInstr} (hc : c.WellFormed) (hf : FormatMatches c a)
    (hl : Legible c a) : ∃ out, renderText c a = .ok out ∧ parse c a.isa out = .ok a := by
  obtain ⟨out, hout⟩ := (unknownWhen_renderText c a).2 (not_not_intro hl.registersNamed)
  refine ⟨out, hout, ?_⟩
  cases hisa : a.isa with
  | m => exact parseM_eq_ok.mpr (spellsM_renderText hc hisa hf hl hout)
  | s => exact parseS_eq_ok.mpr (spellsS_renderText hc hisa hf hl hout)

/-! ## Text and word translate into each other -/

theorem assemble_of_parse {c : Config} {isa : Isa} {text : Text} {a : AbstractInstr} {W : Word}
    (hp : parse c isa text = .ok a) (hW : encode c a = .ok W) :
    assemble c isa text = .ok (renderHex (c.hexDigits a.isa) W) := by
  have hout : outputOf c a (.assemble isa text) = .ok (renderHex (c.hexDigits a.isa) W) := by
    rw [outputOf, hW]; rfl
  unfold assemble
  rw [respond_of_parse_ok (r := .assemble isa text) hp, hout, responseOf_ok]

/-- `out` and `h` are the canonical text and the hex string of the word of `a`, and each translates to the other. -/
structure Translates (c : Config) (a : AbstractInstr) (out h : Text) : Prop where
  renderText_eq : renderText c a = .ok out
  parse_eq : parse c a.isa out = .ok a
  assemble_eq : assemble c a.isa out = .ok h
  disassemble_eq : disassemble c a.isa h = .ok out

/-- The canonical text and the word of an instruction that is legible and admissible translate to each other. -/
theorem roundTrip {c : Config} {a : AbstractInstr} {W : Word} (hc : c.WellFormed) (hl : Legible c a)
    (ha : Admissible c a) (hW : encode c a = .ok W) :
    ∃ out, Translates c a out (renderHex (c.hexDigits a.isa) W) := by
  obtain ⟨out, hout, hparse⟩ := exists_canonical hc ha.1 hl
  obtain ⟨V, hV, hlt, hdecode⟩ := decodeEncodeAnyConfig c a hc ha
  obtain rfl : W = V := Except.ok.inj (hW.symm.trans hV)
  refine ⟨out, hout, hparse, assemble_of_parse hparse hW, ?_⟩
  rw [disassemble_renderHex hc hlt, hdecode]
  exact congrArg responseOf hout

/-! ## Laws 1 and 2 -/

/-- What is encoded stores for its numeric operand the value `fit` gives it. -/
theorem fit_of_encode {c : Config} {a : AbstractInstr} {W : Word} {v : Int} {f : FieldName} (h : encode c a = .ok W)
    (hv : numericOperand a = some (v, f)) : ∃ n, fit (c.overflow a.isa) v ((layoutOf c a).width f) = .ok n := by
  cases a <;> cases hv
  all_goals
    obtain ⟨code, -, h⟩ := bind_eq_ok.mp h
    obtain ⟨n, hn, -⟩ := bind_eq_ok.mp h
    exact ⟨n, hn⟩

/-- Under `reject` nothing is encoded that does not fit (R91). -/
theorem numericOperand_fits_of_reject {c : Config} {a : AbstractInstr} {W : Word} (hp : c.overflow a.isa = .reject)
    (h : encode c a = .ok W) : ∀ q ∈ numericOperand a, 0 ≤ q.1 ∧ q.1 < 2 ^ (layoutOf c a).width q.2 := by
  intro q hq
  obtain ⟨n, hn⟩ := fit_of_encode h hq
  rw [hp] at hn
  rw [← fit_reject_ok hn]
  exact ⟨Int.natCast_nonneg n, by exact_mod_cast fit_lt hn⟩

/-- Settles O16: where no `fit` wrapped, the instruction the text reads as is itself admissible. -/
theorem roundTripText : Obligations.RoundTripText := by
  unfold Obligations.RoundTripText
  intro c isa text h hc hfits hassemble
  obtain ⟨a, W, hparse, hencode, rfl⟩ := assemble_eq_ok hassemble
  obtain ⟨rfl, hformat, hnamed⟩ := parse_formatMatches hparse
  have hnum : ∀ q ∈ numericOperand a, 0 ≤ q.1 ∧ q.1 < 2 ^ (layoutOf c a).width q.2 := by
    rcases hfits with hreject | hnowrap
    · exact numericOperand_fits_of_reject hreject hencode
    · exact fun q hq => hnowrap a q.1 q.2 hparse hq
  have hadm : Admissible c a := ⟨hformat, hnamed.lt_width hc, hnum⟩
  obtain ⟨out, ht⟩ := roundTrip hc (legible_of_parse hparse) hadm hencode
  exact ⟨a, out, hparse, ht.renderText_eq, ht.disassemble_eq, ht.parse_eq⟩

/-- Settles O17: the word of a text is the word of an admissible instruction, the one read from the text with the
value that is stored, whose canonical text it disassembles to. -/
theorem reassemblyIsStable : Obligations.ReassemblyIsStable := by
  unfold Obligations.ReassemblyIsStable
  intro c isa text h hc hassemble
  obtain ⟨a, W, hparse, hencode, rfl⟩ := assemble_eq_ok hassemble
  obtain ⟨rfl, hformat, hnamed⟩ := parse_formatMatches hparse
  obtain ⟨n, hadm, hencode'⟩ := exists_admissible_of_encode hc hformat hnamed hencode
  obtain ⟨out, ht⟩ := roundTrip hc ((legible_of_parse hparse).withNumeric n) hadm hencode'
  obtain ⟨-, -, hassemble', hdisassemble⟩ := ht
  rw [withNumeric_isa] at hassemble' hdisassemble
  exact ⟨out, hdisassemble, hassemble'⟩

/-! ## Laws 3 and 4 under the default tables -/

/-- `Solid` as a test that runs. -/
def isSolid (t : Text) : Bool := t.all fun ch => !isSpace ch && ch != ','

theorem isSolid_iff {t : Text} : isSolid t = true ↔ Solid t := by
  simp [isSolid, Solid]

/-- The mnemonics of the default tables are tokens. -/
theorem isToken_mnemonics :
    (∀ k ∈ fnM.keys, IsToken k) ∧ (∀ k ∈ opcM.keys, IsToken k) ∧ ∀ k ∈ opcS.keys, IsToken k := by
  have htoken {k : Text} (h : k ≠ [] ∧ isSolid k = true) : IsToken k := ⟨h.1, isSolid_iff.mp h.2⟩
  have hfn : ∀ k ∈ fnM.keys, k ≠ [] ∧ isSolid k = true := by decide
  have hopcM : ∀ k ∈ opcM.keys, k ≠ [] ∧ isSolid k = true := by decide
  have hopcS : ∀ k ∈ opcS.keys, k ≠ [] ∧ isSolid k = true := by decide
  exact ⟨fun k hk => htoken (hfn k hk), fun k hk => htoken (hopcM k hk), fun k hk => htoken (hopcS k hk)⟩

/-- The register names of the default tables begin as operands do, and hold no whitespace and no comma. -/
theorem legibleRegister_defaultConfig {p : Overflow} {isa : Isa} {v : Nat}
    (h : v ∈ (regTable (defaultConfig p) isa).values) : LegibleRegister (defaultConfig p) isa v := by
  have hM : ∀ k ∈ regTableM.keys, k.head? = some '$' ∧ isSolid k = true := by decide
  have hS : ∀ k ∈ regTableS.keys, k.head? = some 'R' ∧ isSolid k = true := by decide
  have hlegible : ∀ k ∈ (regTable (defaultConfig p) isa).keys, k.head? = some (regMark isa) ∧ isSolid k = true := by
    cases isa with
    | m => exact hM
    | s => exact hS
  obtain ⟨k, hmem⟩ := exists_mem_of_value h
  obtain ⟨hhead, hsolid⟩ := hlegible k (mem_keys hmem)
  exact ⟨k, hmem, hhead, isSolid_iff.mp hsolid⟩

/-- Under the default tables an instruction whose registers have names is legible. -/
theorem legible_defaultConfig {p : Overflow} {a : AbstractInstr} (hf : FormatMatches (defaultConfig p) a)
    (hr : RegistersNamed (defaultConfig p) a) : Legible (defaultConfig p) a := by
  obtain ⟨hfn, hopcM, hopcS⟩ := isToken_mnemonics
  obtain ⟨code, hcode⟩ := formatMatches_iff_hasCode.mp hf
  refine ⟨?_, fun q hq => legibleRegister_defaultConfig (hr q hq)⟩
  cases a with
  | r3 | rShift => exact hfn _ (mem_keys hcode.1)
  | iType | jType => exact hopcM _ (mem_keys hcode.1)
  | noOperand | singleTarget | regReg | immReg | loadStore => exact hopcS _ (mem_keys hcode.1)

/-- Settles O18: under the default tables a word with a text decodes to a legible instruction, whose word is the
given one with its don't-care fields cleared. -/
theorem canonicalTextIsFixedPoint : Obligations.CanonicalTextIsFixedPoint := by
  unfold Obligations.CanonicalTextIsFixedPoint
  intro p isa W out hW hdis
  have hc := defaultConfig_wellFormed p
  have hlt : W < 2 ^ (defaultConfig p).wordBits isa := by rwa [defaultConfig_wordBits]
  rw [← defaultConfig_hexDigits p isa, disassemble_renderHex hc hlt, responseOf_eq_ok] at hdis
  obtain ⟨a, hdecode, hout⟩ := bind_eq_ok.mp hdis
  obtain ⟨rfl, hencode⟩ := encodeDecodeClearsDontCare _ _ _ _ hc hdecode
  have hadm := admissible_of_decodeWord hc hdecode
  have hnamed : RegistersNamed (defaultConfig p) a := by
    by_contra hunnamed
    cases ((unknownWhen_renderText _ a).1 hunnamed).symm.trans hout
  obtain ⟨canonical, ht⟩ := roundTrip hc (legible_defaultConfig hadm.1 hnamed) hadm hencode
  obtain rfl : canonical = out := Except.ok.inj (ht.renderText_eq.symm.trans hout)
  rw [defaultConfig_hexDigits] at ht
  exact ⟨a, hdecode, ht.assemble_eq, ht.disassemble_eq⟩

end Sys2Proof.Machine
end

section
/-!
SUPPORT and PROOF for 43_facade_text.md: tokens, numerals and operands (R105 to R114), and the step that runs the
instruction a request reads as (R116 to R119, R201). Each function of the text side is said once in the terms of its
rule: the tokeniser cuts its text into runs (`exists_cutsInto_splitRuns`), `parseMagnitude` accepts the unsigned
numerals (`parseMagnitude_eq_ok_iff`), and an operand is a test of its characters followed by a lookup or a numeral.
-/

namespace Sys2Proof.Machine

/-! ## Tokens (R105, R106) -/

theorem isSpace_iff_mem {ch : Char} : isSpace ch = true ↔ ch.toNat ∈ [0x20, 0x09, 0x0a, 0x0b, 0x0c, 0x0d] := by
  simp [isSpace, or_assoc]

/-- The text `t` is the gap `lead` and then the `runs`, each a token with the gap after it: tokens are not empty and
without whitespace, gaps are whitespace, and a gap between two tokens is not empty. -/
structure CutsInto (t lead : Text) (runs : List (Text × Text)) : Prop where
  text_eq : t = lead ++ runs.flatMap fun p => p.1 ++ p.2
  lead_spaces : ∀ ch ∈ lead, isSpace ch = true
  runs_ok : ∀ p ∈ runs, p.1 ≠ [] ∧ (∀ ch ∈ p.1, isSpace ch = false) ∧ ∀ ch ∈ p.2, isSpace ch = true
  inner_gaps : ∀ p ∈ runs.dropLast, p.2 ≠ []

/-- A token alone, with nothing after it. -/
theorem CutsInto.token {run : Text} (hne : run ≠ []) (hrun : ∀ ch ∈ run, isSpace ch = false) :
    CutsInto run [] [(run, [])] where
  text_eq := by simp
  lead_spaces := by simp
  runs_ok := by simpa using ⟨hne, hrun⟩
  inner_gaps := by simp

/-- One more space before the text. -/
theorem CutsInto.cons_space {t lead : Text} {runs : List (Text × Text)} (h : CutsInto t lead runs) {ch : Char}
    (hch : isSpace ch = true) : CutsInto (ch :: t) (ch :: lead) runs where
  text_eq := by rw [h.text_eq, List.cons_append]
  lead_spaces := List.forall_mem_cons.mpr ⟨hch, h.lead_spaces⟩
  runs_ok := h.runs_ok
  inner_gaps := h.inner_gaps

/-- A token before a text that begins with whitespace: the leading gap becomes an inner one. -/
theorem CutsInto.cons_token {t lead run : Text} {runs : List (Text × Text)} (h : CutsInto t lead runs)
    (hlead : lead ≠ []) (hne : run ≠ []) (hrun : ∀ ch ∈ run, isSpace ch = false) :
    CutsInto (run ++ t) [] ((run, lead) :: runs) where
  text_eq := by simp [h.text_eq]
  lead_spaces := by simp
  runs_ok := List.forall_mem_cons.mpr ⟨⟨hne, hrun, h.lead_spaces⟩, h.runs_ok⟩
  inner_gaps := by
    cases runs with
    | nil => simp
    | cons q qs => exact List.forall_mem_cons.mpr ⟨hlead, h.inner_gaps⟩

/-- The tokeniser cuts its text, the run under way and what is yet to read, into the tokens it answers. -/
theorem exists_cutsInto_splitRuns {t run : Text} (hrun : ∀ ch ∈ run, isSpace ch = false) :
    ∃ lead runs, CutsInto (run ++ t) lead runs ∧ runs.map Prod.fst = splitRuns run t := by
  induction t generalizing run with
  | nil =>
    rw [List.append_nil]
    by_cases hne : run = []
    · subst hne
      exact ⟨[], [], ⟨rfl, by simp, by simp, by simp⟩, rfl⟩
    · exact ⟨[], _, .token hne hrun, (flush_token hne).symm⟩
  | cons ch cs ih =>
    rw [splitRuns_cons]
    cases hch : isSpace ch with
    | false =>
      have hrun' : ∀ d ∈ run ++ [ch], isSpace d = false :=
        List.forall_mem_append.mpr ⟨hrun, by simpa using hch⟩
      simpa using ih hrun'
    | true =>
      obtain ⟨lead, runs, hcut, htokens⟩ := ih (run := []) (by simp)
      have hspace := hcut.cons_space hch
      rw [if_pos rfl, ← htokens]
      by_cases hne : run = []
      · subst hne
        exact ⟨_, runs, hspace, rfl⟩
      · exact ⟨[], _, hspace.cons_token (List.cons_ne_nil _ _) hne hrun, by rw [flush_token hne]; rfl⟩

/-- Settles O26: the tokeniser begins with no run under way, on the text without its commas. -/
theorem tokensAreMaximalRuns : Obligations.TokensAreMaximalRuns := by
  unfold Obligations.TokensAreMaximalRuns
  refine ⟨fun ch => isSpace_iff_mem, fun text => ?_⟩
  obtain ⟨lead, runs, hcut, htokens⟩ := exists_cutsInto_splitRuns
    (t := text.filter fun ch => decide (ch ≠ ',')) (run := []) (by simp)
  exact ⟨lead, runs, hcut.text_eq, htokens, hcut.lead_spaces, hcut.runs_ok, hcut.inner_gaps⟩

/-! ## Numerals read (R107) -/

/-- The decimal digits are the hex digits below ten. -/
theorem decValue_eq_some_iff {ch : Char} {d : Nat} : decValue? ch = some d ↔ IsDecDigit ch d := by
  have hdec : decValue? ch = some d ↔ hexValue? ch = some d ∧ d < 10 := by
    simp only [decValue?, hexValue?]
    grind
  have hcase : ∀ d < 10, upperHex[d]? = lowerHex[d]? := by decide
  rw [hdec, hexValue_eq_some_iff, and_comm]
  refine and_congr_right fun hd => ?_
  rw [IsHexDigit, hcase d hd, or_self]

/-- What can be read as digits begins with a digit. -/
theorem Spells.exists_digit {digit : Char → Nat → Prop} {b v : Nat} {t : Text} (h : Spells digit b t v) {ch : Char}
    (hch : ch ∈ t) : ∃ d, digit ch d := by
  induction t generalizing v with
  | nil => cases hch
  | cons c cs ih =>
    obtain ⟨d, r, hd, hr, -⟩ := h
    obtain rfl | hch := List.mem_cons.mp hch
    · exact ⟨d, hd⟩
    · exact ih hr hch

theorem not_isDecDigit {ch : Char} (h : decValue? ch = none) (d : Nat) : ¬ IsDecDigit ch d := by
  rw [← decValue_eq_some_iff, h]
  simp

/-- The text begins with the mark of a hexadecimal numeral, `0x` or `0X`. -/
def HexMarked (u : Text) : Prop := ∃ x ds, (x = 'x' ∨ x = 'X') ∧ u = '0' :: x :: ds

/-- After the mark stand one or more hex digits. -/
theorem parseMagnitude_hex {x : Char} (hx : x = 'x' ∨ x = 'X') (ds : Text) : parseMagnitude ('0' :: x :: ds) =
    if ds = [] then .error .malformedInstruction else readDigits hexValue? 16 0 ds := by
  obtain rfl | rfl := hx <;> rfl

/-- Without the mark stand one or more decimal digits. -/
theorem parseMagnitude_decimal {u : Text} (hne : u ≠ []) (hu : ¬ HexMarked u) :
    parseMagnitude u = readDigits decValue? 10 0 u := by
  unfold parseMagnitude
  split
  · exact absurd rfl hne
  · exact absurd ⟨'x', _, .inl rfl, rfl⟩ hu
  · exact absurd ⟨'X', _, .inr rfl, rfl⟩ hu
  · rfl

/-- Digits read from nothing denote their value. -/
theorem readDigits_zero_eq_ok_iff {digit? : Char → Option Nat} {digit : Char → Nat → Prop} {base : Nat}
    (hdigit : ∀ ch d, digit? ch = some d ↔ digit ch d) {t : Text} {v : Nat} :
    readDigits digit? base 0 t = .ok v ↔ Spells digit base t v := by
  simp [readDigits_eq_ok_iff hdigit]

theorem parseMagnitude_eq_ok_iff {u : Text} {n : Nat} : parseMagnitude u = .ok n ↔ Unsigned u n := by
  by_cases hu : HexMarked u
  · obtain ⟨x, ds, hx, rfl⟩ := hu
    have hletter : decValue? x = none := by obtain rfl | rfl := hx <;> rfl
    have hnodecimal : ¬ Spells IsDecDigit 10 ('0' :: x :: ds) n := fun h =>
      have ⟨d, hd⟩ := h.exists_digit (ch := x) (by simp)
      not_isDecDigit hletter d hd
    rw [parseMagnitude_hex hx, Unsigned, or_iff_left fun h => hnodecimal h.2]
    split
    case isTrue hnil => simp [hnil]
    case isFalse hne =>
      rw [readDigits_zero_eq_ok_iff (@hexValue_eq_some_iff)]
      constructor
      · exact fun h => ⟨x, ds, hx, rfl, hne, h⟩
      · rintro ⟨_, _, -, heq, -, h⟩
        cases heq
        exact h
  · have hnohex : ¬ ∃ x ds, (x = 'x' ∨ x = 'X') ∧ u = '0' :: x :: ds ∧ ds ≠ [] ∧ Spells IsHexDigit 16 ds n :=
      fun ⟨x, ds, hx, heq, _⟩ => hu ⟨x, ds, hx, heq⟩
    rw [Unsigned, or_iff_right hnohex]
    by_cases hne : u = []
    · simp [hne, parseMagnitude]
    · rw [parseMagnitude_decimal hne hu, readDigits_zero_eq_ok_iff (@decValue_eq_some_iff)]
      exact (and_iff_right hne).symm

theorem parseNumeral_minus (u : Text) :
    parseNumeral ('-' :: u) = parseMagnitude u >>= fun n => .ok (-(n : Int)) := rfl

theorem parseNumeral_unsigned {t : Text} (h : t.head? ≠ some '-') :
    parseNumeral t = parseMagnitude t >>= fun n => .ok (n : Int) := by
  unfold parseNumeral
  split
  · exact absurd rfl h
  · rfl

/-- A minus sign begins no unsigned numeral. -/
theorem not_unsigned_minus (u : Text) (n : Nat) : ¬ Unsigned ('-' :: u) n := by
  rintro (⟨x, ds, -, heq, -⟩ | ⟨-, hdigits⟩)
  · exact absurd (List.cons.inj heq).1 (by decide)
  · obtain ⟨d, hd⟩ := hdigits.exists_digit List.mem_cons_self
    exact not_isDecDigit rfl d hd

theorem parseNumeral_eq_ok_iff {t : Text} {v : Int} : parseNumeral t = .ok v ↔ Numeral t v := by
  by_cases hsign : t.head? = some '-'
  · obtain ⟨u, rfl⟩ := List.head?_eq_some_iff.mp hsign
    rw [parseNumeral_minus, bind_eq_ok]
    simp [Numeral, not_unsigned_minus, parseMagnitude_eq_ok_iff, eq_comm (a := v)]
  · have hnominus (u : Text) : t ≠ '-' :: u := fun h => hsign (h ▸ rfl)
    rw [parseNumeral_unsigned hsign, bind_eq_ok]
    simp [Numeral, hnominus, parseMagnitude_eq_ok_iff, eq_comm (a := v)]

/-- Settles O27: what is no numeral is answered with the only error of `parse_numeral`. -/
theorem numeralGrammar : Obligations.NumeralGrammar := by
  unfold Obligations.NumeralGrammar
  refine fun t => ⟨fun v => parseNumeral_eq_ok_iff, fun hno => ?_⟩
  cases hp : parseNumeral t with
  | ok v => exact absurd (parseNumeral_eq_ok_iff.mp hp) (hno v)
  | error e => rw [parseNumeral_error hp]

/-! ## Numerals written (R108) -/

/-- The last `k` digits of `n` spell `n` modulo `16 ^ k`. -/
theorem spells_hexChars (n k : Nat) : Spells IsLowerHexDigit 16 (hexChars k n) (n % 16 ^ k) := by
  induction k with
  | zero => exact Nat.mod_one n
  | succ k ih =>
    rw [hexChars_succ]
    refine ⟨_, _, lowerHex_getElem? _ (Nat.mod_lt _ (by decide)), ih, ?_⟩
    rw [hexChars_length, Nat.pow_succ, Nat.mod_mul]
    ring

/-- The digits of a number other than 0 begin with no 0: the first is the number divided by the greatest power of 16
that is not above it. -/
theorem head?_hexChars_hexLength {n : Nat} (hn : n ≠ 0) : (hexChars (hexLength n) n).head? ≠ some '0' := by
  have hzero : ∀ d < 16, hexDigit d = '0' → d = 0 := by decide
  have hlow : 16 ^ (Nat.log2 n / 4) ≤ n := calc
    16 ^ (Nat.log2 n / 4) = 2 ^ (4 * (Nat.log2 n / 4)) := by rw [Nat.pow_mul]
    _ ≤ 2 ^ Nat.log2 n := Nat.pow_le_pow_right (by decide) (Nat.mul_div_le _ _)
    _ ≤ n := Nat.log2_self_le hn
  have hhigh : n / 16 ^ (Nat.log2 n / 4) < 16 := by
    have hlt : n < 16 ^ (Nat.log2 n / 4 + 1) := lt_pow_hexLength n
    exact Nat.div_lt_of_lt_mul (by rwa [Nat.pow_succ] at hlt)
  rw [hexLength, hexChars_succ, Nat.mod_eq_of_lt hhigh, List.head?_cons]
  intro h
  exact (Nat.div_pos hlow (by positivity)).ne' (hzero _ hhigh (Option.some.inj h))

/-- Settles O28: the digits written are as many as the number has. -/
theorem numeralRendering : Obligations.NumeralRendering := by
  unfold Obligations.NumeralRendering
  intro n
  have hspells := spells_hexChars n (hexLength n)
  rw [Nat.mod_eq_of_lt (lt_pow_hexLength n)] at hspells
  refine ⟨⟨hexChars (hexLength n) n, renderNumeral_natCast n, hspells, ?_, fun hn => ?_⟩,
    parseNumeral_renderNumeral n⟩
  · rintro rfl
    decide
  · exact ⟨hexChars_hexLength_ne_nil n, head?_hexChars_hexLength hn⟩

/-! ## Operands of `M` (R109, R110) -/

theorem parseRegM_eq (c : ConfigM) (t : Text) : parseRegM c t =
    if t.head? = some '$' then lookupRegisterCode c.reg t else .error .invalidOperandSyntax := by
  unfold parseRegM
  split
  · rfl
  · next hno => rw [if_neg fun h => (List.head?_eq_some_iff.mp h).elim hno]

theorem parseMemM_of_not_parenthesised {c : ConfigM} {t : Text} (h : '(' ∉ t ∨ t.getLast? ≠ some ')') :
    parseMemM c t = .error .invalidOperandSyntax := if_neg (not_and_or.mpr h)

/-- What stands before the first `(`, and between it and the final `)`. -/
theorem exists_parenthesised {t : Text} (hopen : '(' ∈ t) (hclose : t.getLast? = some ')') :
    ∃ off inner, t = off ++ ['('] ++ inner ++ [')'] ∧ ∀ ch ∈ off, ch ≠ '(' :=
  ⟨_, _, parenthesised_split hopen hclose, fun ch hch => by simpa using List.mem_takeWhile_imp hch⟩

/-- Settles O29: a memory operand with its parentheses is the numeral before the first of them, and then the
register. -/
theorem operandSyntaxM : Obligations.OperandSyntaxM := by
  unfold Obligations.OperandSyntaxM
  intro c t
  refine ⟨fun h => ?_, fun h => ?_, parseMemM_of_not_parenthesised, fun hopen hclose => ?_⟩
  · rw [parseRegM_eq, if_neg h]
  · rw [parseRegM_eq, if_pos h]
  obtain ⟨off, inner, rfl, hoff⟩ := exists_parenthesised hopen hclose
  have hparse := parseMemM_form (c := c) (reg := inner) hoff
  refine ⟨off, inner, by simp, fun h => hoff _ h rfl, fun e he => ?_, fun imm himm =>
    ⟨fun e he => ?_, fun rs hrs => ?_⟩⟩
  · rw [hparse, he]; rfl
  · rw [hparse, himm, he]; rfl
  · rw [hparse, himm, hrs]; rfl

/-! ## Operands of `S` (R111 to R114) -/

theorem parseRegS_eq (c : ConfigS) (t : Text) : parseRegS c t =
    if t.head? = some 'R' then lookupRegisterCode c.reg t else .error .invalidOperandSyntax := by
  unfold parseRegS
  split
  · rfl
  · next hno => rw [if_neg fun h => (List.head?_eq_some_iff.mp h).elim hno]

/-- Settles O30: each shape and each form is a test of the first or the last character. -/
theorem operandSyntaxS : Obligations.OperandSyntaxS := by
  unfold Obligations.OperandSyntaxS
  intro c t
  refine ⟨shape_eq_register, shape_eq_immediate, shape_eq_indirect, fun h => ?_, fun h => ?_, rfl,
    fun _ h => if_neg h, parseIndS_form⟩
  · rw [parseRegS_eq, if_neg h]
  · rw [parseRegS_eq, if_pos h]

/-! ## The step that runs an instruction (R116 to R119, R201) -/

/-- Where the request in progress reads as a row of the opcode table, the step runs the row. -/
theorem step_eq_exec {s : State} {r : Request} {rest : List Request} {a : AbstractInstr} {i : Instr}
    (h : s.requests = r :: rest) (ha : parseRequest s.cfg r = .ok a) (hi : a.toInstr = some i) :
    step s = exec i s := by
  rw [step_parse_ok h ha, exec_eq_translate, toAbstract_of_toInstr hi]

/-- The instruction of a table row's word is the one that its hex string decodes to. -/
theorem decodeTableWord_eq_some_iff {nbits w : Nat} {i : Instr} : decodeTableWord nbits w = some i ↔
    ∃ a, decode (defaultConfig .reject) (rowIsa nbits w) (renderHex 8 w) = .ok a ∧ a.toInstr = some i := by
  unfold decodeTableWord
  split
  case h_1 a ha => simp [ha]
  case h_2 e he => simp [he]

/-- Settles O11: `disassemble` reads its request by the decoder, and under the default configuration that is how the
word placed by `withFetchWord` is read. -/
theorem stepRunsDecodedInstruction : Obligations.StepRunsDecodedInstruction := by
  unfold Obligations.StepRunsDecodedInstruction
  refine ⟨fun s r rest a i => step_eq_exec, fun s isa hex rest a i => step_eq_exec, fun s nbits w i hcfg hrow => ?_,
    fun s r rest a h ha _ => by rw [step_parse_ok h ha, translate_eq_after h]⟩
  obtain ⟨a, hdecode, hi⟩ := decodeTableWord_eq_some_iff.mp hrow
  have hparse : parseRequest s.cfg
      (.disassemble (rowIsa nbits w) (renderHex (s.cfg.hexDigits (rowIsa nbits w)) w)) = .ok a := by
    rw [hcfg, defaultConfig_hexDigits]
    exact hdecode
  exact step_eq_exec rfl hparse hi

end Sys2Proof.Machine
end

section
/-!
SUPPORT and PROOF for 44_mips_rtype.md: the three-operand and the shift instructions of `M` (R130 to R142) under the
default tables of `M`, whatever the configuration of `S`. Each stage of a request is said once: how a text of `M` is
counted and its operands read, left to right up to the first fault (`bind_eq_error_of_firstFault`); the word that
`encode` packs; the text that names a word's fields. A statement about a step or an instruction strings these together.
-/

namespace Sys2Proof.Machine

/-! ## The answer of a step, from its stages -/

section Answers

variable {s : State} {rest : List Request} {text hex : Text} {a : AbstractInstr} {e : ErrorKind}

/-- A step answers as the codec responds. -/
theorem answers_of_respond {r : Request} {resp : Response} (hs : s.requests = r :: rest)
    (h : respond s.cfg r = resp) : Answers s r rest resp := h ▸ step_answers hs

theorem answers_assembleM_parse_error (hs : s.requests = .assemble .m text :: rest)
    (h : parseM s.cfg.m text = .error e) : Answers s (.assemble .m text) rest (.err e) :=
  answers_of_respond hs (respond_of_parse_error h)

theorem answers_assembleM_encode_error (hs : s.requests = .assemble .m text :: rest)
    (hp : parseM s.cfg.m text = .ok a) (he : encode s.cfg a = .error e) :
    Answers s (.assemble .m text) rest (.err e) := by
  have hout : outputOf s.cfg a (.assemble .m text) = .error e := bind_eq_error.mpr (.inl he)
  have hp : parseRequest s.cfg (.assemble .m text) = .ok a := hp
  exact answers_of_respond hs ((respond_of_parse_ok hp).trans (congrArg responseOf hout))

theorem answers_assembleM {W : Word} {digits : Nat} (hs : s.requests = .assemble .m text :: rest)
    (hp : parseM s.cfg.m text = .ok a) (hW : encode s.cfg a = .ok W) (hdigits : s.cfg.hexDigits a.isa = digits) :
    Answers s (.assemble .m text) rest (.ok (renderHex digits W)) :=
  hdigits ▸ answers_of_respond hs (assemble_of_parse (isa := .m) hp hW)

theorem answers_disassembleM {W : Word} {digits : Nat} {out : Text}
    (hs : s.requests = .disassemble .m hex :: rest) (hdigits : s.cfg.hexDigits .m = digits)
    (hhex : parseHex digits hex = .ok W) (hd : decodeM s.cfg.m W = .ok a)
    (hout : renderText s.cfg a = .ok out) : Answers s (.disassemble .m hex) rest (.ok out) := by
  subst hdigits
  have hp : parseRequest s.cfg (.disassemble .m hex) = .ok a := bind_eq_ok.mpr ⟨W, hhex, hd⟩
  have hout' : outputOf s.cfg a (.disassemble .m hex) = .ok out := hout
  exact answers_of_respond hs ((respond_of_parse_ok hp).trans (congrArg responseOf hout'))

/-- An instruction run on a request to assemble answers its word, whatever the text. -/
theorem exec_assemble {i : Instr} {isa : Isa} {W : Word} {digits : Nat}
    (hs : s.requests = .assemble isa text :: rest) (hi : i.toAbstract = a) (hW : encode s.cfg a = .ok W)
    (hdigits : s.cfg.hexDigits a.isa = digits) :
    exec i s = .next (s.after (.assemble isa text) rest (.ok (renderHex digits W))) := by
  subst hdigits
  have hout : outputOf s.cfg a (.assemble isa text) = .ok (renderHex (s.cfg.hexDigits a.isa) W) :=
    bind_eq_ok.mpr ⟨W, hW, rfl⟩
  rw [exec_eq_translate, hi, translate_eq_after hs, hout, responseOf_ok]

/-- An instruction run on a request to disassemble answers its text, whatever the hex string. -/
theorem exec_disassemble {i : Instr} {isa : Isa} {out : Text} (hs : s.requests = .disassemble isa hex :: rest)
    (hi : i.toAbstract = a) (hout : renderText s.cfg a = .ok out) :
    exec i s = .next (s.after (.disassemble isa hex) rest (.ok out)) := by
  have hout' : outputOf s.cfg a (.disassemble isa hex) = .ok out := hout
  rw [exec_eq_translate, hi, translate_eq_after hs, hout', responseOf_ok]

end Answers

/-! ## The count of a text of `M` (R85, R115) -/

/-- Where the mnemonic has the format `f` with `n` operands, any other count is the only error of the text. -/
theorem parseM_wrong_count {c : ConfigM} {text m : Text} {ops : List Text} {f : FormatM} {n : Nat}
    (htok : tokenize text = m :: ops)
    (hclass : classifyEncodeM c m ops = if ops.length = n then .ok f else .error .malformedInstruction)
    (hlen : ops.length ≠ n) : parseM c text = .error .malformedInstruction := by
  rw [if_neg hlen] at hclass
  simp only [parseM, htok]
  exact bind_eq_error.mpr (.inl hclass)

/-- With the right count the text reads as its operands do. -/
theorem parseM_right_count {c : ConfigM} {text m : Text} {ops : List Text} {f : FormatM} {n : Nat}
    (htok : tokenize text = m :: ops)
    (hclass : classifyEncodeM c m ops = if ops.length = n then .ok f else .error .malformedInstruction)
    (hlen : ops.length = n) : parseM c text = parseOperandsM c m f ops := by
  rw [if_pos hlen] at hclass
  simp only [parseM, htok, hclass, bind, Except.bind]

/-! ## Faults in order (R197) -/

/-- The error of a result, if it is one. -/
def faultOf {α : Type} : Except ErrorKind α → Option ErrorKind
  | .ok _ => none
  | .error e => some e

theorem numeralFault_eq_faultOf (t : Text) : numeralFault t = faultOf (parseNumeral t) := by
  unfold numeralFault
  cases parseNumeral t <;> rfl

/-- The first step's fault stops a sequence; without one it goes on with the faults that are left. -/
theorem bind_eq_error_of_firstFault {α β : Type} {x : Except ErrorKind α} {f : α → Except ErrorKind β}
    {faults : List (Option ErrorKind)} {e : ErrorKind} (h : firstFault (faultOf x :: faults) = some e)
    (hf : ∀ a, firstFault faults = some e → f a = .error e) : (x >>= f) = .error e := by
  cases x with
  | error e' => exact congrArg Except.error (Option.some.inj h)
  | ok a => exact hf a h

theorem firstFault_nil_ne_some {e : ErrorKind} : firstFault [] ≠ some e := nofun

/-- The operands of `R3`, up to the first fault. -/
theorem parseOperandsM_r3_error {c : ConfigM} {m x y z : Text} {e : ErrorKind}
    (h : firstFault [faultOf (parseRegM c x), faultOf (parseRegM c y), faultOf (parseRegM c z)] = some e) :
    parseOperandsM c m .r3 [x, y, z] = .error e :=
  bind_eq_error_of_firstFault h fun _ h => bind_eq_error_of_firstFault h fun _ h =>
    bind_eq_error_of_firstFault h fun _ h => absurd h firstFault_nil_ne_some

/-- The operands of `RShift`, up to the first fault. -/
theorem parseOperandsM_rShift_error {c : ConfigM} {m x y z : Text} {e : ErrorKind}
    (h : firstFault [faultOf (parseRegM c x), faultOf (parseRegM c y), faultOf (parseNumeral z)] = some e) :
    parseOperandsM c m .rShift [x, y, z] = .error e :=
  bind_eq_error_of_firstFault h fun _ h => bind_eq_error_of_firstFault h fun _ h =>
    bind_eq_error_of_firstFault h fun _ h => absurd h firstFault_nil_ne_some

/-! ## Operands without a fault -/

theorem parseOperandsM_r3 {c : ConfigM} {m x y z : Text} {rd rs rt : Nat} (hx : parseRegM c x = .ok rd)
    (hy : parseRegM c y = .ok rs) (hz : parseRegM c z = .ok rt) :
    parseOperandsM c m .r3 [x, y, z] = .ok (.r3 m rd rs rt) :=
  bind_eq_ok.mpr ⟨rd, hx, bind_eq_ok.mpr ⟨rs, hy, bind_eq_ok.mpr ⟨rt, hz, rfl⟩⟩⟩

theorem parseOperandsM_rShift {c : ConfigM} {m x y z : Text} {rd rt : Nat} {sh : Int} (hx : parseRegM c x = .ok rd)
    (hy : parseRegM c y = .ok rt) (hz : parseNumeral z = .ok sh) :
    parseOperandsM c m .rShift [x, y, z] = .ok (.rShift m rd rt sh) :=
  bind_eq_ok.mpr ⟨rd, hx, bind_eq_ok.mpr ⟨rt, hy, bind_eq_ok.mpr ⟨sh, hz, rfl⟩⟩⟩

/-! ## Registers under the default tables -/

theorem regTableM_head? : ∀ q ∈ regTableM, q.1.head? = some '$' := by decide

/-- A register code is written as its name (R75, R120). -/
theorem codeToRegisterName_regTableM : ∀ v < 32, codeToRegisterName regTableM v = .ok (nameM v) := by decide

/-! ## The default `M`: operands, words and texts of layout `R` -/

/-- The word of layout `R`, field by field (R43). -/
theorem pack_layoutR (v : FieldName → Nat) : pack layoutR v =
    v .opcode <<< 26 ||| v .rs <<< 21 ||| v .rt <<< 16 ||| v .rd <<< 11 ||| v .shamt <<< 6 ||| v .funct := by
  simp only [layoutR, pack, Nat.shiftLeft_zero, Nat.or_zero, Nat.or_assoc]

section DefaultM

variable {c : Config} {p : Overflow} (hc : c.m = configM p) {m : Text} {fn : Nat}

include hc

theorem hexDigits_of_configM : c.hexDigits .m = 8 := by
  rw [Config.hexDigits, hc, configM]

/-- The fault of a register token is the error of reading it under the default tables. -/
theorem regFaultM_eq_faultOf (t : Text) : regFaultM t = faultOf (parseRegM c.m t) := by
  rw [hc, parseRegM_eq]
  unfold regFaultM
  by_cases hhead : t.head? = some '$'
  · rw [if_neg (not_not_intro hhead), if_pos hhead]
    by_cases hkey : t ∈ regTableM.keys
    · obtain ⟨v, hv, -⟩ := lookup_ok_of_key (e := .unknownRegister) hkey
      rw [if_pos hkey]
      exact (congrArg faultOf hv).symm
    · rw [if_neg hkey]
      exact (congrArg faultOf (lookup_of_not_mem (e := .unknownRegister) hkey)).symm
  · rw [if_pos hhead, if_neg hhead, faultOf]

/-- A register name reads as its code (R109). -/
theorem parseRegM_of_configM {t : Text} {v : Nat} (h : (t, v) ∈ regTableM) : parseRegM c.m t = .ok v := by
  obtain ⟨⟨-, -, hkeys⟩, -⟩ := configM_wellFormed p
  rw [hc]
  exact parseRegM_of_mem hkeys (regTableM_head? _ h) h

theorem lookupFunction_of_configM (hm : (m, fn) ∈ fnM) : lookupFunction c.m.fn m = .ok fn := by
  obtain ⟨⟨-, hkeys, -⟩, -⟩ := configM_wellFormed p
  rw [hc]
  exact lookup_of_mem hkeys hm

/-- The word of a three-operand instruction; `opcode` and `shamt` are 0 (R46, R54). -/
theorem encode_r3 (hm : (m, fn) ∈ fnM) (rd rs rt : Nat) :
    encode c (.r3 m rd rs rt) = .ok (rs <<< 21 ||| rt <<< 16 ||| rd <<< 11 ||| fn) := by
  refine bind_eq_ok.mpr ⟨fn, lookupFunction_of_configM hc hm, ?_⟩
  rw [hc, configM, pack_layoutR]
  simp only [Nat.zero_shiftLeft, Nat.zero_or, Nat.or_zero]

theorem fit_shamt_of_configM (sh : Int) :
    fit c.m.overflow sh (c.m.layoutR.width .shamt) = fit p sh 5 := by
  rw [hc]
  rfl

/-- The word of a shift whose amount is stored as `n`; `opcode` and `rs` are 0 (R46, R54). -/
theorem encode_rShift (hm : (m, fn) ∈ fnM) {sh : Int} {n : Nat} (hfit : fit p sh 5 = .ok n) (rd rt : Nat) :
    encode c (.rShift m rd rt sh) = .ok (rt <<< 16 ||| rd <<< 11 ||| n <<< 6 ||| fn) := by
  have hfit' := (fit_shamt_of_configM hc sh).trans hfit
  refine bind_eq_ok.mpr ⟨fn, lookupFunction_of_configM hc hm, bind_eq_ok.mpr ⟨n, hfit', ?_⟩⟩
  rw [hc, configM, pack_layoutR]
  simp only [Nat.zero_shiftLeft, Nat.zero_or]

/-- An amount that does not fit is the error of the shift (R91). -/
theorem encode_rShift_error (hm : (m, fn) ∈ fnM) {sh : Int} {e : ErrorKind} (hfit : fit p sh 5 = .error e)
    (rd rt : Nat) : encode c (.rShift m rd rt sh) = .error e := by
  have hfit' := (fit_shamt_of_configM hc sh).trans hfit
  exact bind_eq_error.mpr (.inr ⟨fn, lookupFunction_of_configM hc hm, bind_eq_error.mpr (.inl hfit')⟩)

theorem codeToRegisterName_of_configM {v : Nat} (hv : v < 32) : codeToRegisterName c.m.reg v = .ok (nameM v) := by
  rw [hc]
  exact codeToRegisterName_regTableM v hv

/-- The text of a three-operand instruction (R120). -/
theorem renderText_r3 {rd rs rt : Nat} (hrd : rd < 32) (hrs : rs < 32) (hrt : rt < 32) :
    renderText c (.r3 m rd rs rt) =
      .ok (m ++ [' '] ++ nameM rd ++ [',', ' '] ++ nameM rs ++ [',', ' '] ++ nameM rt) := by
  have hname {v : Nat} (hv : v < 32) := codeToRegisterName_of_configM hc hv
  exact bind_eq_ok.mpr ⟨_, hname hrd, bind_eq_ok.mpr ⟨_, hname hrs, bind_eq_ok.mpr ⟨_, hname hrt, rfl⟩⟩⟩

/-- The text of a shift (R120). -/
theorem renderText_rShift {rd rt : Nat} (hrd : rd < 32) (hrt : rt < 32) (sh : Int) :
    renderText c (.rShift m rd rt sh) =
      .ok (m ++ [' '] ++ nameM rd ++ [',', ' '] ++ nameM rt ++ [',', ' '] ++ renderNumeral sh) := by
  have hname {v : Nat} (hv : v < 32) := codeToRegisterName_of_configM hc hv
  exact bind_eq_ok.mpr ⟨_, hname hrd, bind_eq_ok.mpr ⟨_, hname hrt, rfl⟩⟩

/-- A word with opcode 0 and the function code of a three-operand mnemonic decodes to it (R82, R96). -/
theorem decodeM_r3 {W : Word} (hm : (m, fn) ∈ fnM) (hshift : m ∉ shiftListM) (hop : slice W 31 26 = 0)
    (hfn : slice W 5 0 = fn) :
    decodeM c.m W = .ok (.r3 m (slice W 15 11) (slice W 25 21) (slice W 20 16)) := by
  obtain ⟨-, -, -, hclasses, -⟩ := configM_wellFormed p
  have hclass := classifyDecodeM_function hclasses (m := m) hop hfn hm
  rw [if_neg (show m ∉ (configM p).shiftList from hshift)] at hclass
  rw [hc]
  exact decodeM_of_classify hclass

/-- A word with opcode 0 and the function code of a shift decodes to it; `rs` is not looked at (R54, R82, R96). -/
theorem decodeM_rShift {W : Word} (hm : (m, fn) ∈ fnM) (hshift : m ∈ shiftListM) (hop : slice W 31 26 = 0)
    (hfn : slice W 5 0 = fn) :
    decodeM c.m W = .ok (.rShift m (slice W 15 11) (slice W 20 16) (slice W 10 6)) := by
  obtain ⟨-, -, -, hclasses, -⟩ := configM_wellFormed p
  have hclass := classifyDecodeM_function hclasses (m := m) hop hfn hm
  rw [if_pos (show m ∈ (configM p).shiftList from hshift)] at hclass
  rw [hc]
  exact decodeM_of_classify hclass

end DefaultM

/-! ## The mnemonics of both formats -/

/-- The function codes of the three-operand mnemonics (R130 to R139). -/
abbrev r3Codes : Table :=
  [("add".toList, 0x20), ("addu".toList, 0x21), ("sub".toList, 0x22), ("subu".toList, 0x23),
    ("and".toList, 0x24), ("or".toList, 0x25), ("xor".toList, 0x26), ("nor".toList, 0x27),
    ("slt".toList, 0x2a), ("sltu".toList, 0x2b)]

/-- The function codes of the shift mnemonics (R140 to R142). -/
abbrev rShiftCodes : Table := [("sll".toList, 0x00), ("srl".toList, 0x02), ("sra".toList, 0x03)]

theorem r3Codes_format : ∀ q ∈ r3Codes, q ∈ fnM ∧ q.1 ∉ shiftListM := by decide

theorem rShiftCodes_format : ∀ q ∈ rShiftCodes, q ∈ fnM ∧ q.1 ∈ shiftListM := by decide

/-- Each three-operand instruction with its mnemonic and its function code. -/
abbrev r3Instrs (rd rs rt : Nat) : List (Instr × Text × Nat) :=
  [(.add rd rs rt, "add".toList, 0x20), (.addu rd rs rt, "addu".toList, 0x21),
    (.sub rd rs rt, "sub".toList, 0x22), (.subu rd rs rt, "subu".toList, 0x23),
    (.and rd rs rt, "and".toList, 0x24), (.or rd rs rt, "or".toList, 0x25),
    (.xor rd rs rt, "xor".toList, 0x26), (.nor rd rs rt, "nor".toList, 0x27),
    (.slt rd rs rt, "slt".toList, 0x2a), (.sltu rd rs rt, "sltu".toList, 0x2b)]

/-- Each shift with its mnemonic and its function code. -/
abbrev rShiftInstrs (rd rt : Nat) (sh : Int) : List (Instr × Text × Nat) :=
  [(.sll rd rt sh, "sll".toList, 0x00), (.srl rd rt sh, "srl".toList, 0x02), (.sra rd rt sh, "sra".toList, 0x03)]

theorem r3Instrs_codes (rd rs rt : Nat) : (r3Instrs rd rs rt).map Prod.snd = r3Codes := rfl

theorem rShiftInstrs_codes (rd rt : Nat) (sh : Int) : (rShiftInstrs rd rt sh).map Prod.snd = rShiftCodes := rfl

theorem r3Instrs_toAbstract (rd rs rt : Nat) :
    ∀ x ∈ r3Instrs rd rs rt, x.1.toAbstract = .r3 x.2.1 rd rs rt := by
  simp only [List.forall_mem_cons]
  exact ⟨rfl, rfl, rfl, rfl, rfl, rfl, rfl, rfl, rfl, rfl, List.forall_mem_nil _⟩

theorem rShiftInstrs_toAbstract (rd rt : Nat) (sh : Int) :
    ∀ x ∈ rShiftInstrs rd rt sh, x.1.toAbstract = .rShift x.2.1 rd rt sh := by
  simp only [List.forall_mem_cons]
  exact ⟨rfl, rfl, rfl, List.forall_mem_nil _⟩

/-! ## The statements -/

/-- Settles O35: the count, then the three registers, then the word; and a word of that function code is written with
the names of its three fields. -/
theorem r3Rules : Obligations.R3Rules := by
  unfold Obligations.R3Rules
  intro s rest p m fn hcfg hm
  obtain ⟨hfn, hshift⟩ := r3Codes_format (m, fn) hm
  refine ⟨fun text ops htok hs => ?assemble, fun hex W hhex hs hop hfunct => ?disassemble⟩
  case assemble =>
    have hclass := classifyEncodeM_r3 (configM_wellFormed p) ops (mem_keys hfn) hshift
    rw [← hcfg] at hclass
    refine ⟨fun hlen => answers_assembleM_parse_error hs (parseM_wrong_count htok hclass hlen), ?_⟩
    rintro x y z rfl
    have hparse := parseM_right_count htok hclass rfl
    refine ⟨fun e he => ?fault, fun rd rs rt hx hy hz => ?word⟩
    case fault =>
      simp only [regFaultM_eq_faultOf hcfg] at he
      exact answers_assembleM_parse_error hs (hparse.trans (parseOperandsM_r3_error he))
    case word =>
      have hread := hparse.trans (parseOperandsM_r3 (parseRegM_of_configM hcfg hx)
        (parseRegM_of_configM hcfg hy) (parseRegM_of_configM hcfg hz))
      exact answers_assembleM hs hread (encode_r3 hcfg hfn rd rs rt) (hexDigits_of_configM hcfg)
  case disassemble =>
    have hdecode := decodeM_r3 hcfg hfn hshift hop hfunct
    have htext := renderText_r3 hcfg (m := m) (slice_lt W 15 11) (slice_lt W 25 21) (slice_lt W 20 16)
    exact answers_disassembleM hs (hexDigits_of_configM hcfg) hhex hdecode htext

/-- Settles O36: the count, then the two registers and the numeral, then the fit of the amount; and a word of that
function code is written with the names of two fields and the numeral of the third. -/
theorem rShiftRules : Obligations.RShiftRules := by
  unfold Obligations.RShiftRules
  intro s rest p m fn hcfg hm
  obtain ⟨hfn, hshift⟩ := rShiftCodes_format (m, fn) hm
  refine ⟨fun text ops htok hs => ?assemble, fun hex W hhex hs hop hfunct => ?disassemble⟩
  case assemble =>
    have hclass := classifyEncodeM_rShift (configM_wellFormed p) ops hshift
    rw [← hcfg] at hclass
    refine ⟨fun hlen => answers_assembleM_parse_error hs (parseM_wrong_count htok hclass hlen), ?_⟩
    rintro x y z rfl
    have hparse := parseM_right_count htok hclass rfl
    refine ⟨fun e he => ?fault, fun rd rt v hx hy hz => ?word⟩
    case fault =>
      simp only [regFaultM_eq_faultOf hcfg, numeralFault_eq_faultOf] at he
      exact answers_assembleM_parse_error hs (hparse.trans (parseOperandsM_rShift_error he))
    case word =>
      have hread := hparse.trans (parseOperandsM_rShift (parseRegM_of_configM hcfg hx)
        (parseRegM_of_configM hcfg hy) hz)
      have hdigits := hexDigits_of_configM hcfg
      exact ⟨fun sh hfit => answers_assembleM hs hread (encode_rShift hcfg hfn hfit rd rt) hdigits,
        fun e hfit => answers_assembleM_encode_error hs hread (encode_rShift_error hcfg hfn hfit rd rt)⟩
  case disassemble =>
    have hdecode := decodeM_rShift hcfg hfn hshift hop hfunct
    have htext := renderText_rShift hcfg (m := m) (slice_lt W 15 11) (slice_lt W 20 16) (slice W 10 6)
    exact answers_disassembleM hs (hexDigits_of_configM hcfg) hhex hdecode htext

/-- Settles O49: a three-operand instruction has a word, and a text because its registers have names. -/
theorem r3Completes : Obligations.R3Completes := by
  unfold Obligations.R3Completes
  intro s rest p rd rs rt hcfg hrd hrs hrt x hx
  have habstract := r3Instrs_toAbstract rd rs rt x hx
  obtain ⟨hfn, -⟩ := r3Codes_format x.2 (r3Instrs_codes rd rs rt ▸ List.mem_map_of_mem hx)
  exact ⟨fun isa text hs => exec_assemble hs habstract (encode_r3 hcfg hfn rd rs rt) (hexDigits_of_configM hcfg),
    fun isa hex hs => exec_disassemble hs habstract (renderText_r3 hcfg hrd hrs hrt)⟩

/-- Settles O50: the amount of a shift fits its field, so it is stored as it is under either policy. -/
theorem rShiftCompletes : Obligations.RShiftCompletes := by
  unfold Obligations.RShiftCompletes
  intro s rest p rd rt sh hcfg hrd hrt hsh x hx
  have habstract := rShiftInstrs_toAbstract rd rt sh x hx
  obtain ⟨hfn, -⟩ := rShiftCodes_format x.2 (rShiftInstrs_codes rd rt sh ▸ List.mem_map_of_mem hx)
  have hfit : fit p sh 5 = .ok sh := fit_natCast hsh
  exact ⟨fun isa text hs => exec_assemble hs habstract (encode_rShift hcfg hfn hfit rd rt) (hexDigits_of_configM hcfg),
    fun isa hex hs => exec_disassemble hs habstract (renderText_rShift hcfg hrd hrt sh)⟩

end Sys2Proof.Machine
end

section
/-!
SUPPORT and PROOF for 45_mips_itype.md: the immediate-type instructions of `M` (R150 to R164) under the default tables
of `M`, whatever the configuration of `S`. Both forms have one word, one decoding and one fit of the numeral, which are
said once for every mnemonic with an opcode of its own; they differ in the operands they read and in the text they are
written as.
-/

namespace Sys2Proof.Machine

/-! ## Operands of the arithmetic form -/

/-- The operands of the arithmetic form, up to the first fault. -/
theorem parseOperandsM_immediate_error {c : ConfigM} {m x y z : Text} {e : ErrorKind}
    (h : firstFault [faultOf (parseRegM c x), faultOf (parseRegM c y), faultOf (parseNumeral z)] = some e) :
    parseOperandsM c m .iType [x, y, z] = .error e :=
  bind_eq_error_of_firstFault h fun _ h => bind_eq_error_of_firstFault h fun _ h =>
    bind_eq_error_of_firstFault h fun _ h => absurd h firstFault_nil_ne_some

theorem parseOperandsM_immediate {c : ConfigM} {m x y z : Text} {rt rs : Nat} {v : Int}
    (hx : parseRegM c x = .ok rt) (hy : parseRegM c y = .ok rs) (hz : parseNumeral z = .ok v) :
    parseOperandsM c m .iType [x, y, z] = .ok (.iType m rt rs v) :=
  bind_eq_ok.mpr ⟨rt, hx, bind_eq_ok.mpr ⟨rs, hy, bind_eq_ok.mpr ⟨v, hz, rfl⟩⟩⟩

/-! ## Operands of the memory form (R110) -/

/-- With its parentheses a memory operand reads as the numeral before them, then as the register inside. -/
theorem parseMemM_parenthesised {c : ConfigM} {off inner : Text} (hoff : '(' ∉ off) :
    parseMemM c (off ++ '(' :: (inner ++ [')'])) =
      (parseNumeral off).bind fun v => (parseRegM c inner).bind fun rs => .ok (v, rs) := by
  have hform := parseMemM_form (c := c) (reg := inner) fun ch hch => ne_of_mem_of_not_mem hch hoff
  rwa [List.append_assoc, List.append_assoc, List.singleton_append] at hform

/-- A memory operand with its parentheses, up to the first fault. -/
theorem parseMemM_error {c : ConfigM} {off inner : Text} {e : ErrorKind} (hoff : '(' ∉ off)
    (h : firstFault [faultOf (parseNumeral off), faultOf (parseRegM c inner)] = some e) :
    parseMemM c (off ++ '(' :: (inner ++ [')'])) = .error e :=
  (parseMemM_parenthesised hoff).trans (bind_eq_error_of_firstFault h fun _ h =>
    bind_eq_error_of_firstFault h fun _ h => absurd h firstFault_nil_ne_some)

/-- The operands of the memory form, up to the first fault, `faults` being those the memory operand can have. -/
theorem parseOperandsM_memory_error {c : ConfigM} {m x y : Text} {faults : List (Option ErrorKind)} {e : ErrorKind}
    (h : firstFault (faultOf (parseRegM c x) :: faults) = some e)
    (hy : firstFault faults = some e → parseMemM c y = .error e) :
    parseOperandsM c m .iType [x, y] = .error e :=
  bind_eq_error_of_firstFault h fun _ h => bind_eq_error.mpr (.inl (hy h))

theorem parseOperandsM_memory {c : ConfigM} {m x off inner : Text} {rt rs : Nat} {v : Int} (hoff : '(' ∉ off)
    (hx : parseRegM c x = .ok rt) (hnum : parseNumeral off = .ok v) (hreg : parseRegM c inner = .ok rs) :
    parseOperandsM c m .iType [x, off ++ '(' :: (inner ++ [')'])] = .ok (.iType m rt rs v) := by
  have hy := (parseMemM_parenthesised (c := c) (inner := inner) hoff).trans
    (bind_eq_ok.mpr ⟨v, hnum, bind_eq_ok.mpr ⟨rs, hreg, rfl⟩⟩)
  exact bind_eq_ok.mpr ⟨rt, hx, bind_eq_ok.mpr ⟨(v, rs), hy, rfl⟩⟩

/-! ## The default `M`: words and texts of layout `I` -/

/-- The word of layout `I`, field by field (R44). -/
theorem pack_layoutI (v : FieldName → Nat) :
    pack layoutI v = v .opcode <<< 26 ||| v .rs <<< 21 ||| v .rt <<< 16 ||| v .imm := by
  simp only [layoutI, pack, Nat.shiftLeft_zero, Nat.or_zero, Nat.or_assoc]

section DefaultM

variable {c : Config} {p : Overflow} (hc : c.m = configM p) {m : Text} {op : Nat}

include hc

theorem lookupOpcode_of_configM (hm : (m, op) ∈ opcM) : lookupOpcode c.m.opc m = .ok op := by
  obtain ⟨⟨hkeys, -⟩, -⟩ := configM_wellFormed p
  rw [hc]
  exact lookup_of_mem hkeys hm

theorem fit_imm_of_configM (v : Int) : fit c.m.overflow v (c.m.layoutI.width .imm) = fit p v 16 := by
  rw [hc]
  rfl

/-- The word of an immediate-type instruction whose numeral is stored as `n` (R95). -/
theorem encode_iType (hm : (m, op) ∈ opcM) {v : Int} {n : Nat} (hfit : fit p v 16 = .ok n) (rt rs : Nat) :
    encode c (.iType m rt rs v) = .ok (op <<< 26 ||| rs <<< 21 ||| rt <<< 16 ||| n) := by
  have hfit' := (fit_imm_of_configM hc v).trans hfit
  refine bind_eq_ok.mpr ⟨op, lookupOpcode_of_configM hc hm, bind_eq_ok.mpr ⟨n, hfit', ?_⟩⟩
  rw [hc, configM, pack_layoutI]

/-- A numeral that does not fit is the error of the instruction (R91). -/
theorem encode_iType_error (hm : (m, op) ∈ opcM) {v : Int} {e : ErrorKind} (hfit : fit p v 16 = .error e)
    (rt rs : Nat) : encode c (.iType m rt rs v) = .error e := by
  have hfit' := (fit_imm_of_configM hc v).trans hfit
  exact bind_eq_error.mpr (.inr ⟨op, lookupOpcode_of_configM hc hm, bind_eq_error.mpr (.inl hfit')⟩)

/-- The text of the arithmetic form (R120). -/
theorem renderText_immediate (hmem : m ∉ memListM) {rt rs : Nat} (hrt : rt < 32) (hrs : rs < 32) (v : Int) :
    renderText c (.iType m rt rs v) =
      .ok (m ++ [' '] ++ nameM rt ++ [',', ' '] ++ nameM rs ++ [',', ' '] ++ renderNumeral v) := by
  have hname {r : Nat} (hr : r < 32) := codeToRegisterName_of_configM hc hr
  have hmem' : m ∉ c.m.memList := by rwa [hc]
  exact bind_eq_ok.mpr ⟨_, hname hrt, bind_eq_ok.mpr ⟨_, hname hrs, if_neg hmem'⟩⟩

/-- The text of the memory form (R120). -/
theorem renderText_memory (hmem : m ∈ memListM) {rt rs : Nat} (hrt : rt < 32) (hrs : rs < 32) (v : Int) :
    renderText c (.iType m rt rs v) =
      .ok (m ++ [' '] ++ nameM rt ++ [',', ' '] ++ renderNumeral v ++ ['('] ++ nameM rs ++ [')']) := by
  have hname {r : Nat} (hr : r < 32) := codeToRegisterName_of_configM hc hr
  have hmem' : m ∈ c.m.memList := by rwa [hc]
  exact bind_eq_ok.mpr ⟨_, hname hrt, bind_eq_ok.mpr ⟨_, hname hrs, if_pos hmem'⟩⟩

/-- A word with the opcode of an immediate-type mnemonic decodes to it (R82, R96). -/
theorem decodeM_iType {W : Word} (hm : (m, op) ∈ opcM) (h0 : op ≠ 0) (hjump : op ∉ jumpCodesM)
    (hop : slice W 31 26 = op) :
    decodeM c.m W = .ok (.iType m (slice W 20 16) (slice W 25 21) (slice W 15 0)) := by
  obtain ⟨-, -, -, hclasses, -⟩ := configM_wellFormed p
  have hclass := classifyDecodeM_opcode hclasses (m := m) hop h0 hm
  rw [if_neg (show op ∉ (configM p).jumpCodes from hjump)] at hclass
  rw [hc]
  exact decodeM_of_classify hclass

end DefaultM

/-- The end of a text that reads as an immediate-type instruction: its word, or the error of the fit (R91, R95). -/
theorem answers_assembleM_iType {s : State} {rest : List Request} {p : Overflow} {text m : Text} {op rt rs : Nat}
    {v : Int} (hcfg : s.cfg.m = configM p) (hs : s.requests = .assemble .m text :: rest) (hm : (m, op) ∈ opcM)
    (hread : parseM s.cfg.m text = .ok (.iType m rt rs v)) :
    (∀ imm, fit p v 16 = .ok imm → Answers s (.assemble .m text) rest
      (.ok (renderHex 8 (op <<< 26 ||| rs <<< 21 ||| rt <<< 16 ||| imm)))) ∧
    (∀ e, fit p v 16 = .error e → Answers s (.assemble .m text) rest (.err e)) :=
  ⟨fun _ hfit => answers_assembleM hs hread (encode_iType hcfg hm hfit rt rs) (hexDigits_of_configM hcfg),
    fun _ hfit => answers_assembleM_encode_error hs hread (encode_iType_error hcfg hm hfit rt rs)⟩

/-! ## The mnemonics of both forms -/

/-- The opcodes of the arithmetic form (R150 to R156). -/
abbrev immediateCodes : Table :=
  [("addi".toList, 0x08), ("addiu".toList, 0x09), ("slti".toList, 0x0a), ("sltiu".toList, 0x0b),
    ("andi".toList, 0x0c), ("ori".toList, 0x0d), ("xori".toList, 0x0e)]

/-- The opcodes of the memory form (R157 to R164). -/
abbrev memoryCodes : Table :=
  [("lb".toList, 0x20), ("lh".toList, 0x21), ("lw".toList, 0x23), ("lbu".toList, 0x24),
    ("lhu".toList, 0x25), ("sb".toList, 0x28), ("sh".toList, 0x29), ("sw".toList, 0x2b)]

theorem immediateCodes_format :
    ∀ q ∈ immediateCodes, q ∈ opcM ∧ q.2 ≠ 0 ∧ q.2 ∉ jumpCodesM ∧ q.1 ∉ memListM := by decide

theorem memoryCodes_format :
    ∀ q ∈ memoryCodes, q ∈ opcM ∧ q.2 ≠ 0 ∧ q.2 ∉ jumpCodesM ∧ q.1 ∈ memListM := by decide

/-- Each instruction of the arithmetic form with its mnemonic and its opcode. -/
abbrev immediateInstrs (rt rs : Nat) (imm : Int) : List (Instr × Text × Nat) :=
  [(.addi rt rs imm, "addi".toList, 0x08), (.addiu rt rs imm, "addiu".toList, 0x09),
    (.slti rt rs imm, "slti".toList, 0x0a), (.sltiu rt rs imm, "sltiu".toList, 0x0b),
    (.andi rt rs imm, "andi".toList, 0x0c), (.ori rt rs imm, "ori".toList, 0x0d),
    (.xori rt rs imm, "xori".toList, 0x0e)]

/-- Each instruction of the memory form with its mnemonic and its opcode. -/
abbrev memoryInstrs (rt rs : Nat) (imm : Int) : List (Instr × Text × Nat) :=
  [(.lb rt rs imm, "lb".toList, 0x20), (.lh rt rs imm, "lh".toList, 0x21), (.lw rt rs imm, "lw".toList, 0x23),
    (.lbu rt rs imm, "lbu".toList, 0x24), (.lhu rt rs imm, "lhu".toList, 0x25), (.sb rt rs imm, "sb".toList, 0x28),
    (.sh rt rs imm, "sh".toList, 0x29), (.sw rt rs imm, "sw".toList, 0x2b)]

theorem immediateInstrs_codes (rt rs : Nat) (imm : Int) :
    (immediateInstrs rt rs imm).map Prod.snd = immediateCodes := rfl

theorem memoryInstrs_codes (rt rs : Nat) (imm : Int) : (memoryInstrs rt rs imm).map Prod.snd = memoryCodes := rfl

theorem immediateInstrs_toAbstract (rt rs : Nat) (imm : Int) :
    ∀ x ∈ immediateInstrs rt rs imm, x.1.toAbstract = .iType x.2.1 rt rs imm := by
  simp only [List.forall_mem_cons]
  exact ⟨rfl, rfl, rfl, rfl, rfl, rfl, rfl, List.forall_mem_nil _⟩

theorem memoryInstrs_toAbstract (rt rs : Nat) (imm : Int) :
    ∀ x ∈ memoryInstrs rt rs imm, x.1.toAbstract = .iType x.2.1 rt rs imm := by
  simp only [List.forall_mem_cons]
  exact ⟨rfl, rfl, rfl, rfl, rfl, rfl, rfl, rfl, List.forall_mem_nil _⟩

/-! ## The statements -/

/-- Settles O37: the count, then the two registers and the numeral, then the fit of the immediate; and a word of that
opcode is written with the names of two fields and the numeral of the third. -/
theorem iTypeArithmeticRules : Obligations.ITypeArithmeticRules := by
  unfold Obligations.ITypeArithmeticRules
  intro s rest p m op hcfg hm
  obtain ⟨hopc, h0, hjump, hmem⟩ := immediateCodes_format (m, op) hm
  refine ⟨fun text ops htok hs => ?assemble, fun hex W hhex hs hop => ?disassemble⟩
  case assemble =>
    have hclass := classifyEncodeM_immediate (configM_wellFormed p) ops ⟨(m, op), hopc, rfl, h0, hjump⟩ hmem
    rw [← hcfg] at hclass
    refine ⟨fun hlen => answers_assembleM_parse_error hs (parseM_wrong_count htok hclass hlen), ?_⟩
    rintro x y z rfl
    have hparse := parseM_right_count htok hclass rfl
    refine ⟨fun e he => ?fault, fun rt rs v hx hy hz => ?word⟩
    case fault =>
      simp only [regFaultM_eq_faultOf hcfg, numeralFault_eq_faultOf] at he
      exact answers_assembleM_parse_error hs (hparse.trans (parseOperandsM_immediate_error he))
    case word =>
      have hread := hparse.trans (parseOperandsM_immediate (parseRegM_of_configM hcfg hx)
        (parseRegM_of_configM hcfg hy) hz)
      exact answers_assembleM_iType hcfg hs hopc hread
  case disassemble =>
    have hdecode := decodeM_iType hcfg hopc h0 hjump hop
    have htext := renderText_immediate hcfg hmem (slice_lt W 20 16) (slice_lt W 25 21) (slice W 15 0)
    exact answers_disassembleM hs (hexDigits_of_configM hcfg) hhex hdecode htext

/-- Settles O38: the count, then the first register, then the memory operand by its parentheses, its offset and its
register, then the fit of the offset; and a word of that opcode is written with the names of two fields and the numeral
of the third. -/
theorem iTypeMemoryRules : Obligations.ITypeMemoryRules := by
  unfold Obligations.ITypeMemoryRules
  intro s rest p m op hcfg hm
  obtain ⟨hopc, h0, hjump, hmem⟩ := memoryCodes_format (m, op) hm
  refine ⟨fun text ops htok hs => ?assemble, fun hex W hhex hs hop => ?disassemble⟩
  case assemble =>
    have hclass := classifyEncodeM_memory (configM_wellFormed p) ops hmem
    rw [← hcfg] at hclass
    refine ⟨fun hlen => answers_assembleM_parse_error hs (parseM_wrong_count htok hclass hlen), ?_⟩
    rintro x y rfl
    have hparse := parseM_right_count htok hclass rfl
    have hfault {faults e} (h : firstFault (regFaultM x :: faults) = some e)
        (hy : firstFault faults = some e → parseMemM s.cfg.m y = .error e) :
        Answers s (.assemble .m text) rest (.err e) := by
      rw [regFaultM_eq_faultOf hcfg] at h
      exact answers_assembleM_parse_error hs (hparse.trans (parseOperandsM_memory_error h hy))
    refine ⟨fun e hx => ?register, fun hx hparens => ?parentheses, fun off inner hsplit hoff =>
      ⟨fun e he => ?inOrder, fun rt rs v hx hinner hnum => ?word⟩⟩
    case register =>
      exact hfault (faults := []) (congrArg (firstFault [·]) hx) (absurd · firstFault_nil_ne_some)
    case parentheses =>
      exact hfault (faults := [some .invalidOperandSyntax]) (congrArg (firstFault [·, _]) hx)
        fun _ => parseMemM_of_not_parenthesised hparens
    case inOrder =>
      refine hfault he fun he => hsplit ▸ parseMemM_error hoff ?_
      simpa only [regFaultM_eq_faultOf hcfg, numeralFault_eq_faultOf] using he
    case word =>
      subst hsplit
      have hread := hparse.trans (parseOperandsM_memory hoff (parseRegM_of_configM hcfg hx) hnum
        (parseRegM_of_configM hcfg hinner))
      exact answers_assembleM_iType hcfg hs hopc hread
  case disassemble =>
    have hdecode := decodeM_iType hcfg hopc h0 hjump hop
    have htext := renderText_memory hcfg hmem (slice_lt W 20 16) (slice_lt W 25 21) (slice W 15 0)
    exact answers_disassembleM hs (hexDigits_of_configM hcfg) hhex hdecode htext

/-- Settles O51: the immediate fits its field, so it is stored as it is under either policy. -/
theorem iTypeArithmeticCompletes : Obligations.ITypeArithmeticCompletes := by
  unfold Obligations.ITypeArithmeticCompletes
  intro s rest p rt rs imm hcfg hrt hrs himm x hx
  have habstract := immediateInstrs_toAbstract rt rs imm x hx
  obtain ⟨hopc, -, -, hmem⟩ := immediateCodes_format x.2 (immediateInstrs_codes rt rs imm ▸ List.mem_map_of_mem hx)
  have hword := encode_iType hcfg hopc (fit_natCast himm) rt rs
  exact ⟨fun isa text hs => exec_assemble hs habstract hword (hexDigits_of_configM hcfg),
    fun isa hex hs => exec_disassemble hs habstract (renderText_immediate hcfg hmem hrt hrs imm)⟩

/-- Settles O52: the offset fits its field, so it is stored as it is under either policy. -/
theorem iTypeMemoryCompletes : Obligations.ITypeMemoryCompletes := by
  unfold Obligations.ITypeMemoryCompletes
  intro s rest p rt rs imm hcfg hrt hrs himm x hx
  have habstract := memoryInstrs_toAbstract rt rs imm x hx
  obtain ⟨hopc, -, -, hmem⟩ := memoryCodes_format x.2 (memoryInstrs_codes rt rs imm ▸ List.mem_map_of_mem hx)
  have hword := encode_iType hcfg hopc (fit_natCast himm) rt rs
  exact ⟨fun isa text hs => exec_assemble hs habstract hword (hexDigits_of_configM hcfg),
    fun isa hex hs => exec_disassemble hs habstract (renderText_memory hcfg hmem hrt hrs imm)⟩

end Sys2Proof.Machine
end

section
/-!
SUPPORT and PROOF for 46_mips_jtype.md: the two jumps of `M` (R170, R171) under the default tables of `M`, whatever the
configuration of `S`. They have one operand and no register, so each stage is the numeral's alone: its fault, its fit to
26 bits, and the text that writes it.
-/

namespace Sys2Proof.Machine

/-! ## The operand of a jump -/

theorem faultOf_eq_some_iff {α : Type} {x : Except ErrorKind α} {e : ErrorKind} :
    faultOf x = some e ↔ x = .error e := by
  cases x with
  | error e' => rw [faultOf, Option.some_inj, Except.error.injEq]
  | ok a => exact ⟨nofun, nofun⟩

theorem parseOperandsM_jType {c : ConfigM} {m x : Text} :
    parseOperandsM c m .jType [x] = (parseNumeral x).bind fun tg => .ok (.jType m tg) := rfl

/-! ## The default `M`: words and texts of layout `J` -/

/-- The word of layout `J`, field by field (R45). -/
theorem pack_layoutJ (v : FieldName → Nat) : pack layoutJ v = v .opcode <<< 26 ||| v .target := by
  simp only [layoutJ, pack, Nat.shiftLeft_zero, Nat.or_zero]

/-- The text of a jump is its mnemonic and the numeral of its target, under any configuration (R120). -/
theorem renderText_jType (c : Config) (m : Text) (tg : Int) :
    renderText c (.jType m tg) = .ok (m ++ [' '] ++ renderNumeral tg) := rfl

section DefaultM

variable {c : Config} {p : Overflow} (hc : c.m = configM p) {m : Text} {op : Nat}

include hc

theorem fit_target_of_configM (v : Int) : fit c.m.overflow v (c.m.layoutJ.width .target) = fit p v 26 := by
  rw [hc]
  rfl

/-- The word of a jump whose target is stored as `n` (R95). -/
theorem encode_jType (hm : (m, op) ∈ opcM) {v : Int} {n : Nat} (hfit : fit p v 26 = .ok n) :
    encode c (.jType m v) = .ok (op <<< 26 ||| n) := by
  have hfit' := (fit_target_of_configM hc v).trans hfit
  refine bind_eq_ok.mpr ⟨op, lookupOpcode_of_configM hc hm, bind_eq_ok.mpr ⟨n, hfit', ?_⟩⟩
  rw [hc, configM, pack_layoutJ]

/-- A target that does not fit is the error of the jump (R91). -/
theorem encode_jType_error (hm : (m, op) ∈ opcM) {v : Int} {e : ErrorKind} (hfit : fit p v 26 = .error e) :
    encode c (.jType m v) = .error e := by
  have hfit' := (fit_target_of_configM hc v).trans hfit
  exact bind_eq_error.mpr (.inr ⟨op, lookupOpcode_of_configM hc hm, bind_eq_error.mpr (.inl hfit')⟩)

/-- A word with the opcode of a jump decodes to it (R82, R96). -/
theorem decodeM_jType {W : Word} (hm : (m, op) ∈ opcM) (h0 : op ≠ 0) (hjump : op ∈ jumpCodesM)
    (hop : slice W 31 26 = op) : decodeM c.m W = .ok (.jType m (slice W 25 0)) := by
  obtain ⟨-, -, -, hclasses, -⟩ := configM_wellFormed p
  have hclass := classifyDecodeM_opcode hclasses (m := m) hop h0 hm
  rw [if_pos (show op ∈ (configM p).jumpCodes from hjump)] at hclass
  rw [hc]
  exact decodeM_of_classify hclass

end DefaultM

/-! ## The mnemonics of the format -/

/-- The opcodes of the jump mnemonics (R170, R171). -/
abbrev jTypeCodes : Table := [("j".toList, 0x02), ("jal".toList, 0x03)]

theorem jTypeCodes_format : ∀ q ∈ jTypeCodes, q ∈ opcM ∧ q.2 ≠ 0 ∧ q.2 ∈ jumpCodesM := by decide

/-- Each jump with its mnemonic and its opcode. -/
abbrev jTypeInstrs (tg : Int) : List (Instr × Text × Nat) :=
  [(.j tg, "j".toList, 0x02), (.jal tg, "jal".toList, 0x03)]

theorem jTypeInstrs_codes (tg : Int) : (jTypeInstrs tg).map Prod.snd = jTypeCodes := rfl

theorem jTypeInstrs_toAbstract (tg : Int) : ∀ x ∈ jTypeInstrs tg, x.1.toAbstract = .jType x.2.1 tg := by
  simp only [List.forall_mem_cons]
  exact ⟨rfl, rfl, List.forall_mem_nil _⟩

/-! ## The statements -/

/-- Settles O39: the count, then the numeral, then the fit of the target; and a word of that opcode is written with the
numeral of its target. -/
theorem jTypeRules : Obligations.JTypeRules := by
  unfold Obligations.JTypeRules
  intro s rest p m op hcfg hm
  obtain ⟨hopc, h0, hjump⟩ := jTypeCodes_format (m, op) hm
  have hdigits := hexDigits_of_configM hcfg
  refine ⟨fun text ops htok hs => ?assemble, fun hex W hhex hs hop => ?disassemble⟩
  case assemble =>
    have hclass := classifyEncodeM_jType (configM_wellFormed p) ops ⟨(m, op), hopc, rfl, hjump⟩
    rw [← hcfg] at hclass
    refine ⟨fun hlen => answers_assembleM_parse_error hs (parseM_wrong_count htok hclass hlen), ?_⟩
    rintro x rfl
    have hparse := (parseM_right_count htok hclass rfl).trans parseOperandsM_jType
    refine ⟨fun e he => ?fault, fun v hx => ?word⟩
    case fault =>
      rw [numeralFault_eq_faultOf, faultOf_eq_some_iff] at he
      exact answers_assembleM_parse_error hs (hparse.trans (bind_eq_error.mpr (.inl he)))
    case word =>
      have hread := hparse.trans (bind_eq_ok.mpr ⟨v, hx, rfl⟩)
      exact ⟨fun tg hfit => answers_assembleM hs hread (encode_jType hcfg hopc hfit) hdigits,
        fun e hfit => answers_assembleM_encode_error hs hread (encode_jType_error hcfg hopc hfit)⟩
  case disassemble =>
    exact answers_disassembleM hs hdigits hhex (decodeM_jType hcfg hopc h0 hjump hop) (renderText_jType _ m _)

/-- Settles O53: the target fits its field, so it is stored as it is under either policy. -/
theorem jTypeCompletes : Obligations.JTypeCompletes := by
  unfold Obligations.JTypeCompletes
  intro s rest p tg hcfg htg x hx
  have habstract := jTypeInstrs_toAbstract tg x hx
  obtain ⟨hopc, -⟩ := jTypeCodes_format x.2 (jTypeInstrs_codes tg ▸ List.mem_map_of_mem hx)
  have hword := encode_jType hcfg hopc (fit_natCast htg)
  exact ⟨fun isa text hs => exec_assemble hs habstract hword (hexDigits_of_configM hcfg),
    fun isa hex hs => exec_disassemble hs habstract (renderText_jType _ x.2.1 tg)⟩

end Sys2Proof.Machine
end

section
/-!
SUPPORT and PROOF for 47_simple_isa.md: the instructions of `S` (R175 to R179) under the default tables of `S`, whatever
the configuration of `M`. A request is a sequence of two stages either way, and a step answers what the sequence comes
to (`answers_assembleS`, `answers_disassembleS`). Each stage is said once: the classification of a text by the class of
its mnemonic, the operands up to the first fault, the word, the decoding of a word and its text.
-/

namespace Sys2Proof.Machine

/-! ## The stages of a request to `S` -/

/-- A request to assemble a text of `S` ends with the word, or the first error, of reading and encoding it. -/
theorem answers_assembleS {s : State} {rest : List Request} {text : Text} {digits : Nat} {res : Except ErrorKind Word}
    (hs : s.requests = .assemble .s text :: rest) (hdigits : s.cfg.hexDigits .s = digits)
    (hres : (parseS s.cfg.s text >>= encode s.cfg) = res) :
    Answers s (.assemble .s text) rest (responseOf (res.map (renderHex digits))) := by
  subst hdigits hres
  refine answers_of_respond hs ?_
  rw [respond_eq_bind]
  change responseOf (parseS s.cfg.s text >>= fun a => outputOf s.cfg a (.assemble .s text)) = _
  cases hp : parseS s.cfg.s text with
  | error e => rfl
  | ok a =>
    obtain ⟨hisa, -⟩ := parseS_formatMatches hp
    change responseOf (encode s.cfg a >>= fun W => .ok (renderHex (s.cfg.hexDigits a.isa) W)) =
      responseOf ((encode s.cfg a).map (renderHex (s.cfg.hexDigits .s)))
    rw [hisa]
    cases encode s.cfg a <;> rfl

/-- A text of `S` that does not read as an instruction is answered with its error. -/
theorem answers_assembleS_parse_error {s : State} {rest : List Request} {text : Text} {e : ErrorKind}
    (hs : s.requests = .assemble .s text :: rest) (h : parseS s.cfg.s text = .error e) :
    Answers s (.assemble .s text) rest (.err e) :=
  answers_assembleS hs rfl (bind_eq_error.mpr (.inl h))

/-- A text of `S` that reads as `a` is answered with the word of `a`, or with the error of encoding it. -/
theorem answers_assembleS_of_parse {s : State} {rest : List Request} {text : Text} {digits : Nat} {a : AbstractInstr}
    {res : Except ErrorKind Word} (hs : s.requests = .assemble .s text :: rest) (hdigits : s.cfg.hexDigits .s = digits)
    (hread : parseS s.cfg.s text = .ok a) (hres : encode s.cfg a = res) :
    Answers s (.assemble .s text) rest (responseOf (res.map (renderHex digits))) :=
  answers_assembleS hs hdigits ((congrArg (· >>= encode s.cfg) hread).trans hres)

/-- Where the word depends on a numeral, its fit decides between the word and the error (R91). -/
theorem answers_assembleS_of_fit {s : State} {rest : List Request} {text : Text} {digits w : Nat} {a : AbstractInstr}
    {p : Overflow} {v : Int} {word : Nat → Word} (hs : s.requests = .assemble .s text :: rest)
    (hdigits : s.cfg.hexDigits .s = digits) (hread : parseS s.cfg.s text = .ok a)
    (hword : encode s.cfg a = (fit p v w).map word) :
    (∀ n, fit p v w = .ok n → Answers s (.assemble .s text) rest (.ok (renderHex digits (word n)))) ∧
    (∀ e, fit p v w = .error e → Answers s (.assemble .s text) rest (.err e)) := by
  have hanswer := answers_assembleS_of_parse hs hdigits hread hword
  constructor
  · intro n hfit
    rwa [hfit] at hanswer
  · intro e hfit
    rwa [hfit] at hanswer

/-- A request to disassemble a word of `S` ends with the text, or the first error, of decoding and writing it. -/
theorem answers_disassembleS {s : State} {rest : List Request} {hex : Text} {digits : Nat} {W : Word}
    {res : Except ErrorKind Text} (hs : s.requests = .disassemble .s hex :: rest)
    (hdigits : s.cfg.hexDigits .s = digits) (hhex : parseHex digits hex = .ok W)
    (hres : (decodeS s.cfg.s W >>= renderText s.cfg) = res) :
    Answers s (.disassemble .s hex) rest (responseOf res) := by
  subst hdigits hres
  refine answers_of_respond hs ((disassemble_eq s.cfg .s hex).trans ?_)
  rw [hhex]
  rfl

/-! ## The classification of a text of `S` (R81) -/

theorem parseS_of_tokens {c : ConfigS} {text m : Text} {ops : List Text} (htok : tokenize text = m :: ops) :
    parseS c text = classifyEncodeS c m ops >>= fun f => parseOperandsS c m f ops := by
  simp only [parseS, htok]

/-- The halt mnemonic takes no operand. -/
theorem classifyEncodeS_of_halt {c : ConfigS} {m : Text} (h : lookupOpcode c.opc m = .ok c.haltOpcode)
    (ops : List Text) :
    classifyEncodeS c m ops = if ops.length = 0 then .ok .noOperand else .error .malformedInstruction := by
  simp only [classifyEncodeS, h, bind, Except.bind, if_true]

/-- A jump mnemonic takes one operand. -/
theorem classifyEncodeS_of_jump {c : ConfigS} {m : Text} {op : Nat} (h : lookupOpcode c.opc m = .ok op)
    (hhalt : op ≠ c.haltOpcode) (hjump : op ∈ c.jumpCodes) (ops : List Text) :
    classifyEncodeS c m ops = if ops.length = 1 then .ok .singleTarget else .error .malformedInstruction := by
  simp only [classifyEncodeS, h, bind, Except.bind, hhalt, hjump, if_true, if_false]

/-- Any other mnemonic takes two operands. -/
theorem classifyEncodeS_wrong_count {c : ConfigS} {m : Text} {ops : List Text} (h : TwoOperandS c m)
    (hlen : ops.length ≠ 2) : classifyEncodeS c m ops = .error .malformedInstruction := by
  obtain ⟨op, hop, hhalt, hjump⟩ := h
  simp only [classifyEncodeS, hop, bind, Except.bind, hhalt, hjump, if_false]
  split
  · exact absurd rfl hlen
  · rfl

theorem shape_eq_none {t : Text} (h : t.head? ∉ [some 'R', some '#', some '[']) : shape t = .none := by
  unfold shape
  split
  case h_4 => rfl
  all_goals exact absurd (by simp) h

/-- A pair of shapes whose second is no register, or whose first is none, has no format. -/
theorem shapesFormat_error {a b : Shape} (h : b ≠ .register ∨ a = .none) :
    shapesFormat a b = .error .invalidOperandSyntax := by
  unfold shapesFormat
  split
  case h_4 => rfl
  all_goals simp at h

/-- A text with two operands whose shapes have a format reads as its operands do. -/
theorem parseS_of_shapes {c : ConfigS} {text m x y : Text} {f : FormatS} (htok : tokenize text = [m, x, y])
    (hm : TwoOperandS c m) (hf : shapesFormat (shape x) (shape y) = .ok f) :
    parseS c text = parseOperandsS c m f [x, y] := by
  rw [parseS_of_tokens htok, classifyEncodeS_two hm, hf]
  rfl

/-! ## Two operands, up to the first fault (R197) -/

theorem bind_bind_eq_error_of_firstFault {α β γ : Type} {x : Except ErrorKind α} {y : Except ErrorKind β}
    {f : α → β → Except ErrorKind γ} {e : ErrorKind} (h : firstFault [faultOf x, faultOf y] = some e) :
    (x >>= fun a => y >>= fun b => f a b) = .error e :=
  bind_eq_error_of_firstFault h fun _ h => bind_eq_error_of_firstFault h fun _ h => absurd h firstFault_nil_ne_some

theorem bind_bind_eq_ok {α β γ : Type} {x : Except ErrorKind α} {y : Except ErrorKind β}
    {f : α → β → Except ErrorKind γ} {a : α} {b : β} (hx : x = .ok a) (hy : y = .ok b) :
    (x >>= fun a => y >>= fun b => f a b) = f a b := by
  rw [hx, hy]
  rfl

/-! ## The default `S`: operands, words and texts -/

theorem regTableS_head? : ∀ q ∈ regTableS, q.1.head? = some 'R' := by decide

/-- A register code is written as its name (R75, R120). -/
theorem codeToRegisterName_regTableS : ∀ v < 8, codeToRegisterName regTableS v = .ok (nameS v) := by decide

/-- The word of layout `SW`, field by field (R47). -/
theorem pack_layoutSW (v : FieldName → Nat) : pack layoutSW v =
    v .pad <<< 18 ||| v .mode <<< 16 ||| v .dst <<< 12 ||| v .opcode <<< 8 ||| v .operand := by
  simp only [layoutSW, pack, Nat.shiftLeft_zero, Nat.or_zero, Nat.or_assoc]

section DefaultS

variable {c : Config} {p : Overflow} (hc : c.s = configS p) {m : Text} {op : Nat}

include hc

theorem hexDigits_of_configS : c.hexDigits .s = 8 := by
  rw [Config.hexDigits, hc, configS]

theorem lookupOpcode_of_configS (hm : (m, op) ∈ opcS) : lookupOpcode c.s.opc m = .ok op := by
  obtain ⟨⟨hkeys, -⟩, -⟩ := configS_wellFormed p
  rw [hc]
  exact lookup_of_mem hkeys hm

/-- A register name reads as its code (R112). -/
theorem parseRegS_of_configS {t : Text} {v : Nat} (h : (t, v) ∈ regTableS) : parseRegS c.s t = .ok v := by
  obtain ⟨⟨-, -, hkeys, -⟩, -⟩ := configS_wellFormed p
  rw [hc]
  exact parseRegS_of_mem hkeys (regTableS_head? _ h) h

/-- The fault of a register token is the error of reading it under the default tables. -/
theorem regFaultS_eq_faultOf (t : Text) : regFaultS t = faultOf (parseRegS c.s t) := by
  rw [hc, parseRegS_eq]
  unfold regFaultS
  by_cases hhead : t.head? = some 'R'
  · rw [if_neg (not_not_intro hhead), if_pos hhead]
    by_cases hkey : t ∈ regTableS.keys
    · obtain ⟨v, hv, -⟩ := lookup_ok_of_key (e := .unknownRegister) hkey
      rw [if_pos hkey]
      exact (congrArg faultOf hv).symm
    · rw [if_neg hkey]
      exact (congrArg faultOf (lookup_of_not_mem (e := .unknownRegister) hkey)).symm
  · rw [if_pos hhead, if_neg hhead, faultOf]

theorem codeToRegisterName_of_configS {v : Nat} (hv : v < 8) : codeToRegisterName c.s.reg v = .ok (nameS v) := by
  rw [hc]
  exact codeToRegisterName_regTableS v hv

theorem fit_operand_of_configS (v : Int) : fit c.s.overflow v (c.s.layoutSW.width .operand) = fit p v 8 := by
  rw [hc]
  rfl

/-- The word of an instruction without operands; every other field is 0 (R54). -/
theorem encode_noOperand (hm : (m, op) ∈ opcS) : encode c (.noOperand m) = .ok (op <<< 8) := by
  refine bind_eq_ok.mpr ⟨op, lookupOpcode_of_configS hc hm, ?_⟩
  rw [hc, configS, pack_layoutSW]
  simp only [Nat.zero_shiftLeft, Nat.zero_or, Nat.or_zero]

/-- The word of a jump of `S`, or the error of the fit of its target (R91, R97). -/
theorem encode_singleTarget (hm : (m, op) ∈ opcS) (v : Int) :
    encode c (.singleTarget m v) = (fit p v 8).map fun n => op <<< 8 ||| n := by
  simp only [encode, lookupOpcode_of_configS hc hm, fit_operand_of_configS hc, bind, Except.bind]
  rw [hc, configS]
  cases fit p v 8 with
  | error e => rfl
  | ok n => simp only [pack_layoutSW, Nat.zero_shiftLeft, Nat.zero_or, Except.map]

/-- The word of a two-register instruction (R97). -/
theorem encode_regReg (hm : (m, op) ∈ opcS) (src dst : Nat) :
    encode c (.regReg m src dst) = .ok (dst <<< 12 ||| op <<< 8 ||| src) := by
  refine bind_eq_ok.mpr ⟨op, lookupOpcode_of_configS hc hm, ?_⟩
  rw [hc, configS, pack_layoutSW]
  simp only [modeRegReg, Nat.zero_shiftLeft, Nat.zero_or]

/-- The word of an instruction with an immediate, or the error of its fit (R91, R97). -/
theorem encode_immReg (hm : (m, op) ∈ opcS) (v : Int) (dst : Nat) :
    encode c (.immReg m v dst) = (fit p v 8).map fun n => 1 <<< 16 ||| dst <<< 12 ||| op <<< 8 ||| n := by
  simp only [encode, lookupOpcode_of_configS hc hm, fit_operand_of_configS hc, bind, Except.bind]
  rw [hc, configS]
  cases fit p v 8 with
  | error e => rfl
  | ok n => simp only [pack_layoutSW, modeImmReg, Nat.zero_shiftLeft, Nat.zero_or, Except.map]

/-- The word of an instruction with an indirect operand (R97). -/
theorem encode_loadStore (hm : (m, op) ∈ opcS) (base dst : Nat) :
    encode c (.loadStore m base dst) = .ok (2 <<< 16 ||| dst <<< 12 ||| op <<< 8 ||| base) := by
  refine bind_eq_ok.mpr ⟨op, lookupOpcode_of_configS hc hm, ?_⟩
  rw [hc, configS, pack_layoutSW]
  simp only [modeLoadStore, Nat.zero_shiftLeft, Nat.zero_or]

theorem renderText_regReg {src dst : Nat} (hsrc : src < 8) (hdst : dst < 8) :
    renderText c (.regReg m src dst) = .ok (m ++ [' '] ++ nameS src ++ [',', ' '] ++ nameS dst) := by
  have hname {v : Nat} (hv : v < 8) := codeToRegisterName_of_configS hc hv
  exact bind_eq_ok.mpr ⟨_, hname hsrc, bind_eq_ok.mpr ⟨_, hname hdst, rfl⟩⟩

theorem renderText_immReg {dst : Nat} (v : Int) (hdst : dst < 8) :
    renderText c (.immReg m v dst) = .ok (m ++ [' ', '#'] ++ renderNumeral v ++ [',', ' '] ++ nameS dst) :=
  bind_eq_ok.mpr ⟨_, codeToRegisterName_of_configS hc hdst, rfl⟩

theorem renderText_loadStore {base dst : Nat} (hbase : base < 8) (hdst : dst < 8) :
    renderText c (.loadStore m base dst) =
      .ok (m ++ [' ', '['] ++ nameS base ++ [']', ',', ' '] ++ nameS dst) := by
  have hname {v : Nat} (hv : v < 8) := codeToRegisterName_of_configS hc hv
  refine bind_eq_ok.mpr ⟨_, hname hbase, bind_eq_ok.mpr ⟨_, hname hdst, ?_⟩⟩
  simp only [sep, List.append_assoc, List.cons_append, List.nil_append]

/-- A word with the halt opcode decodes to the halt mnemonic, whatever its other bits are (R54, R83). -/
theorem decodeS_halt {W : Word} (hm : (m, haltOpcodeS) ∈ opcS) (hop : slice W 11 8 = haltOpcodeS) :
    decodeS c.s W = .ok (.noOperand m) := by
  obtain ⟨-, hclasses, -⟩ := configS_wellFormed p
  have hclass := classifyDecodeS_opcode hclasses (m := m) hop hm
  rw [if_pos (show haltOpcodeS = (configS p).haltOpcode from rfl)] at hclass
  rw [hc]
  exact decodeS_of_classify hclass

/-- A word with the opcode of a jump decodes to it; `pad`, `mode` and `dst` are not looked at (R54, R83). -/
theorem decodeS_jump {W : Word} (hm : (m, op) ∈ opcS) (hhalt : op ≠ haltOpcodeS) (hjump : op ∈ jumpCodesS)
    (hop : slice W 11 8 = op) : decodeS c.s W = .ok (.singleTarget m (slice W 7 0)) := by
  obtain ⟨-, hclasses, -⟩ := configS_wellFormed p
  have hclass := classifyDecodeS_opcode hclasses (m := m) hop hm
  rw [if_neg (show op ≠ (configS p).haltOpcode from hhalt),
    if_pos (show op ∈ (configS p).jumpCodes from hjump)] at hclass
  rw [hc]
  exact decodeS_of_classify hclass

/-- A word with the opcode of two operands is read under the format its `mode` field selects (R83, R98). -/
theorem decodeS_mode {W : Word} {f : FormatS} (hm : (m, op) ∈ opcS) (hhalt : op ≠ haltOpcodeS)
    (hjump : op ∉ jumpCodesS) (hop : slice W 11 8 = op) (hmode : modeFormat (slice W 17 16) = .ok f) :
    decodeS c.s W = .ok (readS (configS p) W m f) := by
  obtain ⟨-, hclasses, -⟩ := configS_wellFormed p
  rw [hc]
  exact decodeS_of_classify (classifyDecodeS_mode hclasses hop hm hhalt hjump hmode)

/-- A word with the opcode of two operands has no text when its mode or a register it names has no entry. -/
theorem textS_unknownEncoding {W : Word} (hop : slice W 11 8 ∈ [1, 2, 3])
    (h : slice W 17 16 = 3 ∨ 8 ≤ slice W 15 12 ∨ slice W 17 16 ≠ 1 ∧ 8 ≤ slice W 7 0) :
    (decodeS c.s W >>= renderText c) = .error .unknownEncoding := by
  obtain ⟨hbad, -⟩ := unknownWhen_textS c W
  rw [hc] at hbad ⊢
  exact hbad (noText_configS.mpr (.inr (.inr ⟨hop, h⟩)))

end DefaultS

/-! ## The mnemonics of two operands -/

/-- The opcodes of the two-operand mnemonics (R177 to R179). -/
abbrev twoOperandCodes : Table := [("MOV".toList, 1), ("ADD".toList, 2), ("SUB".toList, 3)]

theorem twoOperandCodes_format : ∀ q ∈ twoOperandCodes,
    q ∈ opcS ∧ q.2 ≠ haltOpcodeS ∧ q.2 ∉ jumpCodesS ∧ q.2 ∈ [1, 2, 3] := by decide

/-- Each two-register instruction with its mnemonic and its opcode. -/
abbrev regRegInstrs (src dst : Nat) : List (Instr × Text × Nat) :=
  [(.movRR src dst, "MOV".toList, 1), (.addRR src dst, "ADD".toList, 2), (.subRR src dst, "SUB".toList, 3)]

/-- Each instruction with an immediate, with its mnemonic and its opcode. -/
abbrev immRegInstrs (imm : Int) (dst : Nat) : List (Instr × Text × Nat) :=
  [(.movIR imm dst, "MOV".toList, 1), (.addIR imm dst, "ADD".toList, 2), (.subIR imm dst, "SUB".toList, 3)]

/-- Each instruction with an indirect operand, with its mnemonic and its opcode. -/
abbrev loadStoreInstrs (base dst : Nat) : List (Instr × Text × Nat) :=
  [(.movLS base dst, "MOV".toList, 1), (.addLS base dst, "ADD".toList, 2), (.subLS base dst, "SUB".toList, 3)]

theorem regRegInstrs_codes (src dst : Nat) : (regRegInstrs src dst).map Prod.snd = twoOperandCodes := rfl

theorem immRegInstrs_codes (imm : Int) (dst : Nat) : (immRegInstrs imm dst).map Prod.snd = twoOperandCodes := rfl

theorem loadStoreInstrs_codes (base dst : Nat) : (loadStoreInstrs base dst).map Prod.snd = twoOperandCodes := rfl

theorem regRegInstrs_toAbstract (src dst : Nat) :
    ∀ x ∈ regRegInstrs src dst, x.1.toAbstract = .regReg x.2.1 src dst := by
  simp only [List.forall_mem_cons]
  exact ⟨rfl, rfl, rfl, List.forall_mem_nil _⟩

theorem immRegInstrs_toAbstract (imm : Int) (dst : Nat) :
    ∀ x ∈ immRegInstrs imm dst, x.1.toAbstract = .immReg x.2.1 imm dst := by
  simp only [List.forall_mem_cons]
  exact ⟨rfl, rfl, rfl, List.forall_mem_nil _⟩

theorem loadStoreInstrs_toAbstract (base dst : Nat) :
    ∀ x ∈ loadStoreInstrs base dst, x.1.toAbstract = .loadStore x.2.1 base dst := by
  simp only [List.forall_mem_cons]
  exact ⟨rfl, rfl, rfl, List.forall_mem_nil _⟩

/-! ## The statements -/

theorem hlt_mem_opcS : ("HLT".toList, haltOpcodeS) ∈ opcS := by decide

theorem jmp_mem_opcS : ("JMP".toList, 4) ∈ opcS := by decide

/-- The hex string of the word of `HLT` (R175). -/
theorem renderHex_halt : renderHex 8 (haltOpcodeS <<< 8) = "00000800".toList := by decide

/-- Settles O40: the count is the only test of a text, and the opcode the only part of a word that is looked at. -/
theorem haltRule : Obligations.HaltRule := by
  unfold Obligations.HaltRule
  intro s rest p hcfg
  have hdigits := hexDigits_of_configS hcfg
  refine ⟨fun text ops htok hs => ?assemble, fun hex W hhex hs hop => ?disassemble⟩
  case assemble =>
    have hlookup : lookupOpcode s.cfg.s.opc "HLT".toList = .ok s.cfg.s.haltOpcode := by
      rw [lookupOpcode_of_configS hcfg hlt_mem_opcS, hcfg]
      rfl
    have hclass := classifyEncodeS_of_halt hlookup ops
    refine ⟨fun hne => ?count, fun hnil => ?word⟩
    case count =>
      rw [if_neg fun hlen => hne (List.length_eq_zero_iff.mp hlen)] at hclass
      exact answers_assembleS_parse_error hs ((parseS_of_tokens htok).trans (bind_eq_error.mpr (.inl hclass)))
    case word =>
      subst hnil
      have hread : parseS s.cfg.s text = .ok (.noOperand "HLT".toList) := parseS_eq_ok.mpr (htok ▸ ⟨hlookup, rfl⟩)
      rw [← renderHex_halt]
      exact answers_assembleS_of_parse hs hdigits hread (encode_noOperand hcfg hlt_mem_opcS)
  case disassemble =>
    exact answers_disassembleS hs hdigits hhex (bind_eq_ok.mpr ⟨_, decodeS_halt hcfg hlt_mem_opcS hop, rfl⟩)

/-- Settles O41: the count, then the numeral, then the fit of the target; and a word of that opcode is written with the
numeral of its lowest field. -/
theorem jumpRuleS : Obligations.JumpRuleS := by
  unfold Obligations.JumpRuleS
  intro s rest p hcfg
  have hdigits := hexDigits_of_configS hcfg
  have hhalt : 4 ≠ haltOpcodeS := by decide
  have hjump : 4 ∈ jumpCodesS := by decide
  refine ⟨fun text ops htok hs => ?assemble, fun hex W hhex hs hop => ?disassemble⟩
  case assemble =>
    have hclass := classifyEncodeS_of_jump (lookupOpcode_of_configS hcfg jmp_mem_opcS) (hcfg ▸ hhalt) (hcfg ▸ hjump) ops
    have hparse := parseS_of_tokens (c := s.cfg.s) htok
    rw [hclass] at hparse
    refine ⟨fun hlen => ?count, ?_⟩
    case count =>
      rw [if_neg hlen] at hparse
      exact answers_assembleS_parse_error hs hparse
    rintro x rfl
    have hparse : parseS s.cfg.s text = parseNumeral x >>= fun tg => .ok (.singleTarget "JMP".toList tg) := hparse
    refine ⟨fun e he => ?fault, fun v hv => ?word⟩
    case fault =>
      rw [numeralFault_eq_faultOf, faultOf_eq_some_iff] at he
      exact answers_assembleS_parse_error hs (hparse.trans (bind_eq_error.mpr (.inl he)))
    case word =>
      have hread := hparse.trans (bind_eq_ok.mpr ⟨v, hv, rfl⟩)
      exact answers_assembleS_of_fit hs hdigits hread (encode_singleTarget hcfg jmp_mem_opcS v)
  case disassemble =>
    exact answers_disassembleS hs hdigits hhex (bind_eq_ok.mpr ⟨_, decodeS_jump hcfg jmp_mem_opcS hhalt hjump hop, rfl⟩)

/-- Settles O42: the count, then both shapes, then the operands from left to right, then the fit of an immediate; and a
word of that opcode is written under the format its mode selects, where its mode and its registers have entries. -/
theorem twoOperandRules : Obligations.TwoOperandRules := by
  unfold Obligations.TwoOperandRules
  intro s rest p m op hcfg hm
  have hdigits := hexDigits_of_configS hcfg
  obtain ⟨hopc, hhalt, hjump, htwoOp⟩ := twoOperandCodes_format (m, op) hm
  refine ⟨fun text ops htok hs => ?assemble, fun hex W hhex hs hop => ?disassemble⟩
  case assemble =>
    have htwo : TwoOperandS s.cfg.s m := ⟨op, lookupOpcode_of_configS hcfg hopc, hcfg ▸ hhalt, hcfg ▸ hjump⟩
    have herror {e} := answers_assembleS_parse_error (e := e) hs
    refine ⟨fun hlen => ?count, ?_⟩
    case count =>
      have hclass := classifyEncodeS_wrong_count htwo hlen
      exact herror ((parseS_of_tokens htok).trans (bind_eq_error.mpr (.inl hclass)))
    rintro x y rfl
    refine ⟨fun hshapes => ?shapes, fun hy => ?_⟩
    case shapes =>
      have hclass : classifyEncodeS s.cfg.s m [x, y] = .error .invalidOperandSyntax := by
        rw [classifyEncodeS_two htwo]
        exact shapesFormat_error (hshapes.imp (mt shape_eq_register.mp) shape_eq_none)
      exact herror ((parseS_of_tokens htok).trans (bind_eq_error.mpr (.inl hclass)))
    have hparse {a f} (hx : shape x = a) (hf : shapesFormat a .register = .ok f) :
        parseS s.cfg.s text = parseOperandsS s.cfg.s m f [x, y] :=
      parseS_of_shapes htok htwo (by rw [hx, shape_eq_register.mpr hy, hf])
    refine ⟨fun hx => ?register, fun u hx => ?immediate, fun hx hclose => ?bracket, fun inner hx => ?indirect⟩
    case register =>
      have hparse := hparse (shape_eq_register.mpr hx) rfl
      refine ⟨fun e he => ?fault, fun src dst hsrc hdst => ?word⟩
      case fault =>
        simp only [regFaultS_eq_faultOf hcfg] at he
        exact herror (hparse.trans (bind_bind_eq_error_of_firstFault he))
      case word =>
        have hread := hparse.trans
          (bind_bind_eq_ok (parseRegS_of_configS hcfg hsrc) (parseRegS_of_configS hcfg hdst))
        exact answers_assembleS_of_parse hs hdigits hread (encode_regReg hcfg hopc src dst)
    case immediate =>
      subst hx
      have hparse := hparse rfl rfl
      refine ⟨fun e he => ?fault, fun v dst hv hdst => ?word⟩
      case fault =>
        simp only [numeralFault_eq_faultOf, regFaultS_eq_faultOf hcfg] at he
        exact herror (hparse.trans (bind_bind_eq_error_of_firstFault he))
      case word =>
        have hread := hparse.trans
          (bind_bind_eq_ok (show parseImmS ('#' :: u) = .ok v from hv) (parseRegS_of_configS hcfg hdst))
        exact answers_assembleS_of_fit hs hdigits hread (encode_immReg hcfg hopc v dst)
    case bracket =>
      have hparse := hparse (shape_eq_indirect.mpr hx) rfl
      exact herror (hparse.trans (bind_eq_error.mpr (.inl (if_neg hclose))))
    case indirect =>
      subst hx
      have hparse := hparse rfl rfl
      have hinner : parseIndS s.cfg.s ('[' :: (inner ++ [']'])) = parseRegS s.cfg.s inner := parseIndS_form
      refine ⟨fun e he => ?fault, fun base dst hbase hdst => ?word⟩
      case fault =>
        simp only [regFaultS_eq_faultOf hcfg, ← hinner] at he
        exact herror (hparse.trans (bind_bind_eq_error_of_firstFault he))
      case word =>
        have hread := hparse.trans
          (bind_bind_eq_ok (hinner.trans (parseRegS_of_configS hcfg hbase)) (parseRegS_of_configS hcfg hdst))
        exact answers_assembleS_of_parse hs hdigits hread (encode_loadStore hcfg hopc base dst)
  case disassemble =>
    have hanswer {res} := answers_disassembleS (res := res) hs hdigits hhex
    have hdecode {k f} (hmode : slice W 17 16 = k) (hf : modeFormat k = .ok f) :=
      decodeS_mode hcfg hopc hhalt hjump hop (hmode ▸ hf)
    refine ⟨fun hbad => ?noEntry, fun hmode hdst hsrc => ?regReg, fun hmode hdst => ?immReg,
      fun hmode hdst hbase => ?loadStore⟩
    case noEntry => exact hanswer (textS_unknownEncoding hcfg (hop ▸ htwoOp) hbad)
    case regReg => exact hanswer (bind_eq_ok.mpr ⟨_, hdecode hmode rfl, renderText_regReg hcfg hsrc hdst⟩)
    case immReg => exact hanswer (bind_eq_ok.mpr ⟨_, hdecode hmode rfl, renderText_immReg hcfg _ hdst⟩)
    case loadStore => exact hanswer (bind_eq_ok.mpr ⟨_, hdecode hmode rfl, renderText_loadStore hcfg hbase hdst⟩)

/-- Settles O54: the word of `HLT` is fixed, and a target that fits its field is stored as it is under either policy. -/
theorem haltAndJumpComplete : Obligations.HaltAndJumpComplete := by
  unfold Obligations.HaltAndJumpComplete
  intro s rest p tg hcfg htg
  have hdigits := hexDigits_of_configS hcfg
  refine ⟨fun isa text hs => ⟨?_, ?_⟩, fun isa hex hs => ⟨exec_disassemble hs rfl rfl, exec_disassemble hs rfl rfl⟩⟩
  · rw [← renderHex_halt]
    exact exec_assemble hs rfl (encode_noOperand hcfg hlt_mem_opcS) hdigits
  · have hword := encode_singleTarget hcfg jmp_mem_opcS tg
    rw [fit_natCast htg] at hword
    exact exec_assemble hs rfl hword hdigits

/-- Settles O55: both forms have a word, and a text because their registers have names. -/
theorem regRegAndLoadStoreComplete : Obligations.RegRegAndLoadStoreComplete := by
  unfold Obligations.RegRegAndLoadStoreComplete
  intro s rest p src dst hcfg hsrc hdst
  have hdigits := hexDigits_of_configS hcfg
  refine ⟨fun x hx => ?regReg, fun x hx => ?loadStore⟩
  case regReg =>
    have habstract := regRegInstrs_toAbstract src dst x hx
    obtain ⟨hopc, -⟩ := twoOperandCodes_format x.2 (regRegInstrs_codes src dst ▸ List.mem_map_of_mem hx)
    exact ⟨fun isa text hs => exec_assemble hs habstract (encode_regReg hcfg hopc src dst) hdigits,
      fun isa hex hs => exec_disassemble hs habstract (renderText_regReg hcfg hsrc hdst)⟩
  case loadStore =>
    have habstract := loadStoreInstrs_toAbstract src dst x hx
    obtain ⟨hopc, -⟩ := twoOperandCodes_format x.2 (loadStoreInstrs_codes src dst ▸ List.mem_map_of_mem hx)
    exact ⟨fun isa text hs => exec_assemble hs habstract (encode_loadStore hcfg hopc src dst) hdigits,
      fun isa hex hs => exec_disassemble hs habstract (renderText_loadStore hcfg hsrc hdst)⟩

/-- Settles O56: the immediate fits its field, so it is stored as it is under either policy. -/
theorem immRegCompletes : Obligations.ImmRegCompletes := by
  unfold Obligations.ImmRegCompletes
  intro s rest p imm dst hcfg himm hdst x hx
  have habstract := immRegInstrs_toAbstract imm dst x hx
  obtain ⟨hopc, -⟩ := twoOperandCodes_format x.2 (immRegInstrs_codes imm dst ▸ List.mem_map_of_mem hx)
  have hword := encode_immReg hcfg hopc imm dst
  rw [fit_natCast himm] at hword
  exact ⟨fun isa text hs => exec_assemble hs habstract hword (hexDigits_of_configS hcfg),
    fun isa hex hs => exec_disassemble hs habstract (renderText_immReg hcfg imm hdst)⟩

end Sys2Proof.Machine
end

section
/-!
SUPPORT and PROOF for 60_exceptions.md: which operation raises which kind, and when (R190 to R199). The kinds are
followed through the stages of `assemble`: each stage says once which errors it has. Reading a text never overflows, and
fails with `UnknownMnemonic` only for the mnemonic's sake; encoding what a text reads as fails only where the numeric
operand does not fit (`encode_eq_error_iff`). What each statement says of a response is read off these.
-/

namespace Sys2Proof

/-! ## The two kinds of `disassemble` -/

theorem UnknownWhen.eq_error_iff {α : Type} {P : Prop} {x : Except ErrorKind α} (h : UnknownWhen P x) :
    x = .error .unknownEncoding ↔ P := by
  obtain ⟨hbad, hgood⟩ := h
  refine ⟨fun hx => ?_, hbad⟩
  by_contra hP
  obtain ⟨b, hb⟩ := hgood hP
  cases hx.symm.trans hb

end Sys2Proof

namespace Sys2Proof.Machine

theorem responseOf_eq_err {res : Except ErrorKind Text} {e : ErrorKind} : responseOf res = .err e ↔ res = .error e := by
  cases res <;> simp

/-- `disassemble` fails because its string is no word, or because the word has no text (R190). -/
theorem disassemble_err {c : Config} {isa : Isa} {hex : Text} {e : ErrorKind} (h : disassemble c isa hex = .err e) :
    e = .unknownEncoding ∨ e = .malformedInstruction := by
  rw [disassemble_eq, responseOf_eq_err, bind_eq_error] at h
  obtain hhex | ⟨W, -, htext⟩ := h
  · exact .inr (parseHex_error hhex)
  · exact .inl (textOfWord_error htext)

theorem isa_of_decodeWord {c : Config} {isa : Isa} {W : Word} {a : AbstractInstr} (h : decodeWord c isa W = .ok a) :
    a.isa = isa := by
  cases isa with
  | m =>
    obtain ⟨m, f, -, rfl⟩ := decodeM_eq_ok h
    cases f <;> rfl
  | s =>
    obtain ⟨m, f, -, rfl⟩ := decodeS_eq_ok h
    cases f <;> rfl

/-- A word has no text when it does not decode, or when a register of what it decodes to has no name (R193). -/
theorem disassemble_eq_unknownEncoding_iff {c : Config} {isa : Isa} {hex : Text} {W : Word}
    (hhex : parseHex (c.hexDigits isa) hex = .ok W) : disassemble c isa hex = .err .unknownEncoding ↔
      decodeWord c isa W = .error .unknownEncoding ∨
      ∃ a, decodeWord c isa W = .ok a ∧ ∃ q ∈ registerOperands a, q.1 ∉ (regTable c isa).values := by
  have hnames {a : AbstractInstr} (hdecode : decodeWord c isa W = .ok a) :
      ¬ RegistersNamed c a ↔ ∃ q ∈ registerOperands a, q.1 ∉ (regTable c isa).values := by
    rw [RegistersNamed, isa_of_decodeWord hdecode]
    simp only [not_forall, exists_prop]
  rw [disassemble_eq, responseOf_eq_err, hhex]
  change (decodeWord c isa W >>= renderText c) = _ ↔ _
  rw [bind_eq_error]
  refine or_congr_right (exists_congr fun a => and_congr_right fun hdecode => ?_)
  rw [(unknownWhen_renderText c a).eq_error_iff, hnames hdecode]

/-! ## The kinds that reading a text can fail with -/

/-- Where `x` fails, its error satisfies `P`. -/
def FailsWith {α : Type} (P : ErrorKind → Prop) (x : Except ErrorKind α) : Prop := ∀ e, x = .error e → P e

namespace FailsWith

variable {α β : Type} {P Q : ErrorKind → Prop} {x : Except ErrorKind α}

theorem of_ok (a : α) : FailsWith P (.ok a) := fun _ h => nomatch h

theorem of_error {e : ErrorKind} (he : P e) : FailsWith P (.error e : Except ErrorKind α) := fun _ h => by
  cases h
  exact he

theorem mono (h : FailsWith P x) (hPQ : ∀ e, P e → Q e) : FailsWith Q x := fun e he => hPQ e (h e he)

theorem bind {f : α → Except ErrorKind β} (hx : FailsWith P x) (hf : ∀ a, FailsWith P (f a)) :
    FailsWith P (x >>= f) := fun e h => by
  obtain h | ⟨a, -, h⟩ := bind_eq_error.mp h
  · exact hx e h
  · exact hf a e h

end FailsWith

/-- The kinds that the count, the shapes and the operands of a text can fail with. -/
def OperandError (e : ErrorKind) : Prop :=
  e = .unknownRegister ∨ e = .invalidOperandSyntax ∨ e = .malformedInstruction

theorem operandError_malformed : OperandError .malformedInstruction := .inr (.inr rfl)

theorem operandError_invalidOperand : OperandError .invalidOperandSyntax := .inr (.inl rfl)

theorem parseNumeral_failsWith (t : Text) : FailsWith OperandError (parseNumeral t) := fun _ h =>
  parseNumeral_error h ▸ operandError_malformed

theorem parseRegM_failsWith (c : ConfigM) (t : Text) : FailsWith OperandError (parseRegM c t) := fun _ h => by
  obtain ⟨rfl, -⟩ | ⟨rfl, -⟩ := parseRegM_error h
  · exact operandError_invalidOperand
  · exact .inl rfl

theorem parseRegS_failsWith (c : ConfigS) (t : Text) : FailsWith OperandError (parseRegS c t) := fun _ h => by
  obtain ⟨rfl, -⟩ | ⟨rfl, -⟩ := parseRegS_error h
  · exact operandError_invalidOperand
  · exact .inl rfl

theorem parseMemM_failsWith (c : ConfigM) (t : Text) : FailsWith OperandError (parseMemM c t) := by
  unfold parseMemM
  split
  · exact (parseNumeral_failsWith _).bind fun _ => (parseRegM_failsWith c _).bind fun _ => .of_ok _
  · exact .of_error operandError_invalidOperand

theorem parseIndS_failsWith (c : ConfigS) (t : Text) : FailsWith OperandError (parseIndS c t) := by
  unfold parseIndS
  split
  · exact parseRegS_failsWith c _
  · exact .of_error operandError_invalidOperand

theorem parseOperandsM_failsWith (c : ConfigM) (m : Text) (f : FormatM) (ops : List Text) :
    FailsWith OperandError (parseOperandsM c m f ops) := by
  have hreg := parseRegM_failsWith c
  have hnum := parseNumeral_failsWith
  unfold parseOperandsM
  split
  case h_1 => exact (hreg _).bind fun _ => (hreg _).bind fun _ => (hreg _).bind fun _ => .of_ok _
  case h_2 | h_3 => exact (hreg _).bind fun _ => (hreg _).bind fun _ => (hnum _).bind fun _ => .of_ok _
  case h_4 => exact (hreg _).bind fun _ => (parseMemM_failsWith c _).bind fun _ => .of_ok _
  case h_5 => exact (hnum _).bind fun _ => .of_ok _
  case h_6 => exact .of_error operandError_malformed

theorem parseOperandsS_failsWith (c : ConfigS) (m : Text) (f : FormatS) (ops : List Text) :
    FailsWith OperandError (parseOperandsS c m f ops) := by
  have hreg := parseRegS_failsWith c
  have hnum := parseNumeral_failsWith
  unfold parseOperandsS
  split
  case h_1 => exact .of_ok _
  case h_2 => exact (hnum _).bind fun _ => .of_ok _
  case h_3 => exact (hreg _).bind fun _ => (hreg _).bind fun _ => .of_ok _
  case h_4 => exact (hnum _).bind fun _ => (hreg _).bind fun _ => .of_ok _
  case h_5 => exact (parseIndS_failsWith c _).bind fun _ => (hreg _).bind fun _ => .of_ok _
  case h_6 => exact .of_error operandError_malformed

theorem shapesFormat_failsWith (a b : Shape) : FailsWith OperandError (shapesFormat a b) := by
  unfold shapesFormat
  split
  case h_4 => exact .of_error operandError_invalidOperand
  all_goals exact .of_ok _

/-- What `lookup_opcode` finds for a mnemonic settles the class of the text; any other fault is an operand error. -/
theorem classifyEncodeS_failsWith (c : ConfigS) (m : Text) (ops : List Text) :
    FailsWith (fun e => OperandError e ∨ lookupOpcode c.opc m = .error e) (classifyEncodeS c m ops) := by
  refine FailsWith.bind (fun e h => .inr h) fun op => FailsWith.mono (P := OperandError) ?_ fun e => .inl
  split
  · split
    · exact .of_ok _
    · exact .of_error operandError_malformed
  · split
    · split
      · exact .of_ok _
      · exact .of_error operandError_malformed
    · split
      · exact shapesFormat_failsWith _ _
      · exact .of_error operandError_malformed

theorem classifyEncodeM_failsWith (c : ConfigM) (m : Text) (ops : List Text) :
    FailsWith (fun e => OperandError e ∨ formatM c m = .error e) (classifyEncodeM c m ops) := by
  refine FailsWith.bind (fun e h => .inr h) fun f => FailsWith.mono (P := OperandError) ?_ fun e => .inl
  split
  · exact .of_ok _
  · exact .of_error operandError_malformed

/-- The mnemonic's format is not found only because a lookup of the mnemonic fails. -/
theorem formatM_error {c : ConfigM} {m : Text} {e : ErrorKind} (h : formatM c m = .error e) :
    e = .unknownMnemonic ∧ (m ∈ c.opc.keys → (m, 0) ∈ c.opc ∧ m ∉ c.fn.keys) := by
  obtain h | ⟨op, hop, h⟩ := bind_eq_error.mp h
  · obtain ⟨rfl, hkey⟩ := lookup_error h
    exact ⟨rfl, fun hmem => absurd hmem hkey⟩
  · split at h
    case isFalse => cases h
    case isTrue h0 =>
      obtain h | ⟨fn, -, h⟩ := bind_eq_error.mp h
      · obtain ⟨rfl, hkey⟩ := lookup_error h
        exact ⟨rfl, fun _ => ⟨h0 ▸ lookup_mem hop, hkey⟩⟩
      · cases h

/-- The table of opcodes of an instruction set. -/
def opcTable (c : Config) : Isa → Table
  | .m => c.m.opc
  | .s => c.s.opc

/-- The first token of the text is no mnemonic of the instruction set (R191). -/
def NoMnemonic (c : Config) (isa : Isa) (text : Text) : Prop :=
  ∃ m ops, tokenize text = m :: ops ∧ m ∉ (opcTable c isa).keys

theorem parse_of_no_token {c : Config} {isa : Isa} {text : Text} (htok : tokenize text = []) :
    parse c isa text = .error .malformedInstruction := by
  cases isa with
  | m => simp only [parse, parseM, htok]
  | s => simp only [parse, parseS, htok]

/-- Everything that reading a text can fail with: an operand error, or the kind of a mnemonic that a table lacks. -/
theorem parse_error {c : Config} {isa : Isa} {text : Text} {e : ErrorKind} (h : parse c isa text = .error e) :
    OperandError e ∨ e = .unknownMnemonic ∧ (c.WellFormed → NoMnemonic c isa text) := by
  cases htok : tokenize text with
  | nil =>
    cases h.symm.trans (parse_of_no_token htok)
    exact .inl operandError_malformed
  | cons m ops =>
    have hno (hkey : m ∉ (opcTable c isa).keys) : NoMnemonic c isa text := ⟨m, ops, htok, hkey⟩
    cases isa with
    | m =>
      simp only [parse, parseM, htok] at h
      have hfails := (classifyEncodeM_failsWith c.m m ops).bind fun f =>
        (parseOperandsM_failsWith c.m m f ops).mono fun e => .inl
      refine (hfails e h).imp_right fun hformat => ?_
      obtain ⟨rfl, hkey⟩ := formatM_error hformat
      refine ⟨rfl, fun hc => hno fun hmem => ?_⟩
      obtain ⟨⟨-, -, -, ⟨-, hzero, -⟩, -⟩, -⟩ := hc
      obtain ⟨hop, hfn⟩ := hkey hmem
      exact hfn (hzero _ hop rfl)
    | s =>
      simp only [parse, parseS, htok] at h
      have hfails := (classifyEncodeS_failsWith c.s m ops).bind fun f =>
        (parseOperandsS_failsWith c.s m f ops).mono fun e => .inl
      refine (hfails e h).imp_right fun hlookup => ?_
      obtain ⟨rfl, hkey⟩ := lookup_error hlookup
      exact ⟨rfl, fun _ => hno hkey⟩

/-- A text whose first token is no mnemonic fails for that, whatever its operands. -/
theorem parse_of_noMnemonic {c : Config} {isa : Isa} {text : Text} (h : NoMnemonic c isa text) :
    parse c isa text = .error .unknownMnemonic := by
  obtain ⟨m, ops, htok, hkey⟩ := h
  have hlookup : lookupOpcode (opcTable c isa) m = .error .unknownMnemonic := lookup_of_not_mem hkey
  cases isa with
  | m =>
    have hformat : formatM c.m m = .error .unknownMnemonic := bind_eq_error.mpr (.inl hlookup)
    have hclass : classifyEncodeM c.m m ops = .error .unknownMnemonic := bind_eq_error.mpr (.inl hformat)
    simp only [parse, parseM, htok, hclass, bind, Except.bind]
  | s =>
    have hclass : classifyEncodeS c.s m ops = .error .unknownMnemonic := bind_eq_error.mpr (.inl hlookup)
    simp only [parse, parseS, htok, hclass, bind, Except.bind]

/-! ## The only error of encoding -/

/-- A value fails to fit only under `reject`, out of range, and with one kind (R91, R196). -/
theorem fit_eq_error_iff {p : Overflow} {v : Int} {w : Nat} {e : ErrorKind} :
    fit p v w = .error e ↔ e = .fieldOverflow ∧ p = .reject ∧ (v < 0 ∨ 2 ^ w ≤ v) := by
  refine ⟨fit_error, ?_⟩
  rintro ⟨rfl, rfl, hv⟩
  exact fit_reject_of_out_of_range hv

/-- An instruction whose mnemonic has its format fails to encode exactly where its numeric operand does not fit. -/
theorem encode_eq_error_iff {c : Config} {a : AbstractInstr} {e : ErrorKind} (hf : FormatMatches c a) :
    encode c a = .error e ↔
      ∃ q ∈ numericOperand a, fit (c.overflow a.isa) q.1 ((layoutOf c a).width q.2) = .error e := by
  obtain ⟨code, hcode⟩ := formatMatches_iff_hasCode.mp hf
  have hlookup {m : Text} {T : Table} (hmem : (m, code) ∈ T) := lookup_ok_of_key (e := .unknownMnemonic) (mem_keys hmem)
  cases a with
  | r3 | noOperand | regReg | loadStore =>
    obtain ⟨v, hv, -⟩ := hlookup hcode.1
    refine iff_of_false (fun h => ?_) (fun ⟨_, hq, _⟩ => nomatch hq)
    cases h.symm.trans (bind_eq_ok.mpr ⟨v, hv, rfl⟩)
  | rShift | iType | jType | singleTarget | immReg =>
    obtain ⟨v, hv, -⟩ := hlookup hcode.1
    constructor
    · intro h
      obtain h | ⟨_, -, h⟩ := bind_eq_error.mp h
      · cases h.symm.trans hv
      obtain h | ⟨_, -, h⟩ := bind_eq_error.mp h
      · exact ⟨_, rfl, h⟩
      · cases h
    · rintro ⟨q, hq, h⟩
      cases hq
      exact bind_eq_error.mpr (.inr ⟨v, hv, bind_eq_error.mpr (.inl h)⟩)

/-- `assemble` fails because the text does not read, or because the numeral of what it reads as does not fit. -/
theorem assemble_eq_err_iff {c : Config} {isa : Isa} {text : Text} {e : ErrorKind} :
    assemble c isa text = .err e ↔ parse c isa text = .error e ∨ ∃ a, parse c isa text = .ok a ∧
      ∃ q ∈ numericOperand a, fit (c.overflow isa) q.1 ((layoutOf c a).width q.2) = .error e := by
  have houtput {a : AbstractInstr} : outputOf c a (.assemble isa text) = .error e ↔ encode c a = .error e :=
    bind_eq_error.trans (or_iff_left fun ⟨_, _, h⟩ => nomatch h)
  unfold assemble
  rw [respond_eq_bind, responseOf_eq_err, bind_eq_error]
  refine or_congr_right (exists_congr fun a => and_congr_right fun hparse => houtput.trans ?_)
  obtain ⟨rfl, hformat, -⟩ := parse_formatMatches (show parse c isa text = .ok a from hparse)
  exact encode_eq_error_iff hformat

/-- But for `FieldOverflow`, `assemble` fails where reading the text fails. -/
theorem assemble_eq_err_of_ne {c : Config} {isa : Isa} {text : Text} {e : ErrorKind} (he : e ≠ .fieldOverflow) :
    assemble c isa text = .err e ↔ parse c isa text = .error e := by
  rw [assemble_eq_err_iff]
  exact or_iff_left fun ⟨_, _, _, _, h⟩ => he (fit_eq_error_iff.mp h).1

/-- `FieldOverflow` is the kind of a numeral that does not fit, and no kind of a text that does not read (R196). -/
theorem assemble_eq_fieldOverflow_iff {c : Config} {isa : Isa} {text : Text} :
    assemble c isa text = .err .fieldOverflow ↔ c.overflow isa = .reject ∧ ∃ a, parse c isa text = .ok a ∧
      ∃ q ∈ numericOperand a, q.1 < 0 ∨ (2 : Int) ^ (layoutOf c a).width q.2 ≤ q.1 := by
  have hread : parse c isa text ≠ .error .fieldOverflow := fun h => by
    obtain hop | ⟨hop, -⟩ := parse_error h
    · simp [OperandError] at hop
    · cases hop
  rw [assemble_eq_err_iff, or_iff_right hread]
  simp only [fit_eq_error_iff, true_and]
  constructor
  · rintro ⟨a, hparse, q, hq, hpolicy, hrange⟩
    exact ⟨hpolicy, a, hparse, q, hq, hrange⟩
  · rintro ⟨hpolicy, a, hparse, q, hq, hrange⟩
    exact ⟨a, hparse, q, hq, hpolicy, hrange⟩

theorem assemble_ne_unknownEncoding {c : Config} {isa : Isa} {text : Text} {e : ErrorKind}
    (h : assemble c isa text = .err e) : e ≠ .unknownEncoding := by
  rintro rfl
  obtain hop | ⟨hop, -⟩ := parse_error ((assemble_eq_err_of_ne (by decide)).mp h)
  · simp [OperandError] at hop
  · cases hop

/-! ## The form of a response (R93, R190) -/

theorem mem_lowerHex_of_mem_renderHex {digits : Nat} {W : Word} {ch : Char} (h : ch ∈ renderHex digits W) :
    ch ∈ lowerHex := by
  obtain ⟨d, hd, rfl⟩ := hexChars_mem h
  exact List.mem_of_getElem? (lowerHex_getElem? d hd)

/-- Every response has the form its operation can give. -/
theorem wellAnswered_respond (c : Config) (r : Request) : wellAnswered c r (respond c r) = true := by
  cases r with
  | assemble isa text =>
    cases hresp : respond c (.assemble isa text) with
    | err e => exact decide_eq_true (assemble_ne_unknownEncoding hresp)
    | ok h =>
      obtain ⟨a, W, hparse, -, rfl⟩ := assemble_eq_ok hresp
      obtain ⟨rfl, -⟩ := parse_formatMatches hparse
      have hlength : (renderHex (c.hexDigits a.isa) W).length = c.hexDigits a.isa := hexChars_length _ W
      have hchars : (renderHex (c.hexDigits a.isa) W).all (fun d => decide (d ∈ lowerHex)) = true :=
        List.all_eq_true.mpr fun ch hch => decide_eq_true (mem_lowerHex_of_mem_renderHex hch)
      exact Bool.and_eq_true_iff.mpr ⟨decide_eq_true hlength, hchars⟩
  | disassemble isa hex =>
    cases hresp : respond c (.disassemble isa hex) with
    | err e => obtain rfl | rfl := disassemble_err hresp <;> rfl
    | ok out => rfl

/-! ## Numerals that do not fit (R91, R196) -/

theorem defaultConfig_overflow (p : Overflow) (isa : Isa) : (defaultConfig p).overflow isa = p := by
  cases isa <;> rfl

/-- The widths of the fields that a numeric operand goes to, under the default layouts (R43 to R47). -/
theorem mem_numericFields_iff {p : Overflow} {a : AbstractInstr} {v : Int} {f : FieldName} {w : Nat}
    (h : numericOperand a = some (v, f)) :
    (f, w) ∈ [(FieldName.shamt, 5), (.imm, 16), (.target, 26), (.operand, 8)] ↔
      w = (layoutOf (defaultConfig p) a).width f := by
  cases a <;> cases h <;> simp <;> rfl

/-- A value and its remainder are stored alike. -/
theorem fit_truncate_emod (v : Int) (w : Nat) : fit .truncate (v % 2 ^ w) w = fit .truncate v w := by
  simp only [fit, Int.emod_emod]

/-- The word depends on the numeric operand through what `fit` makes of it only. -/
theorem encode_withNumeric {c : Config} {a : AbstractInstr} {u v : Int} {f : FieldName}
    (hv : numericOperand a = some (v, f))
    (h : fit (c.overflow a.isa) u ((layoutOf c a).width f) = fit (c.overflow a.isa) v ((layoutOf c a).width f)) :
    encode c (withNumeric u a) = encode c a := by
  cases a <;> cases hv
  all_goals
    simp only [Config.overflow, AbstractInstr.isa, layoutOf] at h
    simp only [encode, withNumeric, h]

/-- An instruction that cannot be encoded ends a request to assemble with its error (R198). -/
theorem exec_assemble_error {s : State} {rest : List Request} {i : Instr} {isa : Isa} {text : Text} {e : ErrorKind}
    (hs : s.requests = .assemble isa text :: rest) (h : encode s.cfg i.toAbstract = .error e) :
    exec i s = .next (s.after (.assemble isa text) rest (.err e)) := by
  have hout : outputOf s.cfg i.toAbstract (.assemble isa text) = .error e := bind_eq_error.mpr (.inl h)
  rw [exec_eq_translate, translate_eq_after hs, hout, responseOf_error]

/-- On a request to assemble, instructions of one word do the same. -/
theorem exec_assemble_congr {s : State} {rest : List Request} {i j : Instr} {isa : Isa} {text : Text}
    (hs : s.requests = .assemble isa text :: rest) (hisa : i.toAbstract.isa = j.toAbstract.isa)
    (h : encode s.cfg i.toAbstract = encode s.cfg j.toAbstract) : exec i s = exec j s := by
  have hout : outputOf s.cfg i.toAbstract (.assemble isa text) = outputOf s.cfg j.toAbstract (.assemble isa text) := by
    simp only [outputOf, h, hisa]
  rw [exec_eq_translate, exec_eq_translate, translate_eq_after hs, translate_eq_after hs, hout]

/-- `make` is an instruction of the opcode table as a function of its numeric operand, whose field has `w` bits. -/
structure NumericInstr (make : Int → Instr) (w : Nat) : Prop where
  operand : ∀ p v, ∃ f, numericOperand (make v).toAbstract = some (v, f) ∧
    (layoutOf (defaultConfig p) (make v).toAbstract).width f = w
  withNumeric_eq : ∀ u v, (make u).toAbstract = withNumeric u (make v).toAbstract

/-- Under `reject` a value that does not fit ends the request with `FieldOverflow`. -/
theorem NumericInstr.exec_reject {make : Int → Instr} {w : Nat} (hmake : NumericInstr make w) {s : State}
    {rest : List Request} {isa : Isa} {text : Text} {v : Int} (hcfg : s.cfg = defaultConfig .reject)
    (hs : s.requests = .assemble isa text :: rest) (hv : v < 0 ∨ (2 : Int) ^ w ≤ v) :
    exec (make v) s = .next (s.after (.assemble isa text) rest (.err .fieldOverflow)) := by
  obtain ⟨f, hop, rfl⟩ := hmake.operand .reject v
  have hformat := formatMatches_of_toInstr (p := .reject) (toInstr_toAbstract (make v))
  refine exec_assemble_error hs ?_
  rw [hcfg, encode_eq_error_iff hformat, defaultConfig_overflow]
  exact ⟨_, hop, fit_reject_of_out_of_range hv⟩

/-- Under `truncate` the value is wrapped. -/
theorem NumericInstr.exec_truncate {make : Int → Instr} {w : Nat} (hmake : NumericInstr make w) {s : State}
    {rest : List Request} {isa : Isa} {text : Text} {v : Int} (hcfg : s.cfg = defaultConfig .truncate)
    (hs : s.requests = .assemble isa text :: rest) : exec (make v) s = exec (make (v % 2 ^ w)) s := by
  obtain ⟨f, hop, rfl⟩ := hmake.operand .truncate v
  have hwrap := hmake.withNumeric_eq (v % 2 ^ (layoutOf (defaultConfig .truncate) (make v).toAbstract).width f) v
  refine (exec_assemble_congr hs ?_ ?_).symm
  · rw [hwrap, withNumeric_isa]
  · rw [hwrap, hcfg]
    refine encode_withNumeric hop ?_
    rw [defaultConfig_overflow]
    exact fit_truncate_emod v _

/-- The instructions with a numeric operand, as functions of it, and the widths of their fields. -/
abbrev numericInstrs (a b : Nat) : List ((Int → Instr) × Nat) :=
  [(.sll a b, 5), (.srl a b, 5), (.sra a b, 5), (.addi a b, 16), (.addiu a b, 16), (.slti a b, 16), (.sltiu a b, 16),
    (.andi a b, 16), (.ori a b, 16), (.xori a b, 16), (.lb a b, 16), (.lh a b, 16), (.lw a b, 16), (.lbu a b, 16),
    (.lhu a b, 16), (.sb a b, 16), (.sh a b, 16), (.sw a b, 16), (.j, 26), (.jal, 26), (.jmp, 8),
    (fun n => .movIR n b, 8), (fun n => .addIR n b, 8), (fun n => .subIR n b, 8)]

theorem numericInstrs_numeric (a b : Nat) : ∀ x ∈ numericInstrs a b, NumericInstr x.1 x.2 := by
  simp only [List.forall_mem_cons]
  and_intros
  on_goal -1 => exact List.forall_mem_nil _
  all_goals exact ⟨fun _ _ => ⟨_, rfl, rfl⟩, fun _ _ => rfl⟩

/-! ## The statements -/

/-- Settles O43: the kinds of each operation, followed through its stages. -/
theorem errorKindsByOperation : Obligations.ErrorKindsByOperation := by
  unfold Obligations.ErrorKindsByOperation
  exact ⟨rfl, fun _ _ _ h => assemble_ne_unknownEncoding h rfl, fun _ _ _ _ => disassemble_err⟩

/-- Settles O44: in a well-formed configuration a mnemonic with an opcode has its class, so no later lookup of it
fails. -/
theorem unknownMnemonicExactly : Obligations.UnknownMnemonicExactly := by
  unfold Obligations.UnknownMnemonicExactly
  have hiff {c : Config} {isa : Isa} {text : Text} (hc : c.WellFormed) :
      assemble c isa text = .err .unknownMnemonic ↔ NoMnemonic c isa text := by
    rw [assemble_eq_err_of_ne (by decide)]
    refine ⟨fun h => ?_, parse_of_noMnemonic⟩
    obtain hop | ⟨-, hno⟩ := parse_error h
    · simp [OperandError] at hop
    · exact hno hc
  exact ⟨fun _ _ => hiff, fun _ _ => hiff, fun _ _ => lookup_of_not_mem⟩

/-- Settles O45: decoding fails for an opcode, function code or mode without an entry, and writing the text for a
register code without one. -/
theorem unknownEncodingExactly : Obligations.UnknownEncodingExactly := by
  unfold Obligations.UnknownEncodingExactly
  refine ⟨fun c hex W hhex => ?m, fun c hex W hhex => ?s⟩
  case m =>
    have hillegal : c.m.IllegalWord W ↔
        (extract c.m.layoutR .opcode W ≠ 0 ∧ extract c.m.layoutR .opcode W ∉ c.m.opc.values) ∨
        (extract c.m.layoutR .opcode W = 0 ∧ extract c.m.layoutR .funct W ∉ c.m.fn.values) := by
      unfold ConfigM.IllegalWord
      split
      case isTrue h0 => simp [h0]
      case isFalse h0 => simp [h0]
    rw [disassemble_eq_unknownEncoding_iff (isa := .m) hhex, decodeWord, (unknownWhen_decodeM c.m W).eq_error_iff,
      hillegal, or_assoc]
    rfl
  case s =>
    rw [disassemble_eq_unknownEncoding_iff (isa := .s) hhex, decodeWord, (unknownWhen_decodeS c.s W).eq_error_iff,
      ConfigS.IllegalWord, ConfigS.TwoOperandWord, and_assoc, or_assoc]
    rfl

/-- Settles O46: a text of whitespace and commas has no token. -/
theorem emptyTextMalformed : Obligations.EmptyTextMalformed := by
  unfold Obligations.EmptyTextMalformed
  intro c isa text hblank
  have hspaces : ∀ ch ∈ text.filter fun ch => decide (ch ≠ ','), isSpace ch = true := by
    intro ch hch
    obtain ⟨hmem, hcomma⟩ := List.mem_filter.mp hch
    exact (hblank ch hmem).resolve_right (of_decide_eq_true hcomma)
  have htok : tokenize text = [] := by
    have hrest := splitRuns_spaces (rest := []) hspaces
    rwa [List.append_nil] at hrest
  exact (assemble_eq_err_of_ne (by decide)).mpr (parse_of_no_token htok)

/-- Settles O47: under the default layouts the field of a numeric operand has one of the four widths. -/
theorem fieldOverflowExactly : Obligations.FieldOverflowExactly := by
  unfold Obligations.FieldOverflowExactly
  intro p isa text
  refine ⟨?assemble, fun h => ?disassemble⟩
  case assemble =>
    rw [assemble_eq_fieldOverflow_iff, defaultConfig_overflow]
    refine and_congr_right fun _ => ⟨?_, ?_⟩
    · rintro ⟨a, hparse, ⟨v, f⟩, hq, hrange⟩
      exact ⟨a, v, f, _, hparse, hq, (mem_numericFields_iff hq).mpr rfl, hrange⟩
    · rintro ⟨a, v, f, w, hparse, hq, hfield, hrange⟩
      exact ⟨a, hparse, (v, f), hq, (mem_numericFields_iff hq).mp hfield ▸ hrange⟩
  case disassemble => obtain h | h := disassemble_err h <;> cases h

/-- Settles O57: the word of each of these instructions depends on the numeral through `fit` alone, which refuses it or
takes its remainder. -/
theorem overflowTrapsOrWraps : Obligations.OverflowTrapsOrWraps := by
  unfold Obligations.OverflowTrapsOrWraps
  intro s rest p isa text a b v hcfg hs x hx
  have hmake : NumericInstr x.1 x.2 := numericInstrs_numeric a b x hx
  refine ⟨?_, ?_⟩
  · rintro rfl hv
    exact hmake.exec_reject hcfg hs hv
  · rintro rfl
    exact hmake.exec_truncate hcfg hs

/-- Settles O4: the one response a step adds is the codec's own. -/
theorem stepKeepsWellAnswered : Obligations.StepKeepsWellAnswered := by
  unfold Obligations.StepKeepsWellAnswered
  intro s s' hs hstep q hq
  obtain ⟨-, rfl⟩ | ⟨r, rest, -, rfl⟩ := step_serves hstep
  · exact hs q hq
  rw [State.after_exchanges, List.mem_append, List.mem_singleton] at hq
  obtain hold | rfl := hq
  · exact hs q hold
  · exact wellAnswered_respond s.cfg r

/-- Settles O9: with a request in progress or without, a step and an instruction answer a next state; and the request
after a failed one is answered by the same function of the configuration as if it had come first. -/
theorem errorsStopNothing : Obligations.ErrorsStopNothing := by
  unfold Obligations.ErrorsStopNothing
  refine ⟨fun s => ?step, fun i s => ?exec, fun s s' r rest e hs herr hstep => ?failed⟩
  case step =>
    cases hs : s.requests with
    | nil => exact ⟨s, step_nil hs⟩
    | cons r rest => exact ⟨_, step_answers hs⟩
  case exec =>
    rw [exec_eq_translate]
    cases hs : s.requests with
    | nil => exact ⟨s, translate_nil hs⟩
    | cons r rest => exact ⟨_, translate_eq_after hs⟩
  case failed =>
    obtain rfl : s.after r rest (.err e) = s' :=
      Host.Outcome.next.inj ((answers_of_respond hs herr).symm.trans hstep)
    refine ⟨rfl, ?_⟩
    rintro q rest' rfl
    exact ⟨respond s.cfg q, step_answers rfl, step_answers rfl⟩

end Sys2Proof.Machine
end

section
/-!
PROOF for 70_reset_and_hazards.md: with no request in progress the codec is ready and does nothing (R214; log entry 2).
-/

namespace Sys2Proof.Machine

/-- Settles O10: without a request a step has nothing to serve and an instruction nothing to translate. -/
theorem idleStepChangesNothing : Obligations.IdleStepChangesNothing := by
  unfold Obligations.IdleStepChangesNothing
  exact fun s hs => ⟨step_nil hs, fun i => (exec_eq_translate i s).trans (translate_nil hs)⟩

end Sys2Proof.Machine
end
